-- ==== Sys2Proof/Word.lean ====
section
/-! DEFINITION. The word types of the TTE: bytes of BUF, 32-bit registers and command words (R6 REGW), and the
64-bit quantities TIME, COUNTER and WIN_BASE (R6 TIMEW). -/

namespace Sys2Proof

/-- One byte of a buffer. -/
abbrev Byte := BitVec 8

/-- A register, or a command word (R6 REGW = 32, R100). -/
abbrev Word := BitVec 32

/-- TIME, COUNTER, WIN_BASE (R6 TIMEW = 64). -/
abbrev Dword := BitVec 64

end Sys2Proof
end

