-- ==== Sys2Proof/Syntax.lean ====
section
/-! DEFINITION. The eleven commands of spec/opcode_table.json (R104). -/

namespace Sys2Proof

/-- A command, one constructor per row of the opcode table. The only operand is the signed 16-bit immediate of
format I, held as the integer the spec reads it as (R105); `Instr.WellFormed` gives its range. -/
inductive Instr where
  /-- 0x01: validate and freeze the configuration (R131). -/
  | cfglock
  /-- 0x02: clear the recorded fault (R135). -/
  | clrerr
  /-- 0x03: reset the whole block (R138). -/
  | sreset
  /-- 0x10: Base32-decode TEXT into KEY (R151). -/
  | b32dec
  /-- 0x20: dynamic truncation of DIGEST into VALUE (R171). -/
  | dtrunc
  /-- 0x21: VALUE mod 10^digits into CODE (R176). -/
  | modred
  /-- 0x30: counter from TIME, period and the offset `k`, into MSG (R191). -/
  | slice (k : Int)
  /-- 0x31: open a verification window of discrepancy `d` (R195). -/
  | vbegin (d : Int)
  /-- 0x32: counter of the window's current offset, into MSG (R198). -/
  | slicew
  /-- 0x40: constant-time compare CODE with CAND (R211). -/
  | cmp
  /-- 0x41: compare, OR into the window result, advance the window (R215). -/
  | cmpw
  deriving DecidableEq, Repr

end Sys2Proof
end

