-- ==== Sys2Proof/WellFormed.lean ====
section
/-! DEFINITION. Which commands exist: the range of the immediate of format I (R103, R105). -/

namespace Sys2Proof

/-- R103: an immediate of format I lies in [-32768, 32767] (R6 IMMW = 16). -/
abbrev imm16Range (k : Int) : Prop := -32768 ≤ k ∧ k ≤ 32767

/-- Whether some word encodes the command. The discrepancy of VBEGIN may be negative: `VBEGIN -1` decodes, then faults
(R113). -/
def Instr.wf (i : Instr) : Bool :=
  match i with
  | .slice k => decide (imm16Range k)
  | .vbegin d => decide (imm16Range d)
  | .cfglock | .clrerr | .sreset | .b32dec | .dtrunc | .modred | .slicew | .cmp | .cmpw => true

/-- A command that some word encodes. -/
abbrev Instr.WellFormed (i : Instr) : Prop := i.wf = true

end Sys2Proof
end

