-- ==== Sys2Proof/Decode.lean ====
section
/-! DEFINITION. Decoding a command word (R100 to R106), and the encoder from the same tables. -/

namespace Sys2Proof

/-- R102, R103: the two formats. -/
inductive Format where
  /-- No operand: bits 23:8 must be 0. -/
  | n
  /-- One signed 16-bit immediate in bits 23:8. -/
  | i
  deriving DecidableEq, Repr

/-- Why a word is no command (R101 steps 3 and 4, R235). All three raise IllegalCommand. -/
inductive DecodeError where
  /-- Bits 31:24 are not zero. -/
  | reservedBits
  /-- The opcode byte is not in the table. -/
  | unknownOpcode
  /-- A non-zero immediate on a command of format N. -/
  | nonzeroImmediate
  deriving DecidableEq, Repr

/-- R101: `op = w[7:0]`. -/
def opField (w : Word) : Byte := w.extractLsb' 0 8

/-- R101: `imm = w[23:8]`. -/
def immField (w : Word) : BitVec 16 := w.extractLsb' 8 16

/-- R101: `rsv = w[31:24]`. -/
def rsvField (w : Word) : Byte := w.extractLsb' 24 8

/-- R8: a 16-bit field read as two's complement. -/
def sext16 (v : BitVec 16) : Int := v.toInt

/-- The opcode map of R104: the format and the command of an opcode byte, given the value of its immediate. -/
def opcodeRow (op : Byte) (k : Int) : Option (Format × Instr) :=
  match op.toNat with
  | 0x01 => some (.n, .cfglock)
  | 0x02 => some (.n, .clrerr)
  | 0x03 => some (.n, .sreset)
  | 0x10 => some (.n, .b32dec)
  | 0x20 => some (.n, .dtrunc)
  | 0x21 => some (.n, .modred)
  | 0x30 => some (.i, .slice k)
  | 0x31 => some (.i, .vbegin k)
  | 0x32 => some (.n, .slicew)
  | 0x40 => some (.n, .cmp)
  | 0x41 => some (.n, .cmpw)
  | _ => none

/-- R101 steps 3 to 5: decode a command word, or say why it is illegal. -/
def decodeWord (w : Word) : Except DecodeError Instr :=
  if rsvField w ≠ 0 then .error .reservedBits
  else
    match opcodeRow (opField w) (sext16 (immField w)) with
    | none => .error .unknownOpcode
    | some (.n, i) => if immField w ≠ 0 then .error .nonzeroImmediate else .ok i
    | some (.i, i) => .ok i

/-- R104: the opcode byte of a command. -/
def Instr.op (i : Instr) : Byte :=
  match i with
  | .cfglock => 0x01
  | .clrerr => 0x02
  | .sreset => 0x03
  | .b32dec => 0x10
  | .dtrunc => 0x20
  | .modred => 0x21
  | .slice _ => 0x30
  | .vbegin _ => 0x31
  | .slicew => 0x32
  | .cmp => 0x40
  | .cmpw => 0x41

/-- R103: the immediate field, `k mod 65536`; zero for format N (R102). -/
def Instr.imm (i : Instr) : BitVec 16 :=
  match i with
  | .slice k => BitVec.ofInt 16 k
  | .vbegin d => BitVec.ofInt 16 d
  | .cfglock | .clrerr | .sreset | .b32dec | .dtrunc | .modred | .slicew | .cmp | .cmpw => 0

/-- R102, R103: the word of a command, `0 || imm || op`. -/
def encode (i : Instr) : Word := (0 : Byte) ++ i.imm ++ i.op

/-- The host's numbering of an instruction's bits: here a command word is the 32-bit value of one write (R74 (f), R87),
so bit 0 is bit 0 of the word; anything wider than 32 bits is no command. -/
def decodeTableWord (nbits w : Nat) : Option Instr :=
  if nbits ≤ 32 ∧ w < 2 ^ nbits then
    match decodeWord (BitVec.ofNat 32 w) with
    | .ok i => some i
    | .error _ => none
  else none

end Sys2Proof
end

