-- ==== Sys2Proof/Config.lean ====
section
/-! DEFINITION. What is fixed for this hardware (R6) and what the spec leaves open (uninterpreted constants, no body:
a claim holds whatever they are). -/

namespace Sys2Proof.Config

/-- R6 TEXTMAX: bytes in TEXT, longest Base32 text. -/
def textMax : Nat := 128

/-- R6 KEYMAX: bytes in KEY. -/
def keyMax : Nat := 80

/-- R6 MSGLEN: bytes in MSG. -/
def msgLen : Nat := 8

/-- R6 CODEBUF: bytes in CODE and in CAND, positions the comparator scans. -/
def codeBuf : Nat := 16

/-- R6 MAXDIGITS: largest legal CFG_DIGITS. -/
def maxDigits : Nat := 10

/-- R6 NALG: the algorithm codes are 0, 1, 2. -/
def nAlg : Nat := 3

/-- R71, symbolic bases of the six regions of BUF. -/
def textBase : Nat := 0x000
/-- R71. -/
def keyBase : Nat := 0x080
/-- R71. -/
def digestBase : Nat := 0x100
/-- R71. -/
def msgBase : Nat := 0x140
/-- R71. -/
def codeBase : Nat := 0x150
/-- R71. -/
def candBase : Nat := 0x160
/-- R21: register `i` is at `0x200 + 4*i`. -/
def regBase : Nat := 0x200

/-- OPEN (R5, U22): byte `j` of the digest HMAC(algorithm code, key, message). Computed outside the block; only the
reference functions of Machine/Reference.lean use it (log 12). -/
opaque hmacByte : Word → List Byte → List Byte → Nat → Byte

/-- OPEN (R275, U21): the one latency of CMP (log 13). -/
opaque latCmp : Nat

/-- OPEN (R275, U21): the one latency of CMPW (log 13). -/
opaque latCmpw : Nat

/-- OPEN (R276, U21): the latency of the commands other than CMP, CMPW and B32DEC, which may depend on the
configuration (digits, period, algorithm) and on nothing secret; the first argument is the command word (log 13). -/
opaque latPublic : Word → Word → Word → Word → Nat

/-- OPEN (R276, U21): the latency of B32DEC, which may depend on TEXT_LEN and on the text (log 13). -/
opaque latB32dec : Word → List Byte → Nat

/-- FREE VALUE (log 8): the quotient of a time by a period of 0. R10 (b) says the division cannot occur after CFGLOCK;
it is reached only in states no run reaches. -/
opaque quotientByZero : Nat → Nat

end Sys2Proof.Config
end

