-- ==== Sys2Proof/Machine/State.lean ====
section
/-! DEFINITION. The state of the TTE (R20), the host operations that drive it (R7, R72, R260) and the reset state (R60). -/

namespace Sys2Proof.Machine

/-- The kinds of fault a command can take (R231). Codes 3 and 9 and up are never produced (R234, U15), so they have no
constructor. A fault of the TTE is a next state (R240), never a stop of the machine. -/
inductive FaultKind where
  /-- Code 1, CFGLOCK (R232). -/
  | invalidConfiguration
  /-- Code 2, B32DEC (R233). -/
  | invalidSecret
  /-- Code 4, any word that is no command (R235). -/
  | illegalCommand
  /-- Code 5, a prerequisite flag is not in the required state (R236). -/
  | sequence
  /-- Code 6, B32DEC and DTRUNC (R237). -/
  | length
  /-- Code 7, SLICE and SLICEW (R238). -/
  | counterRange
  /-- Code 8, VBEGIN (R239). -/
  | invalidWindow
  deriving DecidableEq, Repr

/-- One operation of the outside world: a transaction on the host port (R72), or the reset input (R260). -/
inductive HostOp where
  /-- `HostRead(addr, size)`. -/
  | read (addr size : Nat)
  /-- `HostWrite(addr, size, data)`; a transaction of size 1 carries the low byte of `data` (log 3). -/
  | write (addr size : Nat) (data : Word)
  /-- The reset input is asserted and released (R260, log 6). -/
  | reset
  deriving DecidableEq, Repr

/-- What the port answers to one transaction (R72). -/
inductive Reply where
  /-- Ok, to a write. -/
  | ok
  /-- Ok with a byte, to a read of size 1. -/
  | byte (b : Byte)
  /-- Ok with a word, to a read of size 4. -/
  | word (w : Word)
  /-- The transaction is rejected and changed nothing. -/
  | busError
  deriving DecidableEq, Repr

/-- The bytes of BUF as address and byte pairs in canonical form (`Memory.wf` of Machine/Ops.lean): addresses strictly
rising, no entry equal to what an unlisted address reads as. -/
abbrev Memory := List Host.Cell

/-- The complete state (R20): the stored registers of R21, the flags of R24, the hidden TMASK and MATCH, BUF, and the
host's side: the operations to come and the replies given (log 1). CMD stores nothing (R23); STATUS, TIME_VALID and
RESULT are views (Machine/Flags.lean, log 11). -/
structure State where
  /-- STATUS bit 0 CFG_OK (R24). -/
  cfgOk : Bool
  /-- STATUS bit 2 KEY_VALID (R24). -/
  keyValid : Bool
  /-- STATUS bit 3 MSG_VALID (R24). -/
  msgValid : Bool
  /-- STATUS bit 4 VALUE_VALID (R24). -/
  valueValid : Bool
  /-- STATUS bit 5 CODE_VALID (R24). -/
  codeValid : Bool
  /-- STATUS bit 6 WIN_ACTIVE (R24). -/
  winActive : Bool
  /-- STATUS bit 7 RESULT_VALID (R24). -/
  resultValid : Bool
  /-- STATUS bit 8 FAULT (R24). -/
  fault : Bool
  /-- Register 2 ERRCODE: the recorded fault, none for code 0 (R25). -/
  errCode : Option FaultKind
  /-- Register 3 ERRCMD (R26). -/
  errCmd : Word
  /-- Register 4 CFG_DIGITS (R31). -/
  cfgDigits : Word
  /-- Register 5 CFG_PERIOD (R32). -/
  cfgPeriod : Word
  /-- Register 6 CFG_ALG (R33). -/
  cfgAlg : Word
  /-- Register 7 TIME_LO (R34). -/
  timeLo : Word
  /-- Register 8 TIME_HI (R34). -/
  timeHi : Word
  /-- Hidden TMASK: which halves of TIME were written since reset (R34). -/
  tmask : BitVec 2
  /-- Register 9 TEXT_LEN (R35). -/
  textLen : Word
  /-- Register 10 DIGEST_LEN (R36). -/
  digestLen : Word
  /-- Register 11 CAND_LEN (R37). -/
  candLen : Word
  /-- Register 12 KEY_LEN, ungated (R38). -/
  keyLen : Word
  /-- Register 13 COUNTER_LO, ungated (R39). -/
  counterLo : Word
  /-- Register 14 COUNTER_HI, ungated (R39). -/
  counterHi : Word
  /-- Register 15 OFFSET bits 3:0, ungated (R40). -/
  offset : BitVec 4
  /-- Register 16 VALUE bits 30:0, ungated (R41). -/
  value : BitVec 31
  /-- Register 17 CODEVAL, ungated (R42). -/
  codeVal : Word
  /-- Register 18 CODE_LEN, ungated (R43). -/
  codeLen : Word
  /-- Register 19 WIN_D (R44). -/
  winD : Word
  /-- Register 20 WIN_I, two's complement (R45). -/
  winI : Word
  /-- Register 21 WIN_BASE_LO (R46). -/
  winBaseLo : Word
  /-- Register 22 WIN_BASE_HI (R46). -/
  winBaseHi : Word
  /-- Hidden MATCH (R51). -/
  matchAcc : Bool
  /-- BUF (R53). -/
  buf : Memory
  /-- The model's own field: the host operations to come, the next one first (log 1). -/
  pending : List HostOp
  /-- The model's own field: the replies given, oldest first (R13, log 1). -/
  replies : List Reply
  deriving DecidableEq, Repr

/-- Reasons the machine could stop with a fault. There are none: every command terminates (R276), a fault of a command
is a next state (R240) and a rejected transaction is a reply (R72); `stuck` is used by no row of 93 (log 4). -/
inductive Fault where
  deriving DecidableEq, Repr

/-- Reasons for which the model gives no meaning. -/
inductive Refusal where
  /-- Raised by an arm of `exec` whose instruction has no meaning yet; safe, since nothing is claimed of it. -/
  | notModelled (mnemonic : String)
  deriving DecidableEq, Repr

/-- The machine right after reset (R60, R260), with nothing asked of it yet. -/
def State.reset : State where
  cfgOk := false
  keyValid := false
  msgValid := false
  valueValid := false
  codeValid := false
  winActive := false
  resultValid := false
  fault := false
  errCode := none
  errCmd := 0
  cfgDigits := 6
  cfgPeriod := 30
  cfgAlg := 0
  timeLo := 0
  timeHi := 0
  tmask := 0
  textLen := 0
  digestLen := 0
  candLen := 0
  keyLen := 0
  counterLo := 0
  counterHi := 0
  offset := 0
  value := 0
  codeVal := 0
  codeLen := 0
  winD := 0
  winI := 0
  winBaseLo := 0
  winBaseHi := 0
  matchAcc := false
  buf := []
  pending := []
  replies := []

/-- How one step ends. -/
abbrev Result := Host.Outcome State Fault Refusal

end Sys2Proof.Machine
end

