-- ==== Sys2Proof/Machine/Ops.lean ====
section
/-! DEFINITION. The named operations: bytes of BUF, taking a fault, the return from one, and reset. -/

namespace Sys2Proof.Machine

/-! ## Bytes of BUF -/

/-- What an address of BUF that is not listed reads as: every byte resets to 0x00 (R53, R60, log 5). -/
def Memory.unlisted : Byte := 0x00

/-- `MemRead(addr, 1)`: the stored byte, ungated (R9). -/
def Memory.read (m : Memory) (a : Nat) : Byte :=
  match m with
  | [] => Memory.unlisted
  | c :: rest => if c.1 = a then c.2 else Memory.read rest a

/-- Put a cell before the first listed address above it. -/
def Memory.insert (a : Nat) (b : Byte) (m : Memory) : Memory :=
  match m with
  | [] => [(a, b)]
  | c :: rest => if a < c.1 then (a, b) :: c :: rest else c :: Memory.insert a b rest

/-- `MemWrite(addr, 1, v)` (R9), keeping the canonical form. -/
def Memory.write (m : Memory) (a : Nat) (b : Byte) : Memory :=
  if b = Memory.unlisted then m.filter (fun c => c.1 ≠ a)
  else Memory.insert a b (m.filter (fun c => c.1 ≠ a))

/-- `MemWrite` of consecutive bytes from `a` up. -/
def Memory.writeBytes (m : Memory) (a : Nat) (bs : List Byte) : Memory :=
  match bs with
  | [] => m
  | b :: rest => Memory.writeBytes (m.write a b) (a + 1) rest

/-- The `n` bytes from `a` up. -/
def Memory.readBytes (m : Memory) (a n : Nat) : List Byte :=
  (List.range n).map fun j => m.read (a + j)

/-- Addresses strictly rise. -/
def Memory.sorted (m : Memory) : Bool :=
  match m with
  | [] => true
  | c :: rest => rest.all (fun d => decide (c.1 < d.1)) && Memory.sorted rest

/-- The canonical form: addresses strictly rising, no entry equal to what an unlisted address reads as. -/
def Memory.wf (m : Memory) : Bool :=
  m.sorted && m.all (fun c => c.2 != Memory.unlisted)

/-! ## Byte strings and integers (R9) -/

/-- `BE64(c)`: byte `j` is `(c >> (8*(7-j))) & 0xFF` (R9, R74 (b)). -/
def be64 (c : Dword) : List Byte :=
  (List.range Config.msgLen).map fun j => (c >>> (8 * (7 - j))).setWidth 8

/-- `BE32(b0,b1,b2,b3)`: the byte at the lowest address is bits 31:24 (R9, R74 (b)). -/
def be32 (b0 b1 b2 b3 : Byte) : Word := b0 ++ b1 ++ b2 ++ b3

/-- A byte string followed by zeros up to `n` bytes (R151, R176). -/
def zeroFill (n : Nat) (bs : List Byte) : List Byte := bs ++ List.replicate (n - bs.length) 0x00

/-! ## Faults -/

/-- The state a fault leaves: FAULT, ERRCODE and ERRCMD record it and the window and any result are dropped; nothing
else is written (R240). -/
def State.faulted (kind : FaultKind) (w : Word) (s : State) : State :=
  { s with
    fault := true
    errCode := some kind
    errCmd := w
    winActive := false
    matchAcc := false
    resultValid := false }

/-- `raise <Fault>(w)`: the command ends with the fault `kind` (R9, R240). Its caller has already cleared the
destination valid flags of the command's first line. -/
def raise (kind : FaultKind) (w : Word) (s : State) : Result := .next (s.faulted kind w)

/-- Return from a fault: FAULT, ERRCODE and ERRCMD are cleared and nothing is restored (R135, R242). -/
def State.clearFault (s : State) : State :=
  { s with fault := false, errCode := none, errCmd := 0 }

/-- Reset of the block (R138, R260): every element of the TTE takes its reset value; the host's own operations to come
and the replies it has had are not the block's (log 10). -/
def State.resetBlock (s : State) : State :=
  { State.reset with pending := s.pending, replies := s.replies }

/-! ## The host's side -/

/-- The port answers the host. -/
def State.answer (r : Reply) (s : State) : State := { s with replies := s.replies ++ [r] }

/-- The host's next operation is taken from its list. -/
def State.taken (s : State) : State := { s with pending := s.pending.tail }

/-- Do `f` in the next state, if there is one. -/
def andThen (r : Result) (f : State → Result) : Result :=
  match r with
  | .next s => f s
  | .fault e => .fault e
  | .refused e => .refused e

end Sys2Proof.Machine
end

