-- ==== Sys2Proof/Machine/Operands.lean ====
section
/-! DEFINITION. The operands of the commands: all are implicit but the immediate of format I (R105, R79). -/

namespace Sys2Proof.Machine

/-- `TIME = TIME_HI || TIME_LO` (R34). -/
def State.time (s : State) : Dword := s.timeHi ++ s.timeLo

/-- `COUNTER = COUNTER_HI || COUNTER_LO` (R39). -/
def State.counter (s : State) : Dword := s.counterHi ++ s.counterLo

/-- `WIN_BASE = WIN_BASE_HI || WIN_BASE_LO` (R46). -/
def State.winBase (s : State) : Dword := s.winBaseHi ++ s.winBaseLo

/-- Bits 31:0 of a 64-bit quantity, its `_LO` register (R74 (c)). -/
def loHalf (v : Dword) : Word := v.extractLsb' 0 32

/-- Bits 63:32 of a 64-bit quantity, its `_HI` register (R74 (c)). -/
def hiHalf (v : Dword) : Word := v.extractLsb' 32 32

/-- `floor(time / period)` (R10 (b)), a free value for a period of 0, which CFGLOCK excludes (log 8). -/
def quotient (time : Dword) (period : Word) : Nat :=
  if period = 0 then Config.quotientByZero time.toNat else time.toNat / period.toNat

/-- `x[TIME] div x[CFG_PERIOD]`, the current slice (R191, R195). -/
def State.slice (s : State) : Nat := quotient s.time s.cfgPeriod

/-- `MemRead(TEXT + i, 1)`. -/
def State.textByte (s : State) (i : Nat) : Byte := s.buf.read (Config.textBase + i)

/-- `MemRead(DIGEST + i, 1)`. -/
def State.digestByte (s : State) (i : Nat) : Byte := s.buf.read (Config.digestBase + i)

/-- `MemRead(CODE + j, 1)`. -/
def State.codeByte (s : State) (j : Nat) : Byte := s.buf.read (Config.codeBase + j)

/-- The candidate byte the comparator sees: `MemRead(CAND + j, 1)` below CAND_LEN, 0x00 from there on (R212). -/
def State.candByte (s : State) (j : Nat) : Byte :=
  if j < s.candLen.toNat then s.buf.read (Config.candBase + j) else 0x00

/-- The KEY_LEN bytes of KEY, the decoded secret (R38). -/
def State.keyBytes (s : State) : List Byte := s.buf.readBytes Config.keyBase s.keyLen.toNat

/-- The 8 bytes of MSG (R39). -/
def State.msgBytes (s : State) : List Byte := s.buf.readBytes Config.msgBase Config.msgLen

/-- The CODE_LEN bytes of CODE (R43). -/
def State.codeBytes (s : State) : List Byte := s.buf.readBytes Config.codeBase s.codeLen.toNat

/-- `dlen(a)`: 20, 32 or 64 for the codes 0, 1, 2 (R9, R178); none for a code CFGLOCK refuses (log 7). -/
def dlen (alg : Word) : Option Nat :=
  if alg = 0 then some 20
  else if alg = 1 then some 32
  else if alg = 2 then some 64
  else none

end Sys2Proof.Machine
end

