-- ==== Sys2Proof/Machine/Flags.lean ====
section
/-! DEFINITION. Flags and the views made of them: STATUS, ERRCODE, RESULT, gating (R24, R25, R47, R52). -/

namespace Sys2Proof.Machine

/-- STATUS.TIME_VALID = 1 exactly when TMASK = 0b11 (R34). -/
def State.timeValid (s : State) : Bool := s.tmask == 0b11

/-- A flag at bit `n` of a word. -/
def flagBit (n : Nat) (b : Bool) : Word := if b then (1 : Word) <<< n else 0

/-- The word STATUS reads as; bits 31:9 are 0 (R24). -/
def State.status (s : State) : Word :=
  flagBit 0 s.cfgOk ||| flagBit 1 s.timeValid ||| flagBit 2 s.keyValid ||| flagBit 3 s.msgValid |||
    flagBit 4 s.valueValid ||| flagBit 5 s.codeValid ||| flagBit 6 s.winActive ||| flagBit 7 s.resultValid |||
    flagBit 8 s.fault

/-- The code of a fault (R231). -/
def FaultKind.code (k : FaultKind) : Byte :=
  match k with
  | .invalidConfiguration => 1
  | .invalidSecret => 2
  | .illegalCommand => 4
  | .sequence => 5
  | .length => 6
  | .counterRange => 7
  | .invalidWindow => 8

/-- The word ERRCODE reads as: the code in bits 7:0, 0 if none; bits 31:8 are 0 (R25). -/
def State.errCodeWord (s : State) : Word :=
  match s.errCode with
  | none => 0
  | some k => k.code.setWidth 32

/-- The word RESULT reads as: bit 1 RESULT_VALID, bit 0 `RESULT_VALID & x[MATCH]` (R47). -/
def State.result (s : State) : Word :=
  flagBit 1 s.resultValid ||| flagBit 0 (s.resultValid && s.matchAcc)

/-- A gated output register: the stored value while its flag is 1, else 0 (R52). -/
def gate (flag : Bool) (v : Word) : Word := if flag then v else 0

/-- A gated output byte (R52, R73). -/
def gateByte (flag : Bool) (b : Byte) : Byte := if flag then b else 0x00

end Sys2Proof.Machine
end

