-- ==== Sys2Proof/Machine/Base32.lean ====
section
/-! DEFINITION. The Base32 decoder and B32DEC (41_base32.md). -/

namespace Sys2Proof.Machine

/-- `b32val(c)`: the index of a character in `A`..`Z`, `2`..`7`; none for every other byte (R152). -/
def b32val (c : Byte) : Option Nat :=
  if 0x41 ≤ c.toNat ∧ c.toNat ≤ 0x5A then some (c.toNat - 0x41)
  else if 0x32 ≤ c.toNat ∧ c.toNat ≤ 0x37 then some (c.toNat - 0x32 + 26)
  else none

/-- The variables of R151's loop: `acc`, `nbits`, `out` (its length is `k`), `bad`. -/
structure B32Loop where
  acc : Nat
  nbits : Nat
  out : List Byte
  bad : Bool
  deriving DecidableEq, Repr

/-- The loop variables before the first character (R151). -/
def b32Start : B32Loop := { acc := 0, nbits := 0, out := [], bad := false }

/-- Five more bits: join them to the accumulator and cut a byte off its top if there are eight (R151). -/
def b32Push (st : B32Loop) (v : Nat) : B32Loop :=
  let acc := (st.acc <<< 5) ||| v
  let nbits := st.nbits + 5
  if nbits ≥ 8 then
    { st with
      acc := acc &&& ((1 <<< (nbits - 8)) - 1)
      nbits := nbits - 8
      out := st.out ++ [BitVec.ofNat 8 ((acc >>> (nbits - 8)) &&& 0xFF)] }
  else { st with acc := acc, nbits := nbits }

/-- One character of R151's loop; a bad character is noted and the loop goes on. -/
def b32Step (st : B32Loop) (c : Byte) : B32Loop :=
  match b32val c with
  | none => { st with bad := true }
  | some v => b32Push st v

/-- R151 on a text already stripped: the decoded bytes, or none (a bad character, or no whole byte, R155). -/
def b32Decode (text : List Byte) : Option (List Byte) :=
  let st := text.foldl b32Step b32Start
  if st.bad || st.out.isEmpty then none else some st.out

/-- The length of the text `c 0 .. c (n-1)` once every trailing `=` (0x3D) is dropped (R151, R153). -/
def strippedLen (c : Nat → Byte) (n : Nat) : Nat :=
  match n with
  | 0 => 0
  | m + 1 => if c m = 0x3D then strippedLen c m else m + 1

/-- The text B32DEC decodes: the first TEXT_LEN bytes of TEXT less the trailing `=` (R151). -/
def State.strippedText (s : State) : List Byte :=
  (List.range (strippedLen s.textByte s.textLen.toNat)).map s.textByte

/-- KEY_VALID is cleared, B32DEC's first line (R151). -/
def State.keyCleared (s : State) : State := { s with keyValid := false }

/-- The decoded bytes and zeros after them in KEY, their count in KEY_LEN, KEY_VALID set (R151). -/
def State.withKey (out : List Byte) (s : State) : State :=
  { s with
    buf := s.buf.writeBytes Config.keyBase (zeroFill Config.keyMax out)
    keyLen := BitVec.ofNat 32 out.length
    keyValid := true }

/-- B32DEC (R151). -/
def execB32dec (s : State) : Result :=
  if s.textLen.toNat > Config.textMax then raise .length (encode .b32dec) s.keyCleared
  else
    match b32Decode s.strippedText with
    | none => raise .invalidSecret (encode .b32dec) s.keyCleared
    | some out => .next (s.keyCleared.withKey out)

end Sys2Proof.Machine
end

