-- ==== Sys2Proof/Machine/Compare.lean ====
section
/-! DEFINITION. The constant-time comparator, CMP and CMPW (44_compare.md). -/

namespace Sys2Proof.Machine

/-- R212: the accumulator after all 16 positions, whatever the lengths and wherever the first difference lies. -/
def State.compareAcc (s : State) : Word :=
  (List.range Config.codeBuf).foldl
    (fun acc j => acc ||| (s.codeByte j ^^^ s.candByte j).setWidth 32)
    (s.codeLen ^^^ s.candLen)

/-- `eq` of R212: the only test of the accumulator is the final one. -/
def State.codeEqCand (s : State) : Bool := s.compareAcc == 0

/-- RESULT_VALID and MATCH are cleared, CMP's first line (R211). -/
def State.resultDropped (s : State) : State := { s with resultValid := false, matchAcc := false }

/-- The comparison result is published (R211). -/
def State.withResult (eq : Bool) (s : State) : State := { s with matchAcc := eq, resultValid := true }

/-- CMP (R211). -/
def execCmp (s : State) : Result :=
  if s.cfgOk = false ∨ s.codeValid = false ∨ s.winActive = true then raise .sequence (encode .cmp) s.resultDropped
  else .next (s.resultDropped.withResult s.codeEqCand)

/-- The comparison result is ORed into MATCH and the code is consumed (R215). -/
def State.accumulated (eq : Bool) (s : State) : State :=
  { s with matchAcc := s.matchAcc || eq, codeValid := false, valueValid := false }

/-- The window closes and its result is final (R215). -/
def State.windowClosed (s : State) : State := { s with winActive := false, resultValid := true }

/-- The window moves to its next offset (R215). -/
def State.windowMoved (s : State) : State := { s with winI := s.winI + 1 }

/-- The end of a CMPW: the window closes when its last offset has been compared, else it moves to the next (R215). -/
def State.windowAdvanced (s : State) : State :=
  if s.winI = s.winD then s.windowClosed else s.windowMoved

/-- CMPW (R215): no test of `eq`, no early exit. -/
def execCmpw (s : State) : Result :=
  if s.winActive = false ∨ s.codeValid = false then raise .sequence (encode .cmpw) s
  else .next (s.accumulated s.codeEqCand).windowAdvanced

end Sys2Proof.Machine
end

