-- ==== Sys2Proof/Machine/Control.lean ====
section
/-! DEFINITION. CFGLOCK, CLRERR, SRESET (40_control.md). -/

namespace Sys2Proof.Machine

/-- Whether CFGLOCK accepts the staging registers: digits 1 to 10, a period of at least 1, an algorithm code up to 2
(R131). -/
def State.cfgLegal (s : State) : Bool :=
  !(s.cfgDigits == 0 || decide (s.cfgDigits.toNat > Config.maxDigits)) && !(s.cfgPeriod == 0) &&
    !decide (s.cfgAlg.toNat > 2)

/-- The configuration is frozen (R131). -/
def State.frozen (s : State) : State := { s with cfgOk := true }

/-- CFGLOCK (R131): validate the configuration and freeze it. The three checks raise the same code, so their order is
unobservable (U18). -/
def execCfglock (s : State) : Result :=
  if s.cfgOk then raise .sequence (encode .cfglock) s
  else if s.cfgLegal then .next s.frozen
  else raise .invalidConfiguration (encode .cfglock) s

/-- CLRERR (R135). -/
def execClrerr (s : State) : Result := .next s.clearFault

/-- SRESET (R138). -/
def execSreset (s : State) : Result := .next s.resetBlock

end Sys2Proof.Machine
end

