-- ==== Sys2Proof/Machine/Hotp.lean ====
section
/-! DEFINITION. DTRUNC and MODRED (42_hotp_truncation.md). -/

namespace Sys2Proof.Machine

/-- `o = digest[last] & 0x0F` of the digest of `len` bytes `d 0 .. d (len-1)` (R171). -/
def truncOffset (d : Nat → Byte) (len : Nat) : Byte := d (len - 1) &&& 0x0F

/-- `BE32(d[o], d[o+1], d[o+2], d[o+3])`, before the sign bit is cleared (R171). -/
def truncWord (d : Nat → Byte) (len : Nat) : Word :=
  let o := (truncOffset d len).toNat
  be32 (d o) (d (o + 1)) (d (o + 2)) (d (o + 3))

/-- The truncated value: `p & 0x7FFFFFFF` (R171, R10 (e)). -/
def truncValue (d : Nat → Byte) (len : Nat) : BitVec 31 :=
  (truncWord d len &&& 0x7FFFFFFF).setWidth 31

/-- VALUE_VALID and CODE_VALID are cleared, DTRUNC's first line (R171). -/
def State.valueCleared (s : State) : State := { s with valueValid := false, codeValid := false }

/-- OFFSET and VALUE hold a truncation (R171). -/
def State.withValue (o : BitVec 4) (v : BitVec 31) (s : State) : State :=
  { s with offset := o, value := v, valueValid := true }

/-- DTRUNC (R171). An algorithm code that has no digest length equals no DIGEST_LEN (log 7). -/
def execDtrunc (s : State) : Result :=
  if s.cfgOk = false then raise .sequence (encode .dtrunc) s.valueCleared
  else
    match dlen s.cfgAlg with
    | none => raise .length (encode .dtrunc) s.valueCleared
    | some len =>
      if s.digestLen.toNat ≠ len then raise .length (encode .dtrunc) s.valueCleared
      else
        .next (s.valueCleared.withValue ((truncOffset s.digestByte len).setWidth 4) (truncValue s.digestByte len))

/-- Character `j` of `m` in `digits` decimal digits, 0x00 from `digits` on (R176). -/
def codeChar (digits m j : Nat) : Byte :=
  if j < digits then BitVec.ofNat 8 (0x30 + (m / 10 ^ (digits - 1 - j)) % 10) else 0x00

/-- The 16 bytes of CODE for the number `m` in `digits` decimal digits (R176, log 16). -/
def codeText (digits m : Nat) : List Byte := (List.range Config.codeBuf).map (codeChar digits m)

/-- CODE_VALID is cleared, MODRED's first line (R176). -/
def State.codeCleared (s : State) : State := { s with codeValid := false }

/-- CODEVAL, CODE and CODE_LEN hold the number `m` in `digits` decimal digits (R176). -/
def State.withCode (digits : Word) (m : Nat) (s : State) : State :=
  { s with
    codeVal := BitVec.ofNat 32 m
    buf := s.buf.writeBytes Config.codeBase (codeText digits.toNat m)
    codeLen := digits
    codeValid := true }

/-- MODRED (R176). -/
def execModred (s : State) : Result :=
  if s.cfgOk = false ∨ s.valueValid = false then raise .sequence (encode .modred) s.codeCleared
  else .next (s.codeCleared.withCode s.cfgDigits (s.value.toNat % 10 ^ s.cfgDigits.toNat))

end Sys2Proof.Machine
end

