-- ==== Sys2Proof/Machine/Window.lean ====
section
/-! DEFINITION. SLICE, VBEGIN, SLICEW (43_totp_window.md). -/

namespace Sys2Proof.Machine

/-- The exact counter lies in [0, 2^64 - 1] (R10 (c), R192). -/
def counterInRange (c : Int) : Bool := decide (0 ≤ c ∧ c < 2 ^ 64)

/-- MSG_VALID is cleared, the first line of SLICE and SLICEW (R191, R198). -/
def State.msgCleared (s : State) : State := { s with msgValid := false }

/-- The state in which the counter `c` has been computed: COUNTER, `BE64(c)` in MSG, MSG_VALID (R191, R198). -/
def State.withCounter (c : Dword) (s : State) : State :=
  { s with
    counterLo := loHalf c
    counterHi := hiHalf c
    buf := s.buf.writeBytes Config.msgBase (be64 c)
    msgValid := true }

/-- Store the exact counter `c` for the command word `w`, or raise CounterRange (R191, R198, R192). -/
def storeCounter (c : Int) (w : Word) (s : State) : Result :=
  if counterInRange c then .next (s.withCounter (BitVec.ofInt 64 c)) else raise .counterRange w s

/-- SLICE k (R191). -/
def execSlice (k : Int) (s : State) : Result :=
  if s.cfgOk = false ∨ s.timeValid = false then raise .sequence (encode (.slice k)) s.msgCleared
  else storeCounter ((s.slice : Int) + k) (encode (.slice k)) s.msgCleared

/-- Any window and any result are dropped, VBEGIN's first line (R195). -/
def State.windowDropped (s : State) : State :=
  { s with winActive := false, resultValid := false, matchAcc := false }

/-- A window of discrepancy `d` around the slice `base` is open, at its first offset (R195). -/
def State.windowOpened (d : Int) (base : Dword) (s : State) : State :=
  { s with
    winD := BitVec.ofInt 32 d
    winI := BitVec.ofInt 32 (-d)
    winBaseLo := loHalf base
    winBaseHi := hiHalf base
    winActive := true }

/-- VBEGIN d (R195). -/
def execVbegin (d : Int) (s : State) : Result :=
  if s.cfgOk = false ∨ s.timeValid = false then raise .sequence (encode (.vbegin d)) s.windowDropped
  else if d < 0 then raise .invalidWindow (encode (.vbegin d)) s.windowDropped
  else .next (s.windowDropped.windowOpened d (BitVec.ofNat 64 s.slice))

/-- SLICEW (R198): WIN_I is signed. -/
def execSlicew (s : State) : Result :=
  if s.winActive = false then raise .sequence (encode .slicew) s.msgCleared
  else storeCounter ((s.winBase.toNat : Int) + s.winI.toInt) (encode .slicew) s.msgCleared

end Sys2Proof.Machine
end

