-- ==== Sys2Proof/Machine/Dispatch.lean ====
section
/-! DEFINITION. One arm per command: step 5 of R101, "execute the command's rule with its immediate". -/

namespace Sys2Proof.Machine

def exec (i : Instr) (s : State) : Host.Outcome State Fault Refusal :=
  match i with
  | .cfglock => Sys2Proof.Machine.execCfglock s
  | .clrerr => Sys2Proof.Machine.execClrerr s
  | .sreset => Sys2Proof.Machine.execSreset s
  | .b32dec => Sys2Proof.Machine.execB32dec s
  | .dtrunc => Sys2Proof.Machine.execDtrunc s
  | .modred => Sys2Proof.Machine.execModred s
  | .slice k => Sys2Proof.Machine.execSlice k s
  | .vbegin d => Sys2Proof.Machine.execVbegin d s
  | .slicew => Sys2Proof.Machine.execSlicew s
  | .cmp => Sys2Proof.Machine.execCmp s
  | .cmpw => Sys2Proof.Machine.execCmpw s

end Sys2Proof.Machine
end

