-- ==== Sys2Proof/Machine/Map.lean ====
section
/-! DEFINITION. The address map, access rights, and plain reads and writes of the host (20_memory.md, 10_state.md). -/

namespace Sys2Proof.Machine

/-- The rows of R71; `reserved` stands for all five reserved rows. -/
inductive Region where
  | text
  | key
  | digest
  | msg
  | code
  | cand
  | reg
  | reserved
  deriving DecidableEq, Repr

/-- R71: the row of an address (of 0x000..0x3FF). -/
def regionOf (a : Nat) : Region :=
  if a ≤ 0x07F then .text
  else if a ≤ 0x0CF then .key
  else if a ≤ 0x0FF then .reserved
  else if a ≤ 0x13F then .digest
  else if a ≤ 0x147 then .msg
  else if a ≤ 0x14F then .reserved
  else if a ≤ 0x15F then .code
  else if a ≤ 0x16F then .cand
  else if a ≤ 0x1FF then .reserved
  else if a ≤ 0x25F then .reg
  else .reserved

/-- The regions of BUF: those with byte storage (R53, R71). -/
def Region.isBuf (r : Region) : Bool :=
  match r with
  | .text | .key | .digest | .msg | .code | .cand => true
  | .reg | .reserved => false

/-- The 24 registers of R21, in the order of their numbers. -/
inductive Reg where
  | cmd
  | status
  | errcode
  | errcmd
  | cfgDigits
  | cfgPeriod
  | cfgAlg
  | timeLo
  | timeHi
  | textLen
  | digestLen
  | candLen
  | keyLen
  | counterLo
  | counterHi
  | offset
  | value
  | codeval
  | codeLen
  | winD
  | winI
  | winBaseLo
  | winBaseHi
  | result
  deriving DecidableEq, Repr

/-- R21: the register of a number. -/
def regOfNumber (n : Nat) : Option Reg :=
  match n with
  | 0 => some .cmd
  | 1 => some .status
  | 2 => some .errcode
  | 3 => some .errcmd
  | 4 => some .cfgDigits
  | 5 => some .cfgPeriod
  | 6 => some .cfgAlg
  | 7 => some .timeLo
  | 8 => some .timeHi
  | 9 => some .textLen
  | 10 => some .digestLen
  | 11 => some .candLen
  | 12 => some .keyLen
  | 13 => some .counterLo
  | 14 => some .counterHi
  | 15 => some .offset
  | 16 => some .value
  | 17 => some .codeval
  | 18 => some .codeLen
  | 19 => some .winD
  | 20 => some .winI
  | 21 => some .winBaseLo
  | 22 => some .winBaseHi
  | 23 => some .result
  | _ => none

/-- R21: register `i` is at byte address `0x200 + 4*i`. -/
def regAt (a : Nat) : Option Reg :=
  if Config.regBase ≤ a ∧ a % 4 = 0 then regOfNumber ((a - Config.regBase) / 4) else none

/-- The access column of R21. -/
inductive Access where
  /-- Write only: CMD. -/
  | writeOnly
  /-- Read only. -/
  | readOnly
  /-- Read and write at any time. -/
  | readWrite
  /-- Read at any time, write while CFG_OK = 0. -/
  | cfgLocked
  /-- Read at any time, write while WIN_ACTIVE = 0. -/
  | winLocked
  deriving DecidableEq, Repr

/-- R21: how the host may access a register. -/
def Reg.access (r : Reg) : Access :=
  match r with
  | .cmd => .writeOnly
  | .cfgDigits | .cfgPeriod | .cfgAlg => .cfgLocked
  | .timeLo | .timeHi | .textLen | .digestLen => .readWrite
  | .candLen => .winLocked
  | .status | .errcode | .errcmd | .keyLen | .counterLo | .counterHi | .offset | .value | .codeval | .codeLen
  | .winD | .winI | .winBaseLo | .winBaseHi | .result => .readOnly

/-- R71: how the host may access a byte of a region of BUF. -/
def Region.access (r : Region) : Access :=
  match r with
  | .text | .digest => .readWrite
  | .key | .msg | .code => .readOnly
  | .cand => .winLocked
  | .reg | .reserved => .readOnly

/-- The cases of R76, in the order it tests them. -/
inductive BusReject where
  /-- 1: size is not 1 and not 4. -/
  | size
  /-- 2: `addr > 0x3FF`. -/
  | range
  /-- 3: a reserved row of R71. -/
  | reserved
  /-- 4: a word access in BUF, a byte access in REG. -/
  | width
  /-- 5: a misaligned word in REG. -/
  | alignment
  /-- 6: a write to a read-only place. -/
  | readOnly
  /-- 7: a read of CMD. -/
  | cmdRead
  /-- 8: a write to a configuration register while CFG_OK = 1. -/
  | cfgLocked
  /-- 9: a write to CAND_LEN or CAND while WIN_ACTIVE = 1. -/
  | winLocked
  deriving DecidableEq, Repr

/-- Cases 6 to 9 of R76: the access right of the place. -/
def rightReject (s : State) (isWrite : Bool) (acc : Access) : Option BusReject :=
  match acc with
  | .writeOnly => if isWrite then none else some .cmdRead
  | .readOnly => if isWrite then some .readOnly else none
  | .readWrite => none
  | .cfgLocked => if isWrite && s.cfgOk then some .cfgLocked else none
  | .winLocked => if isWrite && s.winActive then some .winLocked else none

/-- R76: the first case that makes a transaction a BusError, none if it is Ok. The state of FAULT does not enter. -/
def busReject (s : State) (isWrite : Bool) (addr size : Nat) : Option BusReject :=
  if size ≠ 1 ∧ size ≠ 4 then some .size
  else if addr > 0x3FF then some .range
  else if regionOf addr = .reserved then some .reserved
  else if (regionOf addr).isBuf then
    if size = 4 then some .width else rightReject s isWrite (regionOf addr).access
  else if size = 1 then some .width
  else
    match regAt addr with
    | none => some .alignment
    | some r => rightReject s isWrite r.access

/-- The value a word read of a register returns, gated where the register is gated (R21, R52, R75). CMD stores nothing
and a read of it is a BusError, so its value here is never returned (R23, R76). -/
def State.readReg (s : State) (r : Reg) : Word :=
  match r with
  | .cmd => 0
  | .status => s.status
  | .errcode => s.errCodeWord
  | .errcmd => s.errCmd
  | .cfgDigits => s.cfgDigits
  | .cfgPeriod => s.cfgPeriod
  | .cfgAlg => s.cfgAlg
  | .timeLo => s.timeLo
  | .timeHi => s.timeHi
  | .textLen => s.textLen
  | .digestLen => s.digestLen
  | .candLen => s.candLen
  | .keyLen => gate s.keyValid s.keyLen
  | .counterLo => gate s.msgValid s.counterLo
  | .counterHi => gate s.msgValid s.counterHi
  | .offset => gate s.valueValid (s.offset.setWidth 32)
  | .value => gate s.valueValid (s.value.setWidth 32)
  | .codeval => gate s.codeValid s.codeVal
  | .codeLen => gate s.codeValid s.codeLen
  | .winD => s.winD
  | .winI => s.winI
  | .winBaseLo => s.winBaseLo
  | .winBaseHi => s.winBaseHi
  | .result => s.result

/-- An accepted word write to a register other than CMD stores all 32 bits; a write to a half of TIME also sets its
TMASK bit (R75, R77, R34). The registers that are never writable keep their value. -/
def State.writeReg (s : State) (r : Reg) (w : Word) : State :=
  match r with
  | .cfgDigits => { s with cfgDigits := w }
  | .cfgPeriod => { s with cfgPeriod := w }
  | .cfgAlg => { s with cfgAlg := w }
  | .timeLo => { s with timeLo := w, tmask := s.tmask ||| 0b01 }
  | .timeHi => { s with timeHi := w, tmask := s.tmask ||| 0b10 }
  | .textLen => { s with textLen := w }
  | .digestLen => { s with digestLen := w }
  | .candLen => { s with candLen := w }
  | .cmd | .status | .errcode | .errcmd | .keyLen | .counterLo | .counterHi | .offset | .value | .codeval
  | .codeLen | .winD | .winI | .winBaseLo | .winBaseHi | .result => s

/-- An accepted byte write stores the byte (R73). -/
def State.writeByte (s : State) (a : Nat) (b : Byte) : State := { s with buf := s.buf.write a b }

/-- The flag that gates host reads of a region (R52, R71). -/
def State.regionFlag (s : State) (r : Region) : Bool :=
  match r with
  | .key => s.keyValid
  | .msg => s.msgValid
  | .code => s.codeValid
  | .text | .digest | .cand | .reg | .reserved => true

/-- A byte read: the stored byte, or 0x00 when the region is gated and its flag is 0 (R73). -/
def State.hostByte (s : State) (a : Nat) : Byte := gateByte (s.regionFlag (regionOf a)) (s.buf.read a)

end Sys2Proof.Machine
end

