-- ==== Sys2Proof/Machine/Port.lean ====
section
/-! DEFINITION. The host port: a command word (R101) and a transaction (R72, R76). -/

namespace Sys2Proof.Machine

/-- R101: what a word written to CMD does. Steps 1 and 2 are R241: while FAULT = 1 only the exact SRESET and CLRERR
words execute and every other word, legal or not, is ignored. -/
def submit (w : Word) (s : State) : Result :=
  if w = 0x00000003 then exec .sreset s
  else if s.fault then
    if w = 0x00000002 then exec .clrerr s else .next s
  else
    match decodeWord w with
    | .error _ => raise .illegalCommand w s
    | .ok i => exec i s

/-- What a read transaction answers (R72, R73, R75, R76). -/
def State.hostRead (s : State) (addr size : Nat) : Reply :=
  match busReject s false addr size with
  | some _ => .busError
  | none =>
    if size = 1 then .byte (s.hostByte addr)
    else
      match regAt addr with
      | some r => .word (s.readReg r)
      | none => .busError

/-- A write transaction. A rejected one changes nothing (R72). An accepted one is answered Ok, also when it is a
command that faults (R230); a write to CMD executes the command and stores nothing (R23, R77). -/
def hostWrite (addr size : Nat) (data : Word) (s : State) : Result :=
  match busReject s true addr size with
  | some _ => .next (s.answer .busError)
  | none =>
    if size = 1 then .next ((s.writeByte addr (data.setWidth 8)).answer .ok)
    else
      match regAt addr with
      | some .cmd => submit data (s.answer .ok)
      | some r => .next ((s.writeReg r data).answer .ok)
      | none => .next (s.answer .busError)

/-- One operation of the host (R7). A read changes nothing but the list of replies (R77). The reset input is no
transaction and is not answered (R260, R261, log 6). -/
def perform (op : HostOp) (s : State) : Result :=
  match op with
  | .read addr size => .next (s.answer (s.hostRead addr size))
  | .write addr size data => hostWrite addr size data s
  | .reset => .next s.resetBlock

/-- The host's next operation, taken from its list and performed. With none the engine waits, keeping all state: it
never acts on its own (R7, R251, R262). -/
def takeOperation (s : State) : Result :=
  match s.pending with
  | [] => .next s
  | op :: _ => perform op s.taken

/-- The host operation that issues the command word `w` (R100: `HostWrite(0x200, 4, w)`). -/
def commandOp (w : Word) : HostOp := .write Config.regBase 4 w

end Sys2Proof.Machine
end

