-- ==== Sys2Proof/Machine/Step.lean ====
section
/-! DEFINITION. One step of the machine. -/

namespace Sys2Proof.Machine

/-- One step: the host's next operation runs to completion (R7, R85). -/
def step (s : State) : Host.Outcome State Fault Refusal := takeOperation s

/-- The host issues the command word `w` next (log 2): the engine fetches nothing (R22), so an instruction stands where
the host's next operation stands. -/
def State.withFetchWord (s : State) (nbits w : Nat) : State :=
  { s with pending := commandOp (BitVec.ofNat 32 (w % 2 ^ nbits)) :: s.pending }

end Sys2Proof.Machine
end

