-- ==== Sys2Proof/Machine/Latency.lean ====
section
/-! DEFINITION. The latency parameter `lat(cmd, state)` and its constraints (R275, R276). No step depends on it: the
model has no time (log 13). -/

namespace Sys2Proof.Machine

/-- The first TEXT_LEN bytes of TEXT, at most all of it. -/
def State.textBytes (s : State) : List Byte :=
  s.buf.readBytes Config.textBase (min s.textLen.toNat Config.textMax)

/-- R275: one constant each for CMP and CMPW. R276: for B32DEC it may depend on TEXT_LEN and the text, for the others on
the configuration and on nothing secret. -/
def latency (i : Instr) (s : State) : Nat :=
  match i with
  | .cmp => Config.latCmp
  | .cmpw => Config.latCmpw
  | .b32dec => Config.latB32dec s.textLen s.textBytes
  | .cfglock | .clrerr | .sreset | .dtrunc | .modred | .slice _ | .vbegin _ | .slicew =>
    Config.latPublic (encode i) s.cfgDigits s.cfgPeriod s.cfgAlg

end Sys2Proof.Machine
end

