-- ==== Sys2Proof/Machine/Reference.lean ====
section
/-! DEFINITION. Reference functions: the Base32 encoder (R160) and the end-to-end operations of R5 with the external
HMAC as a parameter. None is a hardware operation and no step uses them (R4, logs 12 and 19). -/

namespace Sys2Proof.Machine

/-! ## The Base32 encoder (R160) -/

/-- The bits of a byte, most significant first. -/
def byteBits (b : Byte) : List Bool := (List.range 8).map fun j => b.getMsbD j

/-- A bit string as an integer, the first bit most significant. -/
def bitsVal (bits : List Bool) : Nat := bits.foldl (fun v b => 2 * v + b.toNat) 0

/-- Zero bits appended until the length is a multiple of 5, then cut into groups of 5 from the start. -/
def fiveBitGroups (bits : List Bool) : List (List Bool) :=
  match bits with
  | [] => []
  | b0 :: b1 :: b2 :: b3 :: b4 :: rest => [b0, b1, b2, b3, b4] :: fiveBitGroups rest
  | short => [short ++ List.replicate (5 - short.length) false]

/-- The character of the alphabet whose index is `v` (R152). -/
def b32char (v : Nat) : Byte := if v < 26 then BitVec.ofNat 8 (0x41 + v) else BitVec.ofNat 8 (0x32 + (v - 26))

/-- `encode(bytes) -> text`, no `=` appended (R160). -/
def b32Encode (bs : List Byte) : List Byte :=
  (fiveBitGroups (bs.flatMap byteBits)).map fun g => b32char (bitsVal g)

/-! ## The operations of R5 -/

/-- `counterFromTime(time, period, off) = floor(time / period) + off`. -/
def counterFromTime (time : Dword) (period : Word) (off : Int) : Int := (quotient time period : Int) + off

/-- `HMAC(alg, key, msg)`: `dlen alg` bytes (R5). DESIGN CHOICE: R5 gives HMAC only for the three algorithms; for an
algorithm code above 2 the model takes the empty digest (log 12). -/
def hmac (alg : Word) (key msg : List Byte) : List Byte :=
  match dlen alg with
  | none => []
  | some n => (List.range n).map (Config.hmacByte alg key msg)

/-- Steps 3 and 4 of `computeCode`: the code of a digest, exactly `digits` characters (R5). -/
def codeOfDigest (digest : List Byte) (digits : Nat) : List Byte :=
  (List.range digits).map (codeChar digits
    ((truncValue (fun j => digest.getD j 0x00) digest.length).toNat % 10 ^ digits))

/-- `computeCode(keyBytes, counter, alg, digits)` (R5). DESIGN CHOICE: for an algorithm code above 2, where R5 gives no
code, the empty digest of `hmac` makes it `digits` characters '0' (log 12). -/
def computeCode (key : List Byte) (counter : Dword) (alg : Word) (digits : Nat) : List Byte :=
  codeOfDigest (hmac alg key (be64 counter)) digits

/-- `decode(text)`: trailing `=` dropped, then R151; none for InvalidSecret (R5, R153). -/
def decodeSecret (text : List Byte) : Option (List Byte) :=
  let c := fun j => text.getD j 0x00
  b32Decode ((List.range (strippedLen c text.length)).map c)

/-- `getCode(secretText, time)` (R5): none for InvalidSecret, for a counter outside its range (R192), or for an
algorithm code above 2 (log 12). -/
def getCode (text : List Byte) (time : Dword) (period alg : Word) (digits : Nat) : Option (List Byte) :=
  (decodeSecret text).bind fun key =>
    let c := counterFromTime time period 0
    if (dlen alg).isSome && counterInRange c then some (computeCode key (BitVec.ofInt 64 c) alg digits) else none

/-- The offsets `-d .. d`, in that order. -/
def windowOffsets (d : Nat) : List Int := (List.range (2 * d + 1)).map fun j : Nat => (j : Int) - d

/-- `verifyCode(secretText, cand, d, time)` (R5): every offset is evaluated, the results are combined with OR. None for
InvalidSecret, for a counter outside its range (R192), or for an algorithm code above 2 (log 12). -/
def verifyCode (text cand : List Byte) (d : Nat) (time : Dword) (period alg : Word) (digits : Nat) : Option Bool :=
  (decodeSecret text).bind fun key =>
    let counters := (windowOffsets d).map (counterFromTime time period)
    if (dlen alg).isSome && counters.all counterInRange then
      some ((counters.map fun c => computeCode key (BitVec.ofInt 64 c) alg digits == cand).foldl (· || ·) false)
    else none

/-! ## One round of the verification sequence (R200) -/

/-- The host has written a digest to DIGEST and its length to DIGEST_LEN (R112 LDDIG). -/
def State.withDigest (digest : List Byte) (s : State) : State :=
  { s with
    buf := s.buf.writeBytes Config.digestBase digest
    digestLen := BitVec.ofNat 32 digest.length }

/-- R200's round `SLICEW ; EXTHMAC ; DTRUNC ; MODRED ; CMPW`, the host computing the HMAC of the KEY and MSG it reads
(R271). DESIGN CHOICE: a reference function; the digest goes straight to DIGEST and DIGEST_LEN and the commands run by
`exec`'s meanings, past the port and its FAULT gate (logs 17, 19). The round at the port is `verifyRound` of
Machine/Program.lean. -/
def windowRound (s : State) : Result :=
  andThen (execSlicew s) fun s1 =>
  andThen (execDtrunc (s1.withDigest (hmac s1.cfgAlg s1.keyBytes s1.msgBytes))) fun s2 =>
  andThen (execModred s2) fun s3 =>
  execCmpw s3

/-- `n` rounds. -/
def windowRounds (n : Nat) (s : State) : Result :=
  match n with
  | 0 => .next s
  | k + 1 => andThen (windowRound s) (windowRounds k)

end Sys2Proof.Machine
end

