-- ==== Sys2Proof/Machine/Invariant.lean ====
section
/-! DEFINITION. What holds of every state a run reaches (R199 and the rules each part cites), and the counts R199
speaks of. -/

namespace Sys2Proof.Machine

/-- R53, R71: BUF is in canonical form and lists implemented addresses only. -/
def State.bufOk (s : State) : Bool := s.buf.wf && s.buf.all (fun c => (regionOf c.1).isBuf)

/-- R131, R176, R10 (b): a frozen configuration is legal. -/
def State.cfgInv (s : State) : Bool := !s.cfgOk || s.cfgLegal

/-- R25, R26, R240, R242: FAULT goes with a recorded code, and while it is set no window or result stands; while it is
clear ERRCODE and ERRCMD are 0. -/
def State.faultInv (s : State) : Bool :=
  if s.fault then s.errCode.isSome && !s.winActive && !s.resultValid && !s.matchAcc
  else s.errCode.isNone && s.errCmd == 0

/-- R38, R151: a valid key has 1 to 80 bytes and zeros after them. -/
def State.keyInv (s : State) : Bool :=
  !s.keyValid ||
    (decide (1 ≤ s.keyLen.toNat ∧ s.keyLen.toNat ≤ Config.keyMax) &&
      (List.range Config.keyMax).all fun j =>
        decide (j < s.keyLen.toNat) || s.buf.read (Config.keyBase + j) == 0x00)

/-- R39: MSG always holds BE64(COUNTER). -/
def State.msgInv (s : State) : Bool := s.msgBytes == be64 s.counter

/-- R171, R176, R24: a valid value needs a frozen configuration, a valid code needs a valid value and is its
rendering. -/
def State.codeInv (s : State) : Bool :=
  (!s.valueValid || s.cfgOk) &&
    (!s.codeValid ||
      (s.valueValid && s.codeLen == s.cfgDigits &&
        s.codeVal == BitVec.ofNat 32 (s.value.toNat % 10 ^ s.cfgDigits.toNat) &&
        s.buf.readBytes Config.codeBase Config.codeBuf ==
          codeText s.cfgDigits.toNat (s.value.toNat % 10 ^ s.cfgDigits.toNat)))

/-- R199, R45, R47, R51: the window position stays in the window, RESULT reads 0 while it is open, MATCH is set only
under an open window or a final result. -/
def State.windowInv (s : State) : Bool :=
  decide (s.winD.toNat ≤ 32767 ∧ -(s.winD.toNat : Int) ≤ s.winI.toInt ∧ s.winI.toInt ≤ s.winD.toNat) &&
    (!s.winActive || (s.cfgOk && s.timeValid && !s.resultValid)) &&
    (!s.resultValid || s.cfgOk) && (!s.matchAcc || s.winActive || s.resultValid)

/-- The invariant. -/
structure State.Inv (s : State) : Prop where
  buf : s.bufOk = true
  cfg : s.cfgInv = true
  fault : s.faultInv = true
  key : s.keyInv = true
  msg : s.msgInv = true
  code : s.codeInv = true
  window : s.windowInv = true

/-- The next operation executes the command `i`: its word is written to CMD with FAULT = 0 (R24 "Executed", R101). -/
def State.issues (s : State) (i : Instr) : Prop :=
  s.fault = false ∧ ∃ w rest, s.pending = commandOp w :: rest ∧ decodeWord w = .ok i

/-- The next operation is the reset input or the exact word of SRESET (R260, R138, R101 step 1). -/
def State.resets (s : State) : Prop :=
  ∃ rest, s.pending = .reset :: rest ∨ s.pending = commandOp 0x00000003 :: rest

/-- The operation issues the exact word of CMPW. -/
def HostOp.isCmpw (op : HostOp) : Bool := op == commandOp (encode .cmpw)

/-- The operation is the reset input, the exact word of SRESET, or a word of VBEGIN: what can open a window or put the
block back to reset. -/
def HostOp.restarts (op : HostOp) : Bool :=
  match op with
  | .read _ _ => false
  | .write addr size data =>
    addr == Config.regBase && size == 4 && (data == encode .sreset || opField data == Instr.op (.vbegin 0))
  | .reset => true

/-- The comparison results of the CMPW commands among the next `n` operations, oldest first, each as it stands when the
command is issued (R199, R215). -/
def cmpwResults (n : Nat) (s : State) : List Bool :=
  match n with
  | 0 => []
  | k + 1 =>
    let rest :=
      match step s with
      | .next t => cmpwResults k t
      | .fault _ => []
      | .refused _ => []
    if (s.pending.head?.map HostOp.isCmpw).getD false then s.codeEqCand :: rest else rest

end Sys2Proof.Machine
end

