-- ==== Sys2Proof/Machine/Program.lean ====
section
/-! DEFINITION. The host's side of R5: the listing syntax (R111), the pseudo-instructions (R112) and the host programs of
`getCode` and `verifyCode` (R200, programs P1 and P2 of 95_test_vectors.md) as operations on the host port. Each
operation is one step of the machine, behind the access checks and the FAULT gate, and the host knows of the engine only
what the port replies (logs 12 and 21). DESIGN CHOICE: a host that meets a BusError goes on with the rest of its program;
the spec leaves the host's reaction to the platform (R72, R80, U20, logs 14 and 21). No step uses these functions. -/

namespace Sys2Proof.Machine

/-! ## A host at the port -/

/-- R21: the number of a register. -/
def Reg.number (r : Reg) : Nat :=
  match r with
  | .cmd => 0
  | .status => 1
  | .errcode => 2
  | .errcmd => 3
  | .cfgDigits => 4
  | .cfgPeriod => 5
  | .cfgAlg => 6
  | .timeLo => 7
  | .timeHi => 8
  | .textLen => 9
  | .digestLen => 10
  | .candLen => 11
  | .keyLen => 12
  | .counterLo => 13
  | .counterHi => 14
  | .offset => 15
  | .value => 16
  | .codeval => 17
  | .codeLen => 18
  | .winD => 19
  | .winI => 20
  | .winBaseLo => 21
  | .winBaseHi => 22
  | .result => 23

/-- `WR reg, value` (R111). -/
def HostOp.wr (r : Reg) (w : Word) : HostOp := .write (Config.regBase + 4 * r.number) 4 w

/-- `RD reg` (R111). -/
def HostOp.rd (r : Reg) : HostOp := .read (Config.regBase + 4 * r.number) 4

/-- `WB addr, byte` for consecutive bytes from `a` up (R111). -/
def HostOp.wb (a : Nat) (bs : List Byte) : List HostOp :=
  match bs with
  | [] => []
  | b :: rest => .write a 1 (b.setWidth 32) :: HostOp.wb (a + 1) rest

/-- `RB addr` for the `n` bytes from `a` up (R111). -/
def HostOp.rb (a n : Nat) : List HostOp := (List.range n).map fun j => .read (a + j) 1

/-- A line `MNEMONIC` or `MNEMONIC k`: `WR CMD, word` (R111). -/
def HostOp.cmd (i : Instr) : HostOp := commandOp (encode i)

/-- The host puts one operation to the port and the engine performs it: one step. -/
def ask (op : HostOp) (s : State) : Result := step { s with pending := op :: s.pending }

/-- The host puts operations to the port one after another. DESIGN CHOICE: it goes on after a BusError (R72, R80, U20,
log 21). -/
def askAll (ops : List HostOp) (s : State) : Result :=
  match ops with
  | [] => .next s
  | op :: rest => andThen (ask op s) (askAll rest)

/-- What the port has replied since `s`, oldest first. -/
def State.repliesSince (s t : State) : List Reply := t.replies.drop s.replies.length

/-- The byte of a reply to a read of size 1. DESIGN CHOICE: a rejected read, which gives no data (R72), counts as 0x00 (R80,
U20, log 21); so does any other reply that is no byte, which no read of size 1 gets. -/
def Reply.byteOf (r : Reply) : Byte :=
  match r with
  | .byte b => b
  | .ok | .word _ | .busError => 0x00

/-- The word of a reply to a read of size 4. DESIGN CHOICE: a rejected read, which gives no data (R72), counts as 0 (R80,
U20, log 21); so does any other reply that is no word, which no read of size 4 gets. -/
def Reply.wordOf (r : Reply) : Word :=
  match r with
  | .word w => w
  | .ok | .byte _ | .busError => 0

/-- The word the host has just read, 0 where the port has replied nothing yet, which no read leaves. -/
def State.wordRead (s : State) : Word := (s.replies.getLast?.map Reply.wordOf).getD 0

/-! ## The pseudo-instructions (R112) -/

/-- `SETTIME t`. -/
def setTime (t : Dword) : List HostOp := [HostOp.wr .timeLo (loHalf t), HostOp.wr .timeHi (hiHalf t)]

/-- `LDTEXT "s"`, for a text of at most 128 characters. -/
def ldText (text : List Byte) : List HostOp :=
  HostOp.wb Config.textBase text ++ [HostOp.wr .textLen (BitVec.ofNat 32 text.length)]

/-- `LDDIG h`. -/
def ldDig (digest : List Byte) : List HostOp :=
  HostOp.wb Config.digestBase digest ++ [HostOp.wr .digestLen (BitVec.ofNat 32 digest.length)]

/-- `LDCAND "s"`: at most 16 bytes are stored, CAND_LEN is the true length. -/
def ldCand (cand : List Byte) : List HostOp :=
  HostOp.wb Config.candBase (cand.take Config.codeBuf) ++ [HostOp.wr .candLen (BitVec.ofNat 32 cand.length)]

/-- `HOTP`. -/
def hotpOps : List HostOp := [HostOp.cmd .dtrunc, HostOp.cmd .modred]

/-- `EXTHMAC`: read KEY_LEN and the KEY bytes, read MSG, compute the HMAC outside the TTE, LDDIG it. The key and the
message are the bytes the port replied; the algorithm is the host's own (it chose CFG_ALG). -/
def extHmac (alg : Word) (s : State) : Result :=
  andThen (ask (HostOp.rd .keyLen) s) fun s1 =>
  let n := s1.wordRead.toNat
  andThen (askAll (HostOp.rb Config.keyBase n ++ HostOp.rb Config.msgBase Config.msgLen) s1) fun s2 =>
  let bytes := (s1.repliesSince s2).map Reply.byteOf
  askAll (ldDig (hmac alg (bytes.take n) (bytes.drop n))) s2

/-! ## The host programs -/

/-- R272: a STATUS with KEY_VALID = 1 and FAULT = 0. -/
def hmacAllowed (status : Word) : Bool := status.getLsbD 2 && !status.getLsbD 8

/-- `EXTHMAC` in a program: the host looks at STATUS first and starts no HMAC without a key or after a fault (R272, R273,
log 21). -/
def guardedHmac (alg : Word) (s : State) : Result :=
  andThen (ask (HostOp.rd .status) s) fun s1 => if hmacAllowed s1.wordRead then extHmac alg s1 else .next s1

/-- `SLICEW ; EXTHMAC ; DTRUNC ; MODRED ; CMPW` (R200, R274). -/
def verifyRound (alg : Word) (s : State) : Result :=
  andThen (ask (HostOp.cmd .slicew) s) fun s1 =>
  andThen (guardedHmac alg s1) fun s2 =>
  askAll (hotpOps ++ [HostOp.cmd .cmpw]) s2

/-- `repeat n times`. -/
def verifyRepeat (alg : Word) (n : Nat) (s : State) : Result :=
  match n with
  | 0 => .next s
  | k + 1 => andThen (verifyRound alg s) (verifyRepeat alg k)

/-- `verifyCode` as the host program of R200, from LDTEXT to RD RESULT, whose reply is the verdict: 3 = true, 2 = false
(R47). The configuration is frozen and `alg` is its algorithm. -/
def verifyProgram (alg : Word) (text cand : List Byte) (d : Nat) (time : Dword) (s : State) : Result :=
  let load := ldText text ++ [HostOp.cmd .b32dec] ++ ldCand cand ++ setTime time ++ [HostOp.cmd (.vbegin d)]
  andThen (askAll load s) fun s1 =>
  andThen (verifyRepeat alg (2 * d + 1) s1) fun s2 =>
  ask (HostOp.rd .result) s2

/-- Program P2 of 95_test_vectors.md: CFGLOCK, then R200's program. -/
def programP2 (alg : Word) (text cand : List Byte) (d : Nat) (time : Dword) (s : State) : Result :=
  andThen (ask (HostOp.cmd .cfglock) s) (verifyProgram alg text cand d time)

/-- `getCode` as a host program, the lines of program P1 that act on the engine with the configuration frozen
beforehand: LDTEXT, B32DEC, SETTIME, SLICE 0, EXTHMAC, HOTP, and the `digits` bytes of CODE read back. -/
def getCodeProgram (alg : Word) (digits : Nat) (text : List Byte) (time : Dword) (s : State) : Result :=
  let load := ldText text ++ [HostOp.cmd .b32dec] ++ setTime time ++ [HostOp.cmd (.slice 0)]
  andThen (askAll load s) fun s1 =>
  andThen (guardedHmac alg s1) fun s2 =>
  askAll (hotpOps ++ HostOp.rb Config.codeBase digits) s2

end Sys2Proof.Machine
end

