-- ==== Sys2Proof/Safety.lean ====
section
/-! DEFINITION. The conditions on a state that claims name (R13). -/

namespace Sys2Proof.Machine

/-- R13 *Clean*: STATUS.FAULT = 0. -/
abbrev State.Clean (s : State) : Prop := s.fault = false

/-- R13 *Code ready*: clean and STATUS.CODE_VALID = 1. -/
abbrev State.CodeReady (s : State) : Prop := s.Clean ∧ s.codeValid = true

/-- R13 *Verdict ready*: clean and STATUS.RESULT_VALID = 1. -/
abbrev State.VerdictReady (s : State) : Prop := s.Clean ∧ s.resultValid = true

/-- A run of `n` steps in which no state before the last shows a final result: the verdict is not out yet (R199,
R216 (c)). -/
def NoVerdictBefore (n : Nat) (s : State) : Prop :=
  match n with
  | 0 => True
  | k + 1 => s.resultValid = false ∧ ∀ t, step s = .next t → NoVerdictBefore k t

/-- No digest has been written between two states. -/
def DigestUntouched (s t : State) : Prop :=
  t.digestLen = s.digestLen ∧ ∀ a, 0x100 ≤ a → a ≤ 0x13F → t.buf.read a = s.buf.read a

/-- What a host program started in `s` and ended in `t` owes its caller for `verifyCode` of R5 under the configuration of
`s`: the last reply is 3 for true and 2 for false (R47, R200); where `verifyCode` has no value the engine has faulted and
the last reply is 0 (R273): InvalidSecret before any HMAC (R200, R272), or CounterRange (R192). -/
def VerifyAnswered (text cand : List Byte) (d : Nat) (time : Dword) (s t : State) : Prop :=
  match verifyCode text cand d time s.cfgPeriod s.cfgAlg s.cfgDigits.toNat with
  | some b => t.fault = false ∧ t.replies.getLast? = some (.word (if b then 3 else 2))
  | none =>
    t.fault = true ∧ t.replies.getLast? = some (.word 0) ∧
      (decodeSecret text = none → t.errCode = some .invalidSecret ∧ DigestUntouched s t) ∧
      (decodeSecret text ≠ none → t.errCode = some .counterRange)

/-- The same for `getCode` of R5: the last replies are the characters of the code; where `getCode` has no value the
engine has faulted with InvalidSecret before any HMAC (R5, R272). -/
def CodeAnswered (text : List Byte) (time : Dword) (s t : State) : Prop :=
  match getCode text time s.cfgPeriod s.cfgAlg s.cfgDigits.toNat with
  | some code => t.fault = false ∧ ∃ before, t.replies = before ++ code.map .byte
  | none => t.fault = true ∧ t.errCode = some .invalidSecret ∧ DigestUntouched s t

end Sys2Proof.Machine
end

