-- ==== Sys2Proof/Certificates/Slice0/Obligations.lean ====
section
/-! DEFINITION. The statements for the provers. Each docstring names the rule of spec/ it formalises. -/

section
open Sys2Proof Sys2Proof.Machine

/-! ## Reset -/

/-- R60: every element after reset. -/
def Obligations.ResetValues : Prop :=
  State.reset.status = 0 ∧ State.reset.errCodeWord = 0 ∧ State.reset.errCmd = 0 ∧
    State.reset.cfgDigits = 6 ∧ State.reset.cfgPeriod = 30 ∧ State.reset.cfgAlg = 0 ∧
    State.reset.timeLo = 0 ∧ State.reset.timeHi = 0 ∧ State.reset.tmask = 0b00 ∧
    State.reset.textLen = 0 ∧ State.reset.digestLen = 0 ∧ State.reset.candLen = 0 ∧
    State.reset.keyLen = 0 ∧ State.reset.counterLo = 0 ∧ State.reset.counterHi = 0 ∧
    State.reset.offset = 0 ∧ State.reset.value = 0 ∧ State.reset.codeVal = 0 ∧ State.reset.codeLen = 0 ∧
    State.reset.winD = 0 ∧ State.reset.winI = 0 ∧ State.reset.winBaseLo = 0 ∧ State.reset.winBaseHi = 0 ∧
    State.reset.matchAcc = false ∧ State.reset.result = 0 ∧
    ∀ a, State.reset.buf.read a = 0x00

/-- SRESET (R138) and the reset input (R260): in every state, FAULT = 1 included, every element of the block takes its
reset value. That the host's own list of operations and of replies are not reset is the model's choice (log 10). -/
def Obligations.ResetRestoresEveryElement : Prop :=
  (∀ s : State, exec .sreset s = .next { State.reset with pending := s.pending, replies := s.replies }) ∧
    (∀ (s : State) (rest : List HostOp), s.pending = commandOp 0x00000003 :: rest →
      step s = .next { State.reset with pending := rest, replies := s.replies ++ [.ok] }) ∧
    (∀ (s : State) (rest : List HostOp), s.pending = .reset :: rest →
      step s = .next { State.reset with pending := rest, replies := s.replies }) ∧
    ∀ w : Word, decodeWord w = .ok .sreset → w = 0x00000003

/-! ## Encoding -/

/-- Decode and encode agree on every command, at every value of the immediate (R102 to R105). -/
def Obligations.DecodeOfEncode : Prop :=
  ∀ i : Instr, i.WellFormed → decodeWord (encode i) = .ok i

/-- Every word that decodes is the encoding of a well-formed command: no two words mean one command. -/
def Obligations.EncodeOfDecode : Prop :=
  ∀ (w : Word) (i : Instr), decodeWord w = .ok i → i.WellFormed ∧ encode i = w

/-- R106: a word issued with FAULT = 0 raises IllegalCommand exactly when it is not one of the listed words. -/
def Obligations.IllegalWordsAreExactlyTheUnlisted : Prop :=
  ∀ (s : State) (w : Word) (rest : List HostOp), s.pending = commandOp w :: rest → s.fault = false →
    ((∃ t, step s = .next t ∧ t.fault = true ∧ t.errCode = some .illegalCommand) ↔
      ¬(w ∈ [0x00000001, 0x00000002, 0x00000003, 0x00000010, 0x00000020, 0x00000021, 0x00000032, 0x00000040,
            0x00000041] ∨
          ∃ iiii : BitVec 16, w = 0x00#8 ++ iiii ++ 0x30#8 ∨ w = 0x00#8 ++ iiii ++ 0x31#8))

/-- R113: the encoding examples. -/
def Obligations.EncodingExamples : Prop :=
  decodeWord 0x00000001 = .ok .cfglock ∧ decodeWord 0x00000030 = .ok (.slice 0) ∧
    decodeWord 0x00FFFF30 = .ok (.slice (-1)) ∧ decodeWord 0x00000230 = .ok (.slice 2) ∧
    decodeWord 0x00000131 = .ok (.vbegin 1) ∧ decodeWord 0x00000031 = .ok (.vbegin 0) ∧
    decodeWord 0x00FFFF31 = .ok (.vbegin (-1)) ∧ decodeWord 0x00000041 = .ok .cmpw ∧
    decodeWord 0x01000001 = .error .reservedBits ∧ decodeWord 0x00000110 = .error .nonzeroImmediate ∧
    ∀ s : State, s.cfgOk = true → s.timeValid = true →
      ∃ t, exec (.vbegin (-1)) s = .next t ∧ t.fault = true ∧ t.errCode = some .invalidWindow

/-! ## The command port -/

/-- A step runs the decoded instruction: the next operation writes a word that decodes to `i` to CMD with FAULT = 0; the
step is exec of `i`, in the state whose operation has been taken and answered Ok (R101 step 5, R230). The second part
says it of `withFetchWord`. The list of operations and of replies is the model's (log 1). -/
def Obligations.StepRunsTheDecodedCommand : Prop :=
  (∀ (s : State) (w : Word) (i : Instr) (rest : List HostOp),
    s.pending = commandOp w :: rest → s.fault = false → decodeWord w = .ok i →
    step s = exec i { s with pending := rest, replies := s.replies ++ [.ok] }) ∧
    ∀ (s : State) (n : Nat) (i : Instr), s.fault = false → decodeTableWord 32 n = some i →
      step (s.withFetchWord 32 n) = exec i { s with replies := s.replies ++ [.ok] }

/-- R235: a word that is no command, issued with FAULT = 0, raises IllegalCommand and changes nothing else but what
fault entry changes. -/
def Obligations.IllegalWordTakesItsFault : Prop :=
  ∀ (s : State) (w : Word) (e : DecodeError) (rest : List HostOp),
    s.pending = commandOp w :: rest → s.fault = false → decodeWord w = .error e →
    step s = .next
      { s with
        pending := rest, replies := s.replies ++ [.ok]
        fault := true, errCode := some .illegalCommand, errCmd := w
        winActive := false, matchAcc := false, resultValid := false }

/-- R241: while FAULT = 1 the exact words of SRESET and CLRERR execute, every other word is accepted and ignored, and
the rejection of transactions does not look at FAULT. -/
def Obligations.FaultedEngineIgnoresWords : Prop :=
  (∀ (s : State) (w : Word) (rest : List HostOp), s.pending = commandOp w :: rest → s.fault = true →
    (w = 0x00000003 → step s = exec .sreset { s with pending := rest, replies := s.replies ++ [.ok] }) ∧
    (w = 0x00000002 → step s = exec .clrerr { s with pending := rest, replies := s.replies ++ [.ok] }) ∧
    (w ≠ 0x00000003 → w ≠ 0x00000002 →
      step s = .next { s with pending := rest, replies := s.replies ++ [.ok] })) ∧
    ∀ (s : State) (b wr : Bool) (addr size : Nat),
      busReject { s with fault := b } wr addr size = busReject s wr addr size

/-- R25, R241: ERRCODE and ERRCMD keep the first fault: whatever operation comes, while FAULT stays 1 they do not
change. -/
def Obligations.FirstFaultIsKept : Prop :=
  ∀ s t : State, s.fault = true → step s = .next t → t.fault = true →
    t.errCode = s.errCode ∧ t.errCmd = s.errCmd

/-- R240: every step that sets FAULT is a command word; it records the word and a code, drops the window and any result,
leaves 0 the destination flags of the command (B32DEC: KEY_VALID; SLICE and SLICEW: MSG_VALID; DTRUNC: VALUE_VALID and
CODE_VALID; MODRED: CODE_VALID) and writes no other register and no buffer byte. -/
def Obligations.FaultEntryWritesOnlyWhatItNames : Prop :=
  ∀ s t : State, step s = .next t → s.fault = false → t.fault = true →
    ∃ (w : Word) (k : FaultKind) (rest : List HostOp), s.pending = commandOp w :: rest ∧
      t = { s with
            pending := rest, replies := s.replies ++ [.ok]
            fault := true, errCode := some k, errCmd := w
            winActive := false, matchAcc := false, resultValid := false
            keyValid := t.keyValid, msgValid := t.msgValid, valueValid := t.valueValid, codeValid := t.codeValid } ∧
      (t.keyValid = true ↔ s.keyValid = true ∧ decodeWord w ≠ .ok .b32dec) ∧
      (t.msgValid = true ↔
        s.msgValid = true ∧ decodeWord w ≠ .ok .slicew ∧ ∀ k, decodeWord w ≠ .ok (.slice k)) ∧
      (t.valueValid = true ↔ s.valueValid = true ∧ decodeWord w ≠ .ok .dtrunc) ∧
      (t.codeValid = true ↔
        s.codeValid = true ∧ decodeWord w ≠ .ok .dtrunc ∧ decodeWord w ≠ .ok .modred)

/-- R231: which command raises which fault, what is recorded, and the codes. -/
def Obligations.FaultsRaisedByEachCommand : Prop :=
  (∀ (i : Instr) (s t : State), exec i s = .next t → s.fault = false → t.fault = true →
    t.errCmd = encode i ∧
      ∃ k, t.errCode = some k ∧
        k ∈ (match i with
          | .cfglock => [FaultKind.sequence, .invalidConfiguration]
          | .clrerr => []
          | .sreset => []
          | .b32dec => [.length, .invalidSecret]
          | .dtrunc => [.sequence, .length]
          | .modred => [.sequence]
          | .slice _ => [.sequence, .counterRange]
          | .vbegin _ => [.sequence, .invalidWindow]
          | .slicew => [.sequence, .counterRange]
          | .cmp => [.sequence]
          | .cmpw => [.sequence])) ∧
    FaultKind.invalidConfiguration.code = 1 ∧ FaultKind.invalidSecret.code = 2 ∧
    FaultKind.illegalCommand.code = 4 ∧ FaultKind.sequence.code = 5 ∧ FaultKind.length.code = 6 ∧
    FaultKind.counterRange.code = 7 ∧ FaultKind.invalidWindow.code = 8 ∧
    ∀ s : State, s.errCodeWord = (match s.errCode with | none => 0 | some k => k.code.setWidth 32)

/-- R236: when each command faults with Sequence. -/
def Obligations.SequenceFaultsExactly : Prop :=
  ∀ (i : Instr) (s : State), s.fault = false →
    ((∃ t, exec i s = .next t ∧ t.fault = true ∧ t.errCode = some .sequence) ↔
      (match i with
        | .cfglock => s.cfgOk = true
        | .slice _ => s.cfgOk = false ∨ s.timeValid = false
        | .vbegin _ => s.cfgOk = false ∨ s.timeValid = false
        | .slicew => s.winActive = false
        | .dtrunc => s.cfgOk = false
        | .modred => s.cfgOk = false ∨ s.valueValid = false
        | .cmp => s.cfgOk = false ∨ s.codeValid = false ∨ s.winActive = true
        | .cmpw => s.winActive = false ∨ s.codeValid = false
        | .b32dec => False
        | .clrerr => False
        | .sreset => False))

/-- R276, R13: every step answers a next state: no operation stops the engine. -/
def Obligations.EveryStepAnswersNext : Prop :=
  ∀ s : State, ∃ t, step s = .next t

/-- R7, R251: with no operation of the host the engine does nothing. That a step then answers the same state is the
model's choice (log 1). -/
def Obligations.IdleEngineKeepsAllState : Prop :=
  ∀ s : State, s.pending = [] → step s = .next s

/-! ## The host port -/

/-- R76: when a transaction is a BusError, complete; otherwise it is answered Ok. -/
def Obligations.BusErrorsAreExactlyTheListed : Prop :=
  (∀ (s : State) (addr size : Nat) (rest : List HostOp), s.pending = .read addr size :: rest →
    ∃ t r, step s = .next t ∧ t.replies = s.replies ++ [r] ∧
      (r = .busError ↔
        (size ≠ 1 ∧ size ≠ 4) ∨ addr > 0x3FF ∨
        ((0x0D0 ≤ addr ∧ addr ≤ 0x0FF) ∨ (0x148 ≤ addr ∧ addr ≤ 0x14F) ∨ (0x170 ≤ addr ∧ addr ≤ 0x1FF) ∨
          (0x260 ≤ addr ∧ addr ≤ 0x3FF)) ∨
        ((addr ≤ 0x1FF ∧ size = 4) ∨ (0x200 ≤ addr ∧ addr ≤ 0x25F ∧ size = 1)) ∨
        (0x200 ≤ addr ∧ addr ≤ 0x25F ∧ addr % 4 ≠ 0) ∨
        addr = 0x200)) ∧
    ∀ (s : State) (addr size : Nat) (data : Word) (rest : List HostOp), s.pending = .write addr size data :: rest →
      ∃ t r, step s = .next t ∧ t.replies = s.replies ++ [r] ∧
        (r = .busError ↔
          (size ≠ 1 ∧ size ≠ 4) ∨ addr > 0x3FF ∨
          ((0x0D0 ≤ addr ∧ addr ≤ 0x0FF) ∨ (0x148 ≤ addr ∧ addr ≤ 0x14F) ∨ (0x170 ≤ addr ∧ addr ≤ 0x1FF) ∨
            (0x260 ≤ addr ∧ addr ≤ 0x3FF)) ∨
          ((addr ≤ 0x1FF ∧ size = 4) ∨ (0x200 ≤ addr ∧ addr ≤ 0x25F ∧ size = 1)) ∨
          (0x200 ≤ addr ∧ addr ≤ 0x25F ∧ addr % 4 ≠ 0) ∨
          ((0x080 ≤ addr ∧ addr ≤ 0x0CF) ∨ (0x140 ≤ addr ∧ addr ≤ 0x147) ∨ (0x150 ≤ addr ∧ addr ≤ 0x15F) ∨
            addr ∈ [0x204, 0x208, 0x20C] ∨ (0x230 ≤ addr ∧ addr ≤ 0x25F)) ∨
          (s.cfgOk = true ∧ addr ∈ [0x210, 0x214, 0x218]) ∨
          (s.winActive = true ∧ (addr = 0x22C ∨ (0x160 ≤ addr ∧ addr ≤ 0x16F))))

/-- R72: a BusError changes no state of the TTE. -/
def Obligations.BusErrorChangesNothing : Prop :=
  ∀ (s t : State) (op : HostOp) (rest : List HostOp), s.pending = op :: rest → op ≠ .reset →
    step s = .next t → t.replies = s.replies ++ [.busError] →
    t = { s with pending := rest, replies := s.replies ++ [.busError] }

/-- R77: no read has a side effect. -/
def Obligations.ReadsHaveNoSideEffect : Prop :=
  ∀ (s : State) (addr size : Nat) (rest : List HostOp), s.pending = .read addr size :: rest →
    ∃ r, step s = .next { s with pending := rest, replies := s.replies ++ [r] }

/-- R75, R77, R34: an accepted word write to a register other than CMD stores all 32 bits and does nothing else, but that
a write to a half of TIME also sets its TMASK bit. -/
def Obligations.RegisterWritesStoreTheWord : Prop :=
  ∀ (s : State) (addr : Nat) (w : Word) (rest : List HostOp), s.pending = .write addr 4 w :: rest →
    (addr = 0x210 → s.cfgOk = false →
      step s = .next { s with pending := rest, replies := s.replies ++ [.ok], cfgDigits := w }) ∧
    (addr = 0x214 → s.cfgOk = false →
      step s = .next { s with pending := rest, replies := s.replies ++ [.ok], cfgPeriod := w }) ∧
    (addr = 0x218 → s.cfgOk = false →
      step s = .next { s with pending := rest, replies := s.replies ++ [.ok], cfgAlg := w }) ∧
    (addr = 0x21C →
      step s = .next { s with
        pending := rest, replies := s.replies ++ [.ok], timeLo := w, tmask := s.tmask ||| 0b01 }) ∧
    (addr = 0x220 →
      step s = .next { s with
        pending := rest, replies := s.replies ++ [.ok], timeHi := w, tmask := s.tmask ||| 0b10 }) ∧
    (addr = 0x224 →
      step s = .next { s with pending := rest, replies := s.replies ++ [.ok], textLen := w }) ∧
    (addr = 0x228 →
      step s = .next { s with pending := rest, replies := s.replies ++ [.ok], digestLen := w }) ∧
    (addr = 0x22C → s.winActive = false →
      step s = .next { s with pending := rest, replies := s.replies ++ [.ok], candLen := w })

/-- R73: an accepted byte write stores the byte, in TEXT, in DIGEST, and in CAND outside a window; every other address
reads as before. -/
def Obligations.BufferWritesStoreTheByte : Prop :=
  ∀ (s : State) (addr : Nat) (data : Word) (rest : List HostOp), s.pending = .write addr 1 data :: rest →
    (addr ≤ 0x07F ∨ (0x100 ≤ addr ∧ addr ≤ 0x13F) ∨ (0x160 ≤ addr ∧ addr ≤ 0x16F ∧ s.winActive = false)) →
    ∃ t, step s = .next t ∧
      t = { s with pending := rest, replies := s.replies ++ [.ok], buf := t.buf } ∧
      t.buf.read addr = data.setWidth 8 ∧ ∀ a, a ≠ addr → t.buf.read a = s.buf.read a

/-- R52: a host read of a gated output returns the stored value if its flag is 1 and 0 if it is 0; TEXT, DIGEST and CAND
are not gated. -/
def Obligations.GatedOutputsRead : Prop :=
  ∀ (s : State) (a : Nat),
    (a ≤ 0x07F → s.hostRead a 1 = .byte (s.buf.read a)) ∧
    (0x080 ≤ a → a ≤ 0x0CF → s.hostRead a 1 = .byte (if s.keyValid then s.buf.read a else 0x00)) ∧
    (0x100 ≤ a → a ≤ 0x13F → s.hostRead a 1 = .byte (s.buf.read a)) ∧
    (0x140 ≤ a → a ≤ 0x147 → s.hostRead a 1 = .byte (if s.msgValid then s.buf.read a else 0x00)) ∧
    (0x150 ≤ a → a ≤ 0x15F → s.hostRead a 1 = .byte (if s.codeValid then s.buf.read a else 0x00)) ∧
    (0x160 ≤ a → a ≤ 0x16F → s.hostRead a 1 = .byte (s.buf.read a)) ∧
    s.hostRead 0x230 4 = .word (if s.keyValid then s.keyLen else 0) ∧
    s.hostRead 0x234 4 = .word (if s.msgValid then s.counterLo else 0) ∧
    s.hostRead 0x238 4 = .word (if s.msgValid then s.counterHi else 0) ∧
    s.hostRead 0x23C 4 = .word (if s.valueValid then s.offset.setWidth 32 else 0) ∧
    s.hostRead 0x240 4 = .word (if s.valueValid then s.value.setWidth 32 else 0) ∧
    s.hostRead 0x244 4 = .word (if s.codeValid then s.codeVal else 0) ∧
    s.hostRead 0x248 4 = .word (if s.codeValid then s.codeLen else 0)

/-- R21: the registers that are not gated, at their addresses. -/
def Obligations.UngatedRegistersRead : Prop :=
  ∀ s : State,
    s.hostRead 0x208 4 = .word s.errCodeWord ∧ s.hostRead 0x20C 4 = .word s.errCmd ∧
    s.hostRead 0x210 4 = .word s.cfgDigits ∧ s.hostRead 0x214 4 = .word s.cfgPeriod ∧
    s.hostRead 0x218 4 = .word s.cfgAlg ∧ s.hostRead 0x21C 4 = .word s.timeLo ∧
    s.hostRead 0x220 4 = .word s.timeHi ∧ s.hostRead 0x224 4 = .word s.textLen ∧
    s.hostRead 0x228 4 = .word s.digestLen ∧ s.hostRead 0x22C 4 = .word s.candLen ∧
    s.hostRead 0x24C 4 = .word s.winD ∧ s.hostRead 0x250 4 = .word s.winI ∧
    s.hostRead 0x254 4 = .word s.winBaseLo ∧ s.hostRead 0x258 4 = .word s.winBaseHi

/-- R24: the bits of STATUS, and TIME_VALID as a view of TMASK (R34). -/
def Obligations.StatusBits : Prop :=
  ∀ s : State, ∃ w, s.hostRead 0x204 4 = .word w ∧
    w.getLsbD 0 = s.cfgOk ∧ w.getLsbD 1 = (s.tmask == 0b11) ∧ w.getLsbD 2 = s.keyValid ∧
    w.getLsbD 3 = s.msgValid ∧ w.getLsbD 4 = s.valueValid ∧ w.getLsbD 5 = s.codeValid ∧
    w.getLsbD 6 = s.winActive ∧ w.getLsbD 7 = s.resultValid ∧ w.getLsbD 8 = s.fault ∧
    ∀ n, 9 ≤ n → w.getLsbD n = false

/-- R47: RESULT reads 0, 2 or 3, never 1; MATCH shows only when final; it reads 0 after reset. -/
def Obligations.ResultRegister : Prop :=
  (∀ s : State, ∃ w, s.hostRead 0x25C 4 = .word w ∧
    (s.resultValid = false → w = 0) ∧ (s.resultValid = true → s.matchAcc = false → w = 2) ∧
    (s.resultValid = true → s.matchAcc = true → w = 3) ∧ w ≠ 1) ∧
    State.reset.hostRead 0x25C 4 = .word 0

/-! ## Whole-machine rules about flags and locks -/

/-- R24, the column "set by": the only operations that set each STATUS flag. -/
def Obligations.FlagsAreSetOnlyAsListed : Prop :=
  ∀ s t : State, step s = .next t →
    (s.cfgOk = false → t.cfgOk = true → s.issues .cfglock) ∧
    (s.timeValid = false → t.timeValid = true →
      ∃ d rest, s.pending = .write 0x21C 4 d :: rest ∨ s.pending = .write 0x220 4 d :: rest) ∧
    (s.keyValid = false → t.keyValid = true → s.issues .b32dec) ∧
    (s.msgValid = false → t.msgValid = true → s.issues .slicew ∨ ∃ k, s.issues (.slice k)) ∧
    (s.valueValid = false → t.valueValid = true → s.issues .dtrunc) ∧
    (s.codeValid = false → t.codeValid = true → s.issues .modred) ∧
    (s.winActive = false → t.winActive = true → ∃ d, s.issues (.vbegin d)) ∧
    (s.resultValid = false → t.resultValid = true →
      s.issues .cmp ∨ (s.issues .cmpw ∧ s.winActive = true ∧ s.winI = s.winD)) ∧
    (s.fault = false → t.fault = true → ∃ w rest, s.pending = commandOp w :: rest)

/-- R24, the column "cleared by": the only operations that clear each STATUS flag. -/
def Obligations.FlagsAreClearedOnlyAsListed : Prop :=
  ∀ s t : State, step s = .next t →
    (s.cfgOk = true → t.cfgOk = false → s.resets) ∧
    (s.timeValid = true → t.timeValid = false → s.resets) ∧
    (s.keyValid = true → t.keyValid = false → s.resets ∨ (s.issues .b32dec ∧ t.fault = true)) ∧
    (s.msgValid = true → t.msgValid = false →
      s.resets ∨ ((s.issues .slicew ∨ ∃ k, s.issues (.slice k)) ∧ t.fault = true)) ∧
    (s.valueValid = true → t.valueValid = false →
      s.resets ∨ (s.issues .dtrunc ∧ t.fault = true) ∨ (s.issues .cmpw ∧ t.fault = false)) ∧
    (s.codeValid = true → t.codeValid = false →
      s.resets ∨ s.issues .dtrunc ∨ (s.issues .modred ∧ t.fault = true) ∨ (s.issues .cmpw ∧ t.fault = false)) ∧
    (s.winActive = true → t.winActive = false →
      s.resets ∨ (s.issues .cmpw ∧ s.winI = s.winD) ∨ (s.fault = false ∧ t.fault = true)) ∧
    (s.resultValid = true → t.resultValid = false →
      s.resets ∨ (∃ d, s.issues (.vbegin d)) ∨ (s.fault = false ∧ t.fault = true)) ∧
    (s.fault = true → t.fault = false → s.resets ∨ ∃ rest, s.pending = commandOp 0x00000002 :: rest)

/-- R31 to R33, R130: while CFG_OK = 1 nothing but a reset changes the configuration. -/
def Obligations.FrozenConfigurationStays : Prop :=
  ∀ s t : State, s.cfgOk = true → step s = .next t → ¬s.resets →
    t.cfgOk = true ∧ t.cfgDigits = s.cfgDigits ∧ t.cfgPeriod = s.cfgPeriod ∧ t.cfgAlg = s.cfgAlg

/-- R37, R195: while a window is open nothing but a reset changes the candidate. -/
def Obligations.CandidateStaysInWindow : Prop :=
  ∀ s t : State, s.winActive = true → step s = .next t → ¬s.resets →
    t.candLen = s.candLen ∧ ∀ a, 0x160 ≤ a → a ≤ 0x16F → t.buf.read a = s.buf.read a

/-- R34: nothing but a reset clears a bit of TMASK. -/
def Obligations.TmaskOnlyGrows : Prop :=
  ∀ s t : State, step s = .next t → ¬s.resets → t.tmask &&& s.tmask = s.tmask

/-! ## Control commands -/

/-- R131: CFGLOCK faults with Sequence if already locked, faults with InvalidConfiguration on an illegal configuration,
and otherwise sets CFG_OK and nothing else. -/
def Obligations.CfglockValidatesAndFreezes : Prop :=
  ∀ s : State,
    (s.cfgOk = true → exec .cfglock s = .next (s.faulted .sequence 0x00000001)) ∧
    (s.cfgOk = false →
      (s.cfgDigits = 0 ∨ s.cfgDigits.toNat > 10 ∨ s.cfgPeriod = 0 ∨ s.cfgAlg.toNat > 2) →
      exec .cfglock s = .next (s.faulted .invalidConfiguration 0x00000001)) ∧
    (s.cfgOk = false → 1 ≤ s.cfgDigits.toNat → s.cfgDigits.toNat ≤ 10 → 1 ≤ s.cfgPeriod.toNat → s.cfgAlg.toNat ≤ 2 →
      exec .cfglock s = .next { s with cfgOk := true })

/-- R135: CLRERR clears FAULT, ERRCODE and ERRCMD and nothing else; with FAULT = 0 it changes nothing; only the exact
word is CLRERR. The premise of the second part is the invariant (StepKeepsTheInvariant). -/
def Obligations.ClrerrClearsTheRecordedFault : Prop :=
  (∀ s : State, exec .clrerr s = .next { s with fault := false, errCode := none, errCmd := 0 }) ∧
    (∀ s : State, s.Inv → s.fault = false → exec .clrerr s = .next s) ∧
    (∀ (s : State) (rest : List HostOp), s.pending = commandOp 0x00000102 :: rest →
      (s.fault = true → step s = .next { s with pending := rest, replies := s.replies ++ [.ok] }) ∧
      (s.fault = false → ∃ t, step s = .next t ∧ t.fault = true ∧ t.errCode = some .illegalCommand)) ∧
    ∀ w : Word, decodeWord w = .ok .clrerr → w = 0x00000002

/-! ## Base32 -/

/-- R151 to R154: a text of at most 128 bytes that, once its trailing `=` are dropped, has `m ≥ 2` characters of the
alphabet with the values `v 0 .. v (m-1)`, decodes to `floor(5m/8)` bytes: byte `j` is bits `8j` to `8j+7` of the
concatenated 5-bit values, each most significant bit first. KEY holds them and zeros after them; nothing but KEY,
KEY_LEN and KEY_VALID changes. -/
def Obligations.B32decPacksFiveBitValues : Prop :=
  ∀ (s : State) (m : Nat) (v : Nat → Nat),
    s.textLen.toNat ≤ 128 → m ≤ s.textLen.toNat → 2 ≤ m →
    (∀ j, m ≤ j → j < s.textLen.toNat → s.buf.read j = 0x3D) →
    (∀ j, j < m → v j < 32 ∧ s.buf.read j = b32char (v j)) →
    ∃ t, exec .b32dec s = .next t ∧
      t = { s with keyLen := BitVec.ofNat 32 (5 * m / 8), keyValid := true, buf := t.buf } ∧
      (∀ j b, j < 5 * m / 8 → b < 8 →
        (t.buf.read (0x080 + j)).getMsbD b = (v ((8 * j + b) / 5)).testBit (4 - (8 * j + b) % 5)) ∧
      (∀ j, 5 * m / 8 ≤ j → j < 80 → t.buf.read (0x080 + j) = 0x00) ∧
      ∀ a, a < 0x080 ∨ 0x0D0 ≤ a → t.buf.read a = s.buf.read a

/-- R151, R155, R156: B32DEC faults with Length if TEXT_LEN exceeds 128, and with InvalidSecret if one of the `m`
characters left after the trailing `=` is outside the alphabet or if fewer than two are left; KEY_VALID is then 0. -/
def Obligations.B32decFaults : Prop :=
  ∀ s : State,
    (128 < s.textLen.toNat →
      exec .b32dec s = .next (State.faulted .length 0x00000010 { s with keyValid := false })) ∧
    ∀ m : Nat, s.textLen.toNat ≤ 128 → m ≤ s.textLen.toNat →
      (∀ j, m ≤ j → j < s.textLen.toNat → s.buf.read j = 0x3D) →
      (m = 0 ∨ s.buf.read (m - 1) ≠ 0x3D) →
      (m < 2 ∨ ∃ j, j < m ∧ ∀ v, v < 32 → s.buf.read j ≠ b32char v) →
      exec .b32dec s = .next (State.faulted .invalidSecret 0x00000010 { s with keyValid := false })

/-- R161: the round-trip law, `decode(encode(b)) == b` for 1 to 80 bytes. -/
def Obligations.Base32RoundTrip : Prop :=
  ∀ (s : State) (b : List Byte), 1 ≤ b.length → b.length ≤ 80 →
    (b32Encode b).length = (8 * b.length + 4) / 5 ∧ (b32Encode b).length ≤ 128 ∧
    (s.fault = false → s.textLen = BitVec.ofNat 32 (b32Encode b).length →
      (∀ j (h : j < (b32Encode b).length), s.buf.read j = (b32Encode b)[j]) →
      ∃ t, exec .b32dec s = .next t ∧ t.fault = false ∧ t.keyValid = true ∧ t.keyLen.toNat = b.length ∧
        t.keyBytes = b)

/-! ## HOTP truncation -/

/-- R171: dynamic truncation, with the order of its faults; nothing but OFFSET, VALUE, VALUE_VALID and CODE_VALID
changes. -/
def Obligations.DtruncTruncatesTheDigest : Prop :=
  ∀ (s : State) (len : Nat),
    ((s.cfgAlg = 0 ∧ len = 20) ∨ (s.cfgAlg = 1 ∧ len = 32) ∨ (s.cfgAlg = 2 ∧ len = 64)) →
    (s.cfgOk = false →
      exec .dtrunc s =
        .next (State.faulted .sequence 0x00000020 { s with valueValid := false, codeValid := false })) ∧
    (s.cfgOk = true → s.digestLen.toNat ≠ len →
      exec .dtrunc s =
        .next (State.faulted .length 0x00000020 { s with valueValid := false, codeValid := false })) ∧
    (s.cfgOk = true → s.digestLen.toNat = len →
      ∃ t, exec .dtrunc s = .next t ∧
        t = { s with offset := t.offset, value := t.value, valueValid := true, codeValid := false } ∧
        t.offset.toNat = (s.buf.read (0x100 + len - 1)).toNat % 16 ∧
        t.value.toNat =
          ((s.buf.read (0x100 + t.offset.toNat)).toNat * 2 ^ 24 +
            (s.buf.read (0x100 + t.offset.toNat + 1)).toNat * 2 ^ 16 +
            (s.buf.read (0x100 + t.offset.toNat + 2)).toNat * 2 ^ 8 +
            (s.buf.read (0x100 + t.offset.toNat + 3)).toNat) % 2 ^ 31)

/-- R176: the code is `VALUE mod 10^digits` in exactly `digits` decimal characters, zeros after them; nothing but CODE,
CODEVAL, CODE_LEN and CODE_VALID changes. Digit counts outside 1 to 10 do not pass CFGLOCK (R131). -/
def Obligations.ModredRendersTheCode : Prop :=
  ∀ s : State,
    ((s.cfgOk = false ∨ s.valueValid = false) →
      exec .modred s = .next (State.faulted .sequence 0x00000021 { s with codeValid := false })) ∧
    (s.cfgOk = true → s.valueValid = true → 1 ≤ s.cfgDigits.toNat → s.cfgDigits.toNat ≤ 10 →
      ∃ t, exec .modred s = .next t ∧
        t = { s with codeVal := t.codeVal, codeLen := s.cfgDigits, codeValid := true, buf := t.buf } ∧
        t.codeVal.toNat = s.value.toNat % 10 ^ s.cfgDigits.toNat ∧
        (∀ j, j < s.cfgDigits.toNat →
          0x30 ≤ (t.buf.read (0x150 + j)).toNat ∧ (t.buf.read (0x150 + j)).toNat ≤ 0x39) ∧
        (List.range s.cfgDigits.toNat).foldl
            (fun n j => 10 * n + ((t.buf.read (0x150 + j)).toNat - 0x30)) 0 = t.codeVal.toNat ∧
        (∀ j, s.cfgDigits.toNat ≤ j → j < 16 → t.buf.read (0x150 + j) = 0x00) ∧
        ∀ a, a < 0x150 ∨ 0x160 ≤ a → t.buf.read a = s.buf.read a)

/-- R177: DTRUNC then MODRED is a function of the algorithm, the digit count and the first `dlen` bytes of DIGEST alone;
doing it again gives the same. -/
def Obligations.HotpIsPure : Prop :=
  ∀ (s u : State) (len : Nat), dlen s.cfgAlg = some len →
    s.cfgOk = true → u.cfgOk = true → s.digestLen.toNat = len → u.digestLen.toNat = len →
    u.cfgAlg = s.cfgAlg → u.cfgDigits = s.cfgDigits →
    (∀ j, j < len → u.buf.read (0x100 + j) = s.buf.read (0x100 + j)) →
    ∃ s' s'' u', andThen (exec .dtrunc s) (exec .modred) = .next s' ∧
      andThen (exec .dtrunc s') (exec .modred) = .next s'' ∧
      andThen (exec .dtrunc u) (exec .modred) = .next u' ∧
      s''.offset = s'.offset ∧ s''.value = s'.value ∧ s''.codeVal = s'.codeVal ∧ s''.codeLen = s'.codeLen ∧
      u'.offset = s'.offset ∧ u'.value = s'.value ∧ u'.codeVal = s'.codeVal ∧ u'.codeLen = s'.codeLen ∧
      ∀ j, j < 16 → s''.buf.read (0x150 + j) = s'.buf.read (0x150 + j) ∧
        u'.buf.read (0x150 + j) = s'.buf.read (0x150 + j)

/-- R5, R271: if DIGEST holds the HMAC of a key and a counter, DTRUNC then MODRED leaves `computeCode` of them in CODE.
HMAC is an uninterpreted constant of Config (log 12). -/
def Obligations.HotpComputesTheCodeOfTheDigest : Prop :=
  ∀ (s : State) (key : List Byte) (c : Dword) (len : Nat), dlen s.cfgAlg = some len →
    s.cfgOk = true → 1 ≤ s.cfgDigits.toNat → s.cfgDigits.toNat ≤ 10 → s.digestLen.toNat = len →
    s.buf.readBytes 0x100 len = hmac s.cfgAlg key (be64 c) →
    ∃ t, andThen (exec .dtrunc s) (exec .modred) = .next t ∧ t.codeValid = true ∧ t.codeLen = s.cfgDigits ∧
      t.codeBytes = computeCode key c s.cfgAlg s.cfgDigits.toNat

/-! ## Time slice and window -/

/-- R191, R192: SLICE k computes `TIME div CFG_PERIOD + k` exactly, stores it in COUNTER and big-endian in MSG, or
faults. Nothing but COUNTER, MSG and MSG_VALID changes. A period of 0 does not pass CFGLOCK (R131). -/
def Obligations.SliceComputesTheCounter : Prop :=
  ∀ (s : State) (k : Int), (Instr.slice k).WellFormed →
    ((s.cfgOk = false ∨ s.tmask ≠ 0b11) →
      exec (.slice k) s = .next (State.faulted .sequence (encode (.slice k)) { s with msgValid := false })) ∧
    (s.cfgOk = true → s.tmask = 0b11 → s.cfgPeriod ≠ 0 →
      ∀ c : Int, c = ((s.timeHi.toNat * 2 ^ 32 + s.timeLo.toNat) / s.cfgPeriod.toNat : Nat) + k →
        ((c < 0 ∨ 2 ^ 64 ≤ c) →
          exec (.slice k) s =
            .next (State.faulted .counterRange (encode (.slice k)) { s with msgValid := false })) ∧
        (0 ≤ c → c < 2 ^ 64 →
          ∃ t, exec (.slice k) s = .next t ∧
            t = { s with counterLo := t.counterLo, counterHi := t.counterHi, msgValid := true, buf := t.buf } ∧
            ((t.counterHi.toNat * 2 ^ 32 + t.counterLo.toNat : Nat) : Int) = c ∧
            (∀ j, j < 8 → (t.buf.read (0x140 + j)).toNat = c.toNat / 2 ^ (8 * (7 - j)) % 256) ∧
            ∀ a, a < 0x140 ∨ 0x148 ≤ a → t.buf.read a = s.buf.read a))

/-- R195: VBEGIN d opens a window of discrepancy `d` at the current slice, or faults; any earlier window or result is
dropped. Nothing but the window registers, WIN_ACTIVE, RESULT_VALID and MATCH changes. -/
def Obligations.VbeginOpensTheWindow : Prop :=
  ∀ (s : State) (d : Int), (Instr.vbegin d).WellFormed →
    ((s.cfgOk = false ∨ s.tmask ≠ 0b11) →
      exec (.vbegin d) s =
        .next (State.faulted .sequence (encode (.vbegin d)) s)) ∧
    (s.cfgOk = true → s.tmask = 0b11 → d < 0 →
      exec (.vbegin d) s = .next (State.faulted .invalidWindow (encode (.vbegin d)) s)) ∧
    (s.cfgOk = true → s.tmask = 0b11 → s.cfgPeriod ≠ 0 → 0 ≤ d →
      ∃ t, exec (.vbegin d) s = .next t ∧
        t = { s with
              winD := t.winD, winI := t.winI, winBaseLo := t.winBaseLo, winBaseHi := t.winBaseHi
              winActive := true, resultValid := false, matchAcc := false } ∧
        (t.winD.toNat : Int) = d ∧ t.winI.toInt = -d ∧
        t.winBaseHi.toNat * 2 ^ 32 + t.winBaseLo.toNat =
          (s.timeHi.toNat * 2 ^ 32 + s.timeLo.toNat) / s.cfgPeriod.toNat)

/-- R198, R192: SLICEW computes `WIN_BASE + WIN_I` exactly, stores it in COUNTER and big-endian in MSG, or faults; it
does not advance the window. Nothing but COUNTER, MSG and MSG_VALID changes. -/
def Obligations.SlicewComputesTheCounter : Prop :=
  ∀ s : State,
    (s.winActive = false →
      exec .slicew s = .next (State.faulted .sequence 0x00000032 { s with msgValid := false })) ∧
    (s.winActive = true →
      ∀ c : Int, c = (s.winBaseHi.toNat * 2 ^ 32 + s.winBaseLo.toNat : Nat) + s.winI.toInt →
        ((c < 0 ∨ 2 ^ 64 ≤ c) →
          exec .slicew s = .next (State.faulted .counterRange 0x00000032 { s with msgValid := false })) ∧
        (0 ≤ c → c < 2 ^ 64 →
          ∃ t, exec .slicew s = .next t ∧
            t = { s with counterLo := t.counterLo, counterHi := t.counterHi, msgValid := true, buf := t.buf } ∧
            ((t.counterHi.toNat * 2 ^ 32 + t.counterLo.toNat : Nat) : Int) = c ∧
            (∀ j, j < 8 → (t.buf.read (0x140 + j)).toNat = c.toNat / 2 ^ (8 * (7 - j)) % 256) ∧
            ∀ a, a < 0x140 ∨ 0x148 ≤ a → t.buf.read a = s.buf.read a))

/-! ## Comparator -/

/-- R213: in a state that meets the invariant and holds a valid code, `eq` says that the candidate is byte for byte the
code. The premise is the invariant (StepKeepsTheInvariant). -/
def Obligations.EqIsStringEquality : Prop :=
  ∀ s : State, s.Inv → s.codeValid = true →
    (s.codeEqCand = true ↔
      s.candLen = s.codeLen ∧ ∀ j, j < s.codeLen.toNat → s.buf.read (0x160 + j) = s.buf.read (0x150 + j))

/-- R211, R212: CMP publishes whether the lengths agree and all 16 positions agree, a candidate byte at or beyond
CAND_LEN counting as 0x00; or faults. Nothing but MATCH and RESULT_VALID changes. -/
def Obligations.CmpPublishesTheComparison : Prop :=
  ∀ s : State,
    ((s.cfgOk = false ∨ s.codeValid = false ∨ s.winActive = true) →
      exec .cmp s = .next (State.faulted .sequence 0x00000040 s)) ∧
    (s.cfgOk = true → s.codeValid = true → s.winActive = false →
      ∃ eq : Bool, exec .cmp s = .next { s with matchAcc := eq, resultValid := true } ∧
        (eq = true ↔ s.codeLen = s.candLen ∧
          ∀ j, j < 16 →
            s.buf.read (0x150 + j) = if j < s.candLen.toNat then s.buf.read (0x160 + j) else 0x00))

/-- R215, R212: CMPW ORs the comparison into MATCH, consumes the code, and closes the window at its last offset or moves
to the next; or faults. Nothing else changes. -/
def Obligations.CmpwAccumulatesAndAdvances : Prop :=
  ∀ s : State,
    ((s.winActive = false ∨ s.codeValid = false) →
      exec .cmpw s = .next (State.faulted .sequence 0x00000041 s)) ∧
    (s.winActive = true → s.codeValid = true →
      ∃ eq : Bool,
        (eq = true ↔ s.codeLen = s.candLen ∧
          ∀ j, j < 16 →
            s.buf.read (0x150 + j) = if j < s.candLen.toNat then s.buf.read (0x160 + j) else 0x00) ∧
        (s.winI = s.winD →
          exec .cmpw s = .next { s with
            matchAcc := s.matchAcc || eq, codeValid := false, valueValid := false
            winActive := false, resultValid := true }) ∧
        (s.winI ≠ s.winD →
          exec .cmpw s = .next { s with
            matchAcc := s.matchAcc || eq, codeValid := false, valueValid := false
            winI := s.winI + 1 }))

/-- R275: the latency of CMP and that of CMPW are one constant each. The latency is an uninterpreted parameter
(log 13). -/
def Obligations.ComparatorLatencyIsConstant : Prop :=
  ∀ s t : State, latency .cmp s = latency .cmp t ∧ latency .cmpw s = latency .cmpw t

/-! ## Invariants and headline results -/

/-- The reset state meets the invariant. -/
def Obligations.ResetMeetsTheInvariant : Prop := State.reset.Inv

/-- Every step keeps the invariant (R199, R53, R131, R240, R38, R39, R176, R51). -/
def Obligations.StepKeepsTheInvariant : Prop :=
  ∀ s t : State, s.Inv → step s = .next t → t.Inv

/-- R51, R216 (c): until the verdict is out, no reply and no state but MATCH itself depends on whether an earlier
candidate matched: two runs that differ only in MATCH at their start give the same replies and end alike but for
MATCH. -/
def Obligations.MatchStaysHidden : Prop :=
  ∀ (n : Nat) (s t : State) (b : Bool), NoVerdictBefore n s → Host.Core.run Sys2Proof.core n s = .next t →
    ∃ c : Bool, Host.Core.run Sys2Proof.core n { s with matchAcc := b } = .next { t with matchAcc := c }

/-- R199: along any run in an open window that neither restarts it nor resets, WIN_I stays in `-WIN_D .. WIN_D` and counts
the CMPW executed (from `-WIN_D`, where VBEGIN sets it: `WIN_I + WIN_D` of them), MATCH is the OR of their results and
RESULT reads 0; the CMPW that closes the window is number `WIN_D - WIN_I + 1` from any state of it (`2*WIN_D + 1` from its
opening), and then WIN_I = WIN_D, WIN_ACTIVE = 0, RESULT_VALID = 1 and MATCH is the OR of all results. A step makes the
result final exactly when it closes the window without a fault and without a reset, and the CMPW of a valid code at
WIN_I = WIN_D is such a step. The premise `Inv` is the invariant (StepKeepsTheInvariant). -/
def Obligations.WindowCountsEveryComparison : Prop :=
  ∀ (n : Nat) (s t : State), s.Inv → s.winActive = true →
    (∀ op ∈ s.pending.take n, op.restarts = false) →
    Host.Core.run Sys2Proof.core n s = .next t → t.winActive = true →
    (t.winD = s.winD ∧ t.winBase = s.winBase ∧
      -(t.winD.toNat : Int) ≤ t.winI.toInt ∧ t.winI.toInt ≤ t.winD.toNat ∧
      t.winI.toInt = s.winI.toInt + ((s.pending.take n).countP HostOp.isCmpw : Nat) ∧
      (s.winI.toInt = -(s.winD.toNat : Int) →
        (((s.pending.take n).countP HostOp.isCmpw : Nat) : Int) = t.winI.toInt + t.winD.toNat) ∧
      t.matchAcc = (s.matchAcc || (cmpwResults n s).any id) ∧ t.result = 0) ∧
    ∀ u, step t = .next u →
      (u.resultValid = true ↔ u.winActive = false ∧ u.fault = false ∧ ¬t.resets) ∧
      (t.issues .cmpw → t.codeValid = true → t.winI = t.winD → u.resultValid = true) ∧
      (u.resultValid = true →
        (((s.pending.take (n + 1)).countP HostOp.isCmpw : Nat) : Int) = (s.winD.toNat : Int) - s.winI.toInt + 1 ∧
        (s.winI.toInt = -(s.winD.toNat : Int) →
          (s.pending.take (n + 1)).countP HostOp.isCmpw = 2 * s.winD.toNat + 1) ∧
        u.winActive = false ∧ u.winI = s.winD ∧ u.matchAcc = (s.matchAcc || (cmpwResults (n + 1) s).any id))

/-- R200, R5: VBEGIN and `2d+1` rounds of SLICEW, the external HMAC, DTRUNC, MODRED and CMPW give `verifyCode`: the
result is final and is a match exactly when the candidate is the code of some slice of the window. The round is
`windowRound`, the model's own reference function for R200's round (DESIGN CHOICE, log 19), not a run of the host port: the
digest goes straight to DIGEST and DIGEST_LEN and the commands run by exec, past the port and its FAULT gate (log 17).
HMAC is an uninterpreted constant of Config (log 12). VerifyProgramComputesVerifyCode says it of the port. The premise
`Inv` is the invariant (StepKeepsTheInvariant). -/
def Obligations.WindowRoundsComputeVerifyCode : Prop :=
  ∀ (s : State) (d : Nat) (cand : List Byte), s.Inv → s.fault = false → s.cfgOk = true → s.timeValid = true →
    s.keyValid = true → d ≤ 32767 → d ≤ s.slice → s.slice + d < 2 ^ 64 →
    s.candLen.toNat = cand.length → (∀ j (h : j < cand.length), j < 16 → s.buf.read (0x160 + j) = cand[j]) →
    ∃ t, andThen (exec (.vbegin d) s) (windowRounds (2 * d + 1)) = .next t ∧
      t.fault = false ∧ t.winActive = false ∧ t.resultValid = true ∧ t.winI = t.winD ∧
      (t.matchAcc = true ↔
        ∃ i : Int, -(d : Int) ≤ i ∧ i ≤ d ∧
          computeCode s.keyBytes (BitVec.ofInt 64 (s.slice + i)) s.cfgAlg s.cfgDigits.toNat = cand)

/-- R5, R200: the host program of `verifyCode`, from LDTEXT to RD RESULT, run at the port from any state with a frozen
configuration, no fault and no open window, gives `verifyCode` of R5 for every secret text of at most 128 characters,
candidate, discrepancy and time: the host reads 3 for true and 2 for false, and where `verifyCode` has no value (an
invalid secret, or a counter out of range) the engine faults and the host reads 0, no digest having been written for an
invalid secret. HMAC is an uninterpreted constant of Config (log 12), the host looks at STATUS before each HMAC (log 21).
The premise `Inv` is the invariant (StepKeepsTheInvariant). -/
def Obligations.VerifyProgramComputesVerifyCode : Prop :=
  ∀ (s : State) (text cand : List Byte) (d : Nat) (time : Dword), s.Inv → s.fault = false → s.cfgOk = true →
    s.winActive = false → text.length ≤ 128 → cand.length < 2 ^ 32 → d ≤ 32767 →
    ∃ t, verifyProgram s.cfgAlg text cand d time s = .next t ∧ VerifyAnswered text cand d time s t

/-- R5, program P2: CFGLOCK and then R200's program, from any state with a legal configuration that is not yet frozen (as
reset leaves it), no fault and no open window, gives `verifyCode` of R5 (logs 12 and 21). The premise `Inv` is the
invariant (StepKeepsTheInvariant). -/
def Obligations.ProgramP2ComputesVerifyCode : Prop :=
  ∀ (s : State) (text cand : List Byte) (d : Nat) (time : Dword), s.Inv → s.fault = false → s.cfgOk = false →
    1 ≤ s.cfgDigits.toNat → s.cfgDigits.toNat ≤ 10 → s.cfgPeriod ≠ 0 → s.cfgAlg.toNat ≤ 2 →
    s.winActive = false → text.length ≤ 128 → cand.length < 2 ^ 32 → d ≤ 32767 →
    ∃ t, programP2 s.cfgAlg text cand d time s = .next t ∧ VerifyAnswered text cand d time s t

/-- R5, program P1: the host program of `getCode`, run at the port from any state with a frozen configuration and no
fault, gives `getCode` of R5 for every secret text of at most 128 characters and every time: the host reads the characters
of the code, or the engine faults with InvalidSecret and no digest has been written (logs 12 and 21). The premise `Inv` is
the invariant (StepKeepsTheInvariant). -/
def Obligations.GetCodeProgramComputesGetCode : Prop :=
  ∀ (s : State) (text : List Byte) (time : Dword), s.Inv → s.fault = false → s.cfgOk = true → text.length ≤ 128 →
    ∃ t, getCodeProgram s.cfgAlg s.cfgDigits.toNat text time s = .next t ∧ CodeAnswered text time s t

end
end

