-- ==== Sys2Proof/Laws/Decode.lean ====
section
/-! SUPPORT. The fields of an encoded command, and what the opcode map answers. -/

namespace Sys2Proof

/-- The three fields of a word put together from them (R101, R102). -/
theorem opField_append (r : Byte) (m : BitVec 16) (o : Byte) : opField (r ++ m ++ o : Word) = o := by
  apply BitVec.eq_of_getLsbD_eq; intro j hj
  simp only [opField, BitVec.getLsbD_extractLsb', BitVec.getLsbD_append, hj, decide_true, Bool.true_and, Nat.zero_add,
    if_true]

theorem immField_append (r : Byte) (m : BitVec 16) (o : Byte) : immField (r ++ m ++ o : Word) = m := by
  apply BitVec.eq_of_getLsbD_eq; intro j hj
  simp only [immField, BitVec.getLsbD_extractLsb', BitVec.getLsbD_append, hj, decide_true, Bool.true_and]
  rw [if_neg (by omega), if_pos (by omega), Nat.add_sub_cancel_left]

theorem rsvField_append (r : Byte) (m : BitVec 16) (o : Byte) : rsvField (r ++ m ++ o : Word) = r := by
  apply BitVec.eq_of_getLsbD_eq; intro j hj
  simp only [rsvField, BitVec.getLsbD_extractLsb', BitVec.getLsbD_append, hj, decide_true, Bool.true_and]
  rw [if_neg (by omega), if_neg (by omega)]
  congr 1; omega

@[simp] theorem opField_encode (i : Instr) : opField (encode i) = i.op := opField_append 0 i.imm i.op

@[simp] theorem immField_encode (i : Instr) : immField (encode i) = i.imm := immField_append 0 i.imm i.op

@[simp] theorem rsvField_encode (i : Instr) : rsvField (encode i) = 0 := rsvField_append 0 i.imm i.op

/-- A word is its three fields. -/
theorem word_of_fields (w : Word) : w = rsvField w ++ immField w ++ opField w := by
  apply BitVec.eq_of_getLsbD_eq; intro j hj
  simp only [rsvField, immField, opField, BitVec.getLsbD_append, BitVec.getLsbD_extractLsb']
  split
  · simp [*]
  · split
    · rw [show 8 + (j - 8) = j by omega]; simp [*]
    · rw [show 24 + (j - 8 - 16) = j by omega, show decide (j - 8 - 16 < 8) = true by simp; omega]; simp

/-- Two words with the same fields are one word. -/
theorem word_ext {v w : Word} (h1 : rsvField v = rsvField w) (h2 : immField v = immField w)
    (h3 : opField v = opField w) : v = w := by
  rw [word_of_fields v, word_of_fields w, h1, h2, h3]

/-- R8, R103: reading the field of an immediate in range gives the immediate. -/
theorem sext16_ofInt {k : Int} (h : imm16Range k) : sext16 (BitVec.ofInt 16 k) = k := by
  rw [sext16, BitVec.toInt_ofInt]; simp only [Int.bmod]; obtain ⟨h1, h2⟩ := h; norm_num; omega

/-- R8: a field read as two's complement is in range. -/
theorem sext16_range (v : BitVec 16) : imm16Range (sext16 v) := by
  have h1 := BitVec.toInt_lt (x := v); have h2 := BitVec.le_toInt (x := v)
  norm_num at h1 h2
  constructor <;> simp only [sext16] <;> omega

@[simp] theorem ofInt_sext16 (v : BitVec 16) : BitVec.ofInt 16 (sext16 v) = v := by simp [sext16]

/-- What the opcode map can answer, one case per command (R104). -/
theorem opcodeRow_cases {op : Byte} {k : Int} {f : Format} {i : Instr} (h : opcodeRow op k = some (f, i)) :
    op = i.op ∧ ((f = .n ∧ i.imm = 0 ∧ i.WellFormed) ∨ (f = .i ∧ (i = .slice k ∨ i = .vbegin k))) := by
  unfold opcodeRow at h
  split at h <;> simp only [Option.some.injEq, Prod.mk.injEq, reduceCtorEq] at h <;> obtain ⟨rfl, rfl⟩ := h <;>
    refine ⟨?_, ?_⟩ <;> first | (apply BitVec.eq_of_toNat_eq; assumption) | simp [Instr.imm, Instr.WellFormed, Instr.wf]

/-- R102 to R104: the encoding of each command, written out. -/
theorem encode_cfglock : encode .cfglock = 0x00000001 := by decide
theorem encode_clrerr : encode .clrerr = 0x00000002 := by decide
theorem encode_sreset : encode .sreset = 0x00000003 := by decide
theorem encode_b32dec : encode .b32dec = 0x00000010 := by decide
theorem encode_dtrunc : encode .dtrunc = 0x00000020 := by decide
theorem encode_modred : encode .modred = 0x00000021 := by decide
theorem encode_slicew : encode .slicew = 0x00000032 := by decide
theorem encode_cmp : encode .cmp = 0x00000040 := by decide
theorem encode_cmpw : encode .cmpw = 0x00000041 := by decide

end Sys2Proof
end

