-- ==== Sys2Proof/Laws/Memory.lean ====
section
/-! SUPPORT. What the operations on BUF do: read after write, and the canonical form is kept. -/

namespace Sys2Proof.Machine

/-! ## Read after write -/

@[simp] theorem Memory.read_nil (a : Nat) : Memory.read [] a = Memory.unlisted := rfl

theorem Memory.read_cons (c : Host.Cell) (m : Memory) (a : Nat) :
    Memory.read (c :: m) a = if c.1 = a then c.2 else Memory.read m a := rfl

theorem Memory.read_erase_self (m : Memory) (a : Nat) :
    Memory.read (m.filter (fun c => c.1 ≠ a)) a = Memory.unlisted := by
  induction m with
  | nil => rfl
  | cons c m ih =>
    by_cases h : c.1 = a
    · simpa [List.filter_cons, h] using ih
    · simpa [List.filter_cons, h, Memory.read_cons] using ih

theorem Memory.read_erase_ne (m : Memory) {a a' : Nat} (h : a' ≠ a) :
    Memory.read (m.filter (fun c => c.1 ≠ a)) a' = m.read a' := by
  induction m with
  | nil => rfl
  | cons c m ih =>
    by_cases hc : c.1 = a
    · simpa [List.filter_cons, hc, Memory.read_cons, h.symm] using ih
    · simp only [List.filter_cons, hc, ne_eq, not_false_eq_true, decide_true, if_true, Memory.read_cons]
      simp only [ne_eq] at ih
      rw [ih]

theorem Memory.read_insert_ne (m : Memory) {a a' : Nat} (b : Byte) (h : a' ≠ a) :
    (Memory.insert a b m).read a' = m.read a' := by
  induction m with
  | nil => simp [Memory.insert, Memory.read_cons, h.symm]
  | cons c m ih =>
    by_cases hc : a < c.1 <;> simp [Memory.insert, hc, Memory.read_cons, h.symm, ih]

theorem Memory.read_insert_self (m : Memory) (a : Nat) (b : Byte) (h : ∀ c ∈ m, c.1 ≠ a) :
    (Memory.insert a b m).read a = b := by
  induction m with
  | nil => simp [Memory.insert, Memory.read_cons]
  | cons c m ih =>
    have hca := h c (by simp)
    by_cases hc : a < c.1
    · simp [Memory.insert, hc, Memory.read_cons]
    · simpa [Memory.insert, hc, Memory.read_cons, hca] using ih fun d hd => h d (by simp [hd])

/-- A read after a write to the same place gives the value written. -/
@[simp] theorem Memory.read_write_self (m : Memory) (a : Nat) (b : Byte) : (m.write a b).read a = b := by
  by_cases h : b = Memory.unlisted
  · simpa [Memory.write, h] using Memory.read_erase_self m a
  · simp only [Memory.write, h, if_false]
    exact Memory.read_insert_self _ _ _ (by simp [List.mem_filter])

/-- A write leaves every other place alone. -/
theorem Memory.read_write_ne (m : Memory) {a a' : Nat} (b : Byte) (h : a' ≠ a) :
    (m.write a b).read a' = m.read a' := by
  by_cases hb : b = Memory.unlisted
  · simpa [Memory.write, hb] using Memory.read_erase_ne m h
  · simp only [Memory.write, hb, if_false]
    rw [Memory.read_insert_ne _ _ h, Memory.read_erase_ne m h]

theorem Memory.read_write (m : Memory) (a a' : Nat) (b : Byte) :
    (m.write a b).read a' = if a' = a then b else m.read a' := by
  by_cases h : a' = a
  · subst h; simp
  · simp [h, Memory.read_write_ne m b h]

/-- `MemWrite` of consecutive bytes: the bytes written are read back, every other address reads as before. -/
theorem Memory.read_writeBytes (m : Memory) (a : Nat) (bs : List Byte) (a' : Nat) :
    (m.writeBytes a bs).read a' =
      if a ≤ a' ∧ a' < a + bs.length then bs.getD (a' - a) 0x00 else m.read a' := by
  induction bs generalizing m a with
  | nil => simp [Memory.writeBytes, show ¬(a ≤ a' ∧ a' < a) by omega]
  | cons b bs ih =>
    rw [Memory.writeBytes, ih, Memory.read_write, List.length_cons]
    rcases Nat.lt_trichotomy a' a with h | h | h
    · rw [if_neg (by omega), if_neg (by omega), if_neg (by omega)]
    · subst h; simp
    · obtain ⟨k, rfl⟩ : ∃ k, a' = a + 1 + k := ⟨a' - (a + 1), by omega⟩
      by_cases hk : k < bs.length
      · rw [if_pos (by omega), if_pos (by omega)]
        simp [show a + 1 + k - a = k + 1 by omega]
      · rw [if_neg (by omega), if_neg (by omega), if_neg (by omega)]

theorem Memory.read_writeBytes_of_lt (m : Memory) (a : Nat) (bs : List Byte) (j : Nat) (h : j < bs.length) :
    (m.writeBytes a bs).read (a + j) = bs[j] := by
  rw [Memory.read_writeBytes, if_pos (by omega)]
  simp [h]

theorem Memory.read_writeBytes_outside (m : Memory) (a : Nat) (bs : List Byte) (a' : Nat)
    (h : a' < a ∨ a + bs.length ≤ a') : (m.writeBytes a bs).read a' = m.read a' := by
  rw [Memory.read_writeBytes, if_neg (by omega)]

/-! ## Byte strings -/

@[simp] theorem Memory.length_readBytes (m : Memory) (a n : Nat) : (m.readBytes a n).length = n := by
  simp [Memory.readBytes]

@[simp] theorem Memory.getElem_readBytes (m : Memory) (a n j : Nat) (h : j < (m.readBytes a n).length) :
    (m.readBytes a n)[j] = m.read (a + j) := by
  simp [Memory.readBytes]

/-- Two stretches of memory are the same byte string exactly when they agree byte by byte. -/
theorem Memory.readBytes_eq_iff (m : Memory) (a n : Nat) (bs : List Byte) :
    m.readBytes a n = bs ↔ bs.length = n ∧ ∀ (j : Nat) (h : j < bs.length), m.read (a + j) = bs[j] := by
  constructor
  · rintro rfl; simp
  · rintro ⟨rfl, h⟩
    apply List.ext_getElem <;> simp_all

@[simp] theorem length_be64 (c : Dword) : (be64 c).length = 8 := by simp [be64, Config.msgLen]

@[simp] theorem getElem_be64 (c : Dword) (j : Nat) (h : j < (be64 c).length) :
    (be64 c)[j] = (c >>> (8 * (7 - j))).setWidth 8 := by simp [be64]

@[simp] theorem length_zeroFill (n : Nat) (bs : List Byte) : (zeroFill n bs).length = max bs.length n := by
  simp [zeroFill]; omega

/-! ## The canonical form -/

theorem Memory.sorted_cons (c : Host.Cell) (m : Memory) :
    Memory.sorted (c :: m) = true ↔ (∀ d ∈ m, c.1 < d.1) ∧ m.sorted = true := by
  simp [Memory.sorted, List.all_eq_true]

theorem Memory.sorted_filter (m : Memory) (p : Host.Cell → Bool) (h : m.sorted = true) :
    Memory.sorted (m.filter p) = true := by
  induction m with
  | nil => rfl
  | cons c m ih =>
    rw [Memory.sorted_cons] at h
    by_cases hp : p c
    · rw [List.filter_cons_of_pos hp, Memory.sorted_cons]
      exact ⟨fun d hd => h.1 d (List.mem_filter.1 hd).1, ih h.2⟩
    · rw [List.filter_cons_of_neg hp]; exact ih h.2

theorem Memory.mem_insert (m : Memory) (a : Nat) (b : Byte) (d : Host.Cell) :
    d ∈ Memory.insert a b m ↔ d = (a, b) ∨ d ∈ m := by
  induction m with
  | nil => simp [Memory.insert]
  | cons c m ih =>
    by_cases hc : a < c.1
    · simp [Memory.insert, hc]
    · simp only [Memory.insert, hc, if_false, List.mem_cons, ih]; tauto

theorem Memory.sorted_insert (m : Memory) (a : Nat) (b : Byte) (h : m.sorted = true) (hne : ∀ c ∈ m, c.1 ≠ a) :
    Memory.sorted (Memory.insert a b m) = true := by
  induction m with
  | nil => rfl
  | cons c m ih =>
    have h' := h
    rw [Memory.sorted_cons] at h'
    by_cases hc : a < c.1
    · simp only [Memory.insert, hc, if_true]
      rw [Memory.sorted_cons]
      refine ⟨fun d hd => ?_, h⟩
      rcases List.mem_cons.1 hd with rfl | hd
      · exact hc
      · exact hc.trans (h'.1 d hd)
    · simp only [Memory.insert, hc, if_false]
      rw [Memory.sorted_cons]
      refine ⟨fun d hd => ?_, ih h'.2 fun d hd => hne d (by simp [hd])⟩
      rcases (Memory.mem_insert m a b d).1 hd with rfl | hd
      · have := hne c (by simp); show c.1 < a; omega
      · exact h'.1 d hd

theorem Memory.wf_iff (m : Memory) :
    m.wf = true ↔ m.sorted = true ∧ ∀ c ∈ m, c.2 ≠ Memory.unlisted := by
  simp [Memory.wf, List.all_eq_true]

@[simp] theorem Memory.wf_nil : Memory.wf [] = true := rfl

/-- A write keeps the canonical form. -/
theorem Memory.wf_write (m : Memory) (a : Nat) (b : Byte) (h : m.wf = true) : (m.write a b).wf = true := by
  rw [Memory.wf_iff] at h ⊢
  have hs : Memory.sorted (m.filter (fun c => c.1 ≠ a)) = true := Memory.sorted_filter m _ h.1
  by_cases hb : b = Memory.unlisted
  · simp only [Memory.write, hb, if_true]
    exact ⟨hs, fun c hc => h.2 c (List.mem_filter.1 hc).1⟩
  · simp only [Memory.write, hb, if_false]
    refine ⟨Memory.sorted_insert _ a b hs (by simp [List.mem_filter]), fun c hc => ?_⟩
    rcases (Memory.mem_insert _ a b c).1 hc with rfl | hc
    · exact hb
    · exact h.2 c (List.mem_filter.1 hc).1

theorem Memory.wf_writeBytes (m : Memory) (a : Nat) (bs : List Byte) (h : m.wf = true) :
    (m.writeBytes a bs).wf = true := by
  induction bs generalizing m a with
  | nil => exact h
  | cons b bs ih => exact ih _ _ (Memory.wf_write m a b h)

/-- What a write lists: the address written, or what was listed before. -/
theorem Memory.mem_write (m : Memory) (a : Nat) (b : Byte) (c : Host.Cell) (h : c ∈ m.write a b) :
    c.1 = a ∨ c ∈ m := by
  by_cases hb : b = Memory.unlisted
  · simp only [Memory.write, hb, if_true] at h
    exact .inr (List.mem_filter.1 h).1
  · simp only [Memory.write, hb, if_false] at h
    rcases (Memory.mem_insert _ a b c).1 h with rfl | h
    · exact .inl rfl
    · exact .inr (List.mem_filter.1 h).1

theorem Memory.mem_writeBytes (m : Memory) (a : Nat) (bs : List Byte) (c : Host.Cell)
    (h : c ∈ m.writeBytes a bs) : (a ≤ c.1 ∧ c.1 < a + bs.length) ∨ c ∈ m := by
  induction bs generalizing m a with
  | nil => exact .inr h
  | cons b bs ih =>
    rcases ih _ _ h with h | h
    · exact .inl ⟨by omega, by simp; omega⟩
    · rcases Memory.mem_write m a b c h with h | h
      · exact .inl ⟨by omega, by simp; omega⟩
      · exact .inr h

/-- Equal memories are equal data: two canonical memories that read alike are one list. -/
theorem Memory.eq_of_read_eq (m n : Memory) (hm : m.wf = true) (hn : n.wf = true)
    (h : ∀ a, m.read a = n.read a) : m = n := by
  have key : ∀ (k : Memory) (c : Host.Cell), k.sorted = true → (∀ d ∈ k, c.1 < d.1) → ∀ a ≤ c.1, k.read a = Memory.unlisted := by
    intro k c hs hlt a ha
    induction k with
    | nil => rfl
    | cons d k ih =>
      have hd := hlt d (by simp)
      rw [Memory.read_cons, if_neg (by omega)]
      rw [Memory.sorted_cons] at hs
      exact ih hs.2 fun e he => hlt e (by simp [he])
  rw [Memory.wf_iff] at hm hn
  induction m generalizing n with
  | nil =>
    cases n with
    | nil => rfl
    | cons d n =>
      have := h d.1
      rw [Memory.read_nil, Memory.read_cons, if_pos rfl] at this
      exact absurd this.symm (hn.2 d (by simp))
  | cons c m ih =>
    cases n with
    | nil =>
      have := h c.1
      rw [Memory.read_nil, Memory.read_cons, if_pos rfl] at this
      exact absurd this (hm.2 c (by simp))
    | cons d n =>
      have hm' := hm.1
      have hn' := hn.1
      rw [Memory.sorted_cons] at hm' hn'
      have hcd : c.1 = d.1 := by
        rcases Nat.lt_trichotomy c.1 d.1 with hl | he | hg
        · have := h c.1
          rw [Memory.read_cons, if_pos rfl, Memory.read_cons, if_neg (by omega),
            key n d hn'.2 hn'.1 _ (by omega)] at this
          exact absurd this (hm.2 c (by simp))
        · exact he
        · have := h d.1
          rw [Memory.read_cons, if_neg (by omega), Memory.read_cons, if_pos rfl,
            key m c hm'.2 hm'.1 _ (by omega)] at this
          exact absurd this.symm (hn.2 d (by simp))
      have hv : c.2 = d.2 := by
        have := h c.1
        rwa [Memory.read_cons, if_pos rfl, Memory.read_cons, if_pos hcd.symm] at this
      have hc : c = d := Prod.ext hcd hv
      subst hc
      congr 1
      refine ih n ⟨hm'.2, fun e he => hm.2 e (by simp [he])⟩ ⟨hn'.2, fun e he => hn.2 e (by simp [he])⟩ fun a => ?_
      by_cases ha : c.1 = a
      · rw [key m c hm'.2 hm'.1 a (by omega), key n c hn'.2 hn'.1 a (by omega)]
      · have := h a
        rwa [Memory.read_cons, if_neg ha, Memory.read_cons, if_neg ha] at this

end Sys2Proof.Machine
end

