-- ==== Sys2Proof/Laws/State.lean ====
section
/-! SUPPORT. One lemma per field per named update of State, true by rfl, so that no proof unfolds a record update. -/

namespace Sys2Proof.Machine

/-! ## faulted -/

@[simp] theorem State.faulted_cfgOk (s : State) (k : FaultKind) (w : Word) : (s.faulted k w).cfgOk = s.cfgOk := rfl
@[simp] theorem State.faulted_keyValid (s : State) (k : FaultKind) (w : Word) : (s.faulted k w).keyValid = s.keyValid := rfl
@[simp] theorem State.faulted_msgValid (s : State) (k : FaultKind) (w : Word) : (s.faulted k w).msgValid = s.msgValid := rfl
@[simp] theorem State.faulted_valueValid (s : State) (k : FaultKind) (w : Word) : (s.faulted k w).valueValid = s.valueValid := rfl
@[simp] theorem State.faulted_codeValid (s : State) (k : FaultKind) (w : Word) : (s.faulted k w).codeValid = s.codeValid := rfl
@[simp] theorem State.faulted_winActive (s : State) (k : FaultKind) (w : Word) : (s.faulted k w).winActive = false := rfl
@[simp] theorem State.faulted_resultValid (s : State) (k : FaultKind) (w : Word) : (s.faulted k w).resultValid = false := rfl
@[simp] theorem State.faulted_fault (s : State) (k : FaultKind) (w : Word) : (s.faulted k w).fault = true := rfl
@[simp] theorem State.faulted_errCode (s : State) (k : FaultKind) (w : Word) : (s.faulted k w).errCode = some k := rfl
@[simp] theorem State.faulted_errCmd (s : State) (k : FaultKind) (w : Word) : (s.faulted k w).errCmd = w := rfl
@[simp] theorem State.faulted_cfgDigits (s : State) (k : FaultKind) (w : Word) : (s.faulted k w).cfgDigits = s.cfgDigits := rfl
@[simp] theorem State.faulted_cfgPeriod (s : State) (k : FaultKind) (w : Word) : (s.faulted k w).cfgPeriod = s.cfgPeriod := rfl
@[simp] theorem State.faulted_cfgAlg (s : State) (k : FaultKind) (w : Word) : (s.faulted k w).cfgAlg = s.cfgAlg := rfl
@[simp] theorem State.faulted_timeLo (s : State) (k : FaultKind) (w : Word) : (s.faulted k w).timeLo = s.timeLo := rfl
@[simp] theorem State.faulted_timeHi (s : State) (k : FaultKind) (w : Word) : (s.faulted k w).timeHi = s.timeHi := rfl
@[simp] theorem State.faulted_tmask (s : State) (k : FaultKind) (w : Word) : (s.faulted k w).tmask = s.tmask := rfl
@[simp] theorem State.faulted_textLen (s : State) (k : FaultKind) (w : Word) : (s.faulted k w).textLen = s.textLen := rfl
@[simp] theorem State.faulted_digestLen (s : State) (k : FaultKind) (w : Word) : (s.faulted k w).digestLen = s.digestLen := rfl
@[simp] theorem State.faulted_candLen (s : State) (k : FaultKind) (w : Word) : (s.faulted k w).candLen = s.candLen := rfl
@[simp] theorem State.faulted_keyLen (s : State) (k : FaultKind) (w : Word) : (s.faulted k w).keyLen = s.keyLen := rfl
@[simp] theorem State.faulted_counterLo (s : State) (k : FaultKind) (w : Word) : (s.faulted k w).counterLo = s.counterLo := rfl
@[simp] theorem State.faulted_counterHi (s : State) (k : FaultKind) (w : Word) : (s.faulted k w).counterHi = s.counterHi := rfl
@[simp] theorem State.faulted_offset (s : State) (k : FaultKind) (w : Word) : (s.faulted k w).offset = s.offset := rfl
@[simp] theorem State.faulted_value (s : State) (k : FaultKind) (w : Word) : (s.faulted k w).value = s.value := rfl
@[simp] theorem State.faulted_codeVal (s : State) (k : FaultKind) (w : Word) : (s.faulted k w).codeVal = s.codeVal := rfl
@[simp] theorem State.faulted_codeLen (s : State) (k : FaultKind) (w : Word) : (s.faulted k w).codeLen = s.codeLen := rfl
@[simp] theorem State.faulted_winD (s : State) (k : FaultKind) (w : Word) : (s.faulted k w).winD = s.winD := rfl
@[simp] theorem State.faulted_winI (s : State) (k : FaultKind) (w : Word) : (s.faulted k w).winI = s.winI := rfl
@[simp] theorem State.faulted_winBaseLo (s : State) (k : FaultKind) (w : Word) : (s.faulted k w).winBaseLo = s.winBaseLo := rfl
@[simp] theorem State.faulted_winBaseHi (s : State) (k : FaultKind) (w : Word) : (s.faulted k w).winBaseHi = s.winBaseHi := rfl
@[simp] theorem State.faulted_matchAcc (s : State) (k : FaultKind) (w : Word) : (s.faulted k w).matchAcc = false := rfl
@[simp] theorem State.faulted_buf (s : State) (k : FaultKind) (w : Word) : (s.faulted k w).buf = s.buf := rfl
@[simp] theorem State.faulted_pending (s : State) (k : FaultKind) (w : Word) : (s.faulted k w).pending = s.pending := rfl
@[simp] theorem State.faulted_replies (s : State) (k : FaultKind) (w : Word) : (s.faulted k w).replies = s.replies := rfl

/-! ## clearFault -/

@[simp] theorem State.clearFault_cfgOk (s : State) : s.clearFault.cfgOk = s.cfgOk := rfl
@[simp] theorem State.clearFault_keyValid (s : State) : s.clearFault.keyValid = s.keyValid := rfl
@[simp] theorem State.clearFault_msgValid (s : State) : s.clearFault.msgValid = s.msgValid := rfl
@[simp] theorem State.clearFault_valueValid (s : State) : s.clearFault.valueValid = s.valueValid := rfl
@[simp] theorem State.clearFault_codeValid (s : State) : s.clearFault.codeValid = s.codeValid := rfl
@[simp] theorem State.clearFault_winActive (s : State) : s.clearFault.winActive = s.winActive := rfl
@[simp] theorem State.clearFault_resultValid (s : State) : s.clearFault.resultValid = s.resultValid := rfl
@[simp] theorem State.clearFault_fault (s : State) : s.clearFault.fault = false := rfl
@[simp] theorem State.clearFault_errCode (s : State) : s.clearFault.errCode = none := rfl
@[simp] theorem State.clearFault_errCmd (s : State) : s.clearFault.errCmd = 0 := rfl
@[simp] theorem State.clearFault_cfgDigits (s : State) : s.clearFault.cfgDigits = s.cfgDigits := rfl
@[simp] theorem State.clearFault_cfgPeriod (s : State) : s.clearFault.cfgPeriod = s.cfgPeriod := rfl
@[simp] theorem State.clearFault_cfgAlg (s : State) : s.clearFault.cfgAlg = s.cfgAlg := rfl
@[simp] theorem State.clearFault_timeLo (s : State) : s.clearFault.timeLo = s.timeLo := rfl
@[simp] theorem State.clearFault_timeHi (s : State) : s.clearFault.timeHi = s.timeHi := rfl
@[simp] theorem State.clearFault_tmask (s : State) : s.clearFault.tmask = s.tmask := rfl
@[simp] theorem State.clearFault_textLen (s : State) : s.clearFault.textLen = s.textLen := rfl
@[simp] theorem State.clearFault_digestLen (s : State) : s.clearFault.digestLen = s.digestLen := rfl
@[simp] theorem State.clearFault_candLen (s : State) : s.clearFault.candLen = s.candLen := rfl
@[simp] theorem State.clearFault_keyLen (s : State) : s.clearFault.keyLen = s.keyLen := rfl
@[simp] theorem State.clearFault_counterLo (s : State) : s.clearFault.counterLo = s.counterLo := rfl
@[simp] theorem State.clearFault_counterHi (s : State) : s.clearFault.counterHi = s.counterHi := rfl
@[simp] theorem State.clearFault_offset (s : State) : s.clearFault.offset = s.offset := rfl
@[simp] theorem State.clearFault_value (s : State) : s.clearFault.value = s.value := rfl
@[simp] theorem State.clearFault_codeVal (s : State) : s.clearFault.codeVal = s.codeVal := rfl
@[simp] theorem State.clearFault_codeLen (s : State) : s.clearFault.codeLen = s.codeLen := rfl
@[simp] theorem State.clearFault_winD (s : State) : s.clearFault.winD = s.winD := rfl
@[simp] theorem State.clearFault_winI (s : State) : s.clearFault.winI = s.winI := rfl
@[simp] theorem State.clearFault_winBaseLo (s : State) : s.clearFault.winBaseLo = s.winBaseLo := rfl
@[simp] theorem State.clearFault_winBaseHi (s : State) : s.clearFault.winBaseHi = s.winBaseHi := rfl
@[simp] theorem State.clearFault_matchAcc (s : State) : s.clearFault.matchAcc = s.matchAcc := rfl
@[simp] theorem State.clearFault_buf (s : State) : s.clearFault.buf = s.buf := rfl
@[simp] theorem State.clearFault_pending (s : State) : s.clearFault.pending = s.pending := rfl
@[simp] theorem State.clearFault_replies (s : State) : s.clearFault.replies = s.replies := rfl

/-! ## resetBlock -/

@[simp] theorem State.resetBlock_cfgOk (s : State) : s.resetBlock.cfgOk = State.reset.cfgOk := rfl
@[simp] theorem State.resetBlock_keyValid (s : State) : s.resetBlock.keyValid = State.reset.keyValid := rfl
@[simp] theorem State.resetBlock_msgValid (s : State) : s.resetBlock.msgValid = State.reset.msgValid := rfl
@[simp] theorem State.resetBlock_valueValid (s : State) : s.resetBlock.valueValid = State.reset.valueValid := rfl
@[simp] theorem State.resetBlock_codeValid (s : State) : s.resetBlock.codeValid = State.reset.codeValid := rfl
@[simp] theorem State.resetBlock_winActive (s : State) : s.resetBlock.winActive = State.reset.winActive := rfl
@[simp] theorem State.resetBlock_resultValid (s : State) : s.resetBlock.resultValid = State.reset.resultValid := rfl
@[simp] theorem State.resetBlock_fault (s : State) : s.resetBlock.fault = State.reset.fault := rfl
@[simp] theorem State.resetBlock_errCode (s : State) : s.resetBlock.errCode = State.reset.errCode := rfl
@[simp] theorem State.resetBlock_errCmd (s : State) : s.resetBlock.errCmd = State.reset.errCmd := rfl
@[simp] theorem State.resetBlock_cfgDigits (s : State) : s.resetBlock.cfgDigits = State.reset.cfgDigits := rfl
@[simp] theorem State.resetBlock_cfgPeriod (s : State) : s.resetBlock.cfgPeriod = State.reset.cfgPeriod := rfl
@[simp] theorem State.resetBlock_cfgAlg (s : State) : s.resetBlock.cfgAlg = State.reset.cfgAlg := rfl
@[simp] theorem State.resetBlock_timeLo (s : State) : s.resetBlock.timeLo = State.reset.timeLo := rfl
@[simp] theorem State.resetBlock_timeHi (s : State) : s.resetBlock.timeHi = State.reset.timeHi := rfl
@[simp] theorem State.resetBlock_tmask (s : State) : s.resetBlock.tmask = State.reset.tmask := rfl
@[simp] theorem State.resetBlock_textLen (s : State) : s.resetBlock.textLen = State.reset.textLen := rfl
@[simp] theorem State.resetBlock_digestLen (s : State) : s.resetBlock.digestLen = State.reset.digestLen := rfl
@[simp] theorem State.resetBlock_candLen (s : State) : s.resetBlock.candLen = State.reset.candLen := rfl
@[simp] theorem State.resetBlock_keyLen (s : State) : s.resetBlock.keyLen = State.reset.keyLen := rfl
@[simp] theorem State.resetBlock_counterLo (s : State) : s.resetBlock.counterLo = State.reset.counterLo := rfl
@[simp] theorem State.resetBlock_counterHi (s : State) : s.resetBlock.counterHi = State.reset.counterHi := rfl
@[simp] theorem State.resetBlock_offset (s : State) : s.resetBlock.offset = State.reset.offset := rfl
@[simp] theorem State.resetBlock_value (s : State) : s.resetBlock.value = State.reset.value := rfl
@[simp] theorem State.resetBlock_codeVal (s : State) : s.resetBlock.codeVal = State.reset.codeVal := rfl
@[simp] theorem State.resetBlock_codeLen (s : State) : s.resetBlock.codeLen = State.reset.codeLen := rfl
@[simp] theorem State.resetBlock_winD (s : State) : s.resetBlock.winD = State.reset.winD := rfl
@[simp] theorem State.resetBlock_winI (s : State) : s.resetBlock.winI = State.reset.winI := rfl
@[simp] theorem State.resetBlock_winBaseLo (s : State) : s.resetBlock.winBaseLo = State.reset.winBaseLo := rfl
@[simp] theorem State.resetBlock_winBaseHi (s : State) : s.resetBlock.winBaseHi = State.reset.winBaseHi := rfl
@[simp] theorem State.resetBlock_matchAcc (s : State) : s.resetBlock.matchAcc = State.reset.matchAcc := rfl
@[simp] theorem State.resetBlock_buf (s : State) : s.resetBlock.buf = State.reset.buf := rfl
@[simp] theorem State.resetBlock_pending (s : State) : s.resetBlock.pending = s.pending := rfl
@[simp] theorem State.resetBlock_replies (s : State) : s.resetBlock.replies = s.replies := rfl

/-! ## answer -/

@[simp] theorem State.answer_cfgOk (s : State) (r : Reply) : (s.answer r).cfgOk = s.cfgOk := rfl
@[simp] theorem State.answer_keyValid (s : State) (r : Reply) : (s.answer r).keyValid = s.keyValid := rfl
@[simp] theorem State.answer_msgValid (s : State) (r : Reply) : (s.answer r).msgValid = s.msgValid := rfl
@[simp] theorem State.answer_valueValid (s : State) (r : Reply) : (s.answer r).valueValid = s.valueValid := rfl
@[simp] theorem State.answer_codeValid (s : State) (r : Reply) : (s.answer r).codeValid = s.codeValid := rfl
@[simp] theorem State.answer_winActive (s : State) (r : Reply) : (s.answer r).winActive = s.winActive := rfl
@[simp] theorem State.answer_resultValid (s : State) (r : Reply) : (s.answer r).resultValid = s.resultValid := rfl
@[simp] theorem State.answer_fault (s : State) (r : Reply) : (s.answer r).fault = s.fault := rfl
@[simp] theorem State.answer_errCode (s : State) (r : Reply) : (s.answer r).errCode = s.errCode := rfl
@[simp] theorem State.answer_errCmd (s : State) (r : Reply) : (s.answer r).errCmd = s.errCmd := rfl
@[simp] theorem State.answer_cfgDigits (s : State) (r : Reply) : (s.answer r).cfgDigits = s.cfgDigits := rfl
@[simp] theorem State.answer_cfgPeriod (s : State) (r : Reply) : (s.answer r).cfgPeriod = s.cfgPeriod := rfl
@[simp] theorem State.answer_cfgAlg (s : State) (r : Reply) : (s.answer r).cfgAlg = s.cfgAlg := rfl
@[simp] theorem State.answer_timeLo (s : State) (r : Reply) : (s.answer r).timeLo = s.timeLo := rfl
@[simp] theorem State.answer_timeHi (s : State) (r : Reply) : (s.answer r).timeHi = s.timeHi := rfl
@[simp] theorem State.answer_tmask (s : State) (r : Reply) : (s.answer r).tmask = s.tmask := rfl
@[simp] theorem State.answer_textLen (s : State) (r : Reply) : (s.answer r).textLen = s.textLen := rfl
@[simp] theorem State.answer_digestLen (s : State) (r : Reply) : (s.answer r).digestLen = s.digestLen := rfl
@[simp] theorem State.answer_candLen (s : State) (r : Reply) : (s.answer r).candLen = s.candLen := rfl
@[simp] theorem State.answer_keyLen (s : State) (r : Reply) : (s.answer r).keyLen = s.keyLen := rfl
@[simp] theorem State.answer_counterLo (s : State) (r : Reply) : (s.answer r).counterLo = s.counterLo := rfl
@[simp] theorem State.answer_counterHi (s : State) (r : Reply) : (s.answer r).counterHi = s.counterHi := rfl
@[simp] theorem State.answer_offset (s : State) (r : Reply) : (s.answer r).offset = s.offset := rfl
@[simp] theorem State.answer_value (s : State) (r : Reply) : (s.answer r).value = s.value := rfl
@[simp] theorem State.answer_codeVal (s : State) (r : Reply) : (s.answer r).codeVal = s.codeVal := rfl
@[simp] theorem State.answer_codeLen (s : State) (r : Reply) : (s.answer r).codeLen = s.codeLen := rfl
@[simp] theorem State.answer_winD (s : State) (r : Reply) : (s.answer r).winD = s.winD := rfl
@[simp] theorem State.answer_winI (s : State) (r : Reply) : (s.answer r).winI = s.winI := rfl
@[simp] theorem State.answer_winBaseLo (s : State) (r : Reply) : (s.answer r).winBaseLo = s.winBaseLo := rfl
@[simp] theorem State.answer_winBaseHi (s : State) (r : Reply) : (s.answer r).winBaseHi = s.winBaseHi := rfl
@[simp] theorem State.answer_matchAcc (s : State) (r : Reply) : (s.answer r).matchAcc = s.matchAcc := rfl
@[simp] theorem State.answer_buf (s : State) (r : Reply) : (s.answer r).buf = s.buf := rfl
@[simp] theorem State.answer_pending (s : State) (r : Reply) : (s.answer r).pending = s.pending := rfl
@[simp] theorem State.answer_replies (s : State) (r : Reply) : (s.answer r).replies = s.replies ++ [r] := rfl

/-! ## taken -/

@[simp] theorem State.taken_cfgOk (s : State) : s.taken.cfgOk = s.cfgOk := rfl
@[simp] theorem State.taken_keyValid (s : State) : s.taken.keyValid = s.keyValid := rfl
@[simp] theorem State.taken_msgValid (s : State) : s.taken.msgValid = s.msgValid := rfl
@[simp] theorem State.taken_valueValid (s : State) : s.taken.valueValid = s.valueValid := rfl
@[simp] theorem State.taken_codeValid (s : State) : s.taken.codeValid = s.codeValid := rfl
@[simp] theorem State.taken_winActive (s : State) : s.taken.winActive = s.winActive := rfl
@[simp] theorem State.taken_resultValid (s : State) : s.taken.resultValid = s.resultValid := rfl
@[simp] theorem State.taken_fault (s : State) : s.taken.fault = s.fault := rfl
@[simp] theorem State.taken_errCode (s : State) : s.taken.errCode = s.errCode := rfl
@[simp] theorem State.taken_errCmd (s : State) : s.taken.errCmd = s.errCmd := rfl
@[simp] theorem State.taken_cfgDigits (s : State) : s.taken.cfgDigits = s.cfgDigits := rfl
@[simp] theorem State.taken_cfgPeriod (s : State) : s.taken.cfgPeriod = s.cfgPeriod := rfl
@[simp] theorem State.taken_cfgAlg (s : State) : s.taken.cfgAlg = s.cfgAlg := rfl
@[simp] theorem State.taken_timeLo (s : State) : s.taken.timeLo = s.timeLo := rfl
@[simp] theorem State.taken_timeHi (s : State) : s.taken.timeHi = s.timeHi := rfl
@[simp] theorem State.taken_tmask (s : State) : s.taken.tmask = s.tmask := rfl
@[simp] theorem State.taken_textLen (s : State) : s.taken.textLen = s.textLen := rfl
@[simp] theorem State.taken_digestLen (s : State) : s.taken.digestLen = s.digestLen := rfl
@[simp] theorem State.taken_candLen (s : State) : s.taken.candLen = s.candLen := rfl
@[simp] theorem State.taken_keyLen (s : State) : s.taken.keyLen = s.keyLen := rfl
@[simp] theorem State.taken_counterLo (s : State) : s.taken.counterLo = s.counterLo := rfl
@[simp] theorem State.taken_counterHi (s : State) : s.taken.counterHi = s.counterHi := rfl
@[simp] theorem State.taken_offset (s : State) : s.taken.offset = s.offset := rfl
@[simp] theorem State.taken_value (s : State) : s.taken.value = s.value := rfl
@[simp] theorem State.taken_codeVal (s : State) : s.taken.codeVal = s.codeVal := rfl
@[simp] theorem State.taken_codeLen (s : State) : s.taken.codeLen = s.codeLen := rfl
@[simp] theorem State.taken_winD (s : State) : s.taken.winD = s.winD := rfl
@[simp] theorem State.taken_winI (s : State) : s.taken.winI = s.winI := rfl
@[simp] theorem State.taken_winBaseLo (s : State) : s.taken.winBaseLo = s.winBaseLo := rfl
@[simp] theorem State.taken_winBaseHi (s : State) : s.taken.winBaseHi = s.winBaseHi := rfl
@[simp] theorem State.taken_matchAcc (s : State) : s.taken.matchAcc = s.matchAcc := rfl
@[simp] theorem State.taken_buf (s : State) : s.taken.buf = s.buf := rfl
@[simp] theorem State.taken_pending (s : State) : s.taken.pending = s.pending.tail := rfl
@[simp] theorem State.taken_replies (s : State) : s.taken.replies = s.replies := rfl

/-! ## frozen -/

@[simp] theorem State.frozen_cfgOk (s : State) : s.frozen.cfgOk = true := rfl
@[simp] theorem State.frozen_keyValid (s : State) : s.frozen.keyValid = s.keyValid := rfl
@[simp] theorem State.frozen_msgValid (s : State) : s.frozen.msgValid = s.msgValid := rfl
@[simp] theorem State.frozen_valueValid (s : State) : s.frozen.valueValid = s.valueValid := rfl
@[simp] theorem State.frozen_codeValid (s : State) : s.frozen.codeValid = s.codeValid := rfl
@[simp] theorem State.frozen_winActive (s : State) : s.frozen.winActive = s.winActive := rfl
@[simp] theorem State.frozen_resultValid (s : State) : s.frozen.resultValid = s.resultValid := rfl
@[simp] theorem State.frozen_fault (s : State) : s.frozen.fault = s.fault := rfl
@[simp] theorem State.frozen_errCode (s : State) : s.frozen.errCode = s.errCode := rfl
@[simp] theorem State.frozen_errCmd (s : State) : s.frozen.errCmd = s.errCmd := rfl
@[simp] theorem State.frozen_cfgDigits (s : State) : s.frozen.cfgDigits = s.cfgDigits := rfl
@[simp] theorem State.frozen_cfgPeriod (s : State) : s.frozen.cfgPeriod = s.cfgPeriod := rfl
@[simp] theorem State.frozen_cfgAlg (s : State) : s.frozen.cfgAlg = s.cfgAlg := rfl
@[simp] theorem State.frozen_timeLo (s : State) : s.frozen.timeLo = s.timeLo := rfl
@[simp] theorem State.frozen_timeHi (s : State) : s.frozen.timeHi = s.timeHi := rfl
@[simp] theorem State.frozen_tmask (s : State) : s.frozen.tmask = s.tmask := rfl
@[simp] theorem State.frozen_textLen (s : State) : s.frozen.textLen = s.textLen := rfl
@[simp] theorem State.frozen_digestLen (s : State) : s.frozen.digestLen = s.digestLen := rfl
@[simp] theorem State.frozen_candLen (s : State) : s.frozen.candLen = s.candLen := rfl
@[simp] theorem State.frozen_keyLen (s : State) : s.frozen.keyLen = s.keyLen := rfl
@[simp] theorem State.frozen_counterLo (s : State) : s.frozen.counterLo = s.counterLo := rfl
@[simp] theorem State.frozen_counterHi (s : State) : s.frozen.counterHi = s.counterHi := rfl
@[simp] theorem State.frozen_offset (s : State) : s.frozen.offset = s.offset := rfl
@[simp] theorem State.frozen_value (s : State) : s.frozen.value = s.value := rfl
@[simp] theorem State.frozen_codeVal (s : State) : s.frozen.codeVal = s.codeVal := rfl
@[simp] theorem State.frozen_codeLen (s : State) : s.frozen.codeLen = s.codeLen := rfl
@[simp] theorem State.frozen_winD (s : State) : s.frozen.winD = s.winD := rfl
@[simp] theorem State.frozen_winI (s : State) : s.frozen.winI = s.winI := rfl
@[simp] theorem State.frozen_winBaseLo (s : State) : s.frozen.winBaseLo = s.winBaseLo := rfl
@[simp] theorem State.frozen_winBaseHi (s : State) : s.frozen.winBaseHi = s.winBaseHi := rfl
@[simp] theorem State.frozen_matchAcc (s : State) : s.frozen.matchAcc = s.matchAcc := rfl
@[simp] theorem State.frozen_buf (s : State) : s.frozen.buf = s.buf := rfl
@[simp] theorem State.frozen_pending (s : State) : s.frozen.pending = s.pending := rfl
@[simp] theorem State.frozen_replies (s : State) : s.frozen.replies = s.replies := rfl

/-! ## keyCleared -/

@[simp] theorem State.keyCleared_cfgOk (s : State) : s.keyCleared.cfgOk = s.cfgOk := rfl
@[simp] theorem State.keyCleared_keyValid (s : State) : s.keyCleared.keyValid = false := rfl
@[simp] theorem State.keyCleared_msgValid (s : State) : s.keyCleared.msgValid = s.msgValid := rfl
@[simp] theorem State.keyCleared_valueValid (s : State) : s.keyCleared.valueValid = s.valueValid := rfl
@[simp] theorem State.keyCleared_codeValid (s : State) : s.keyCleared.codeValid = s.codeValid := rfl
@[simp] theorem State.keyCleared_winActive (s : State) : s.keyCleared.winActive = s.winActive := rfl
@[simp] theorem State.keyCleared_resultValid (s : State) : s.keyCleared.resultValid = s.resultValid := rfl
@[simp] theorem State.keyCleared_fault (s : State) : s.keyCleared.fault = s.fault := rfl
@[simp] theorem State.keyCleared_errCode (s : State) : s.keyCleared.errCode = s.errCode := rfl
@[simp] theorem State.keyCleared_errCmd (s : State) : s.keyCleared.errCmd = s.errCmd := rfl
@[simp] theorem State.keyCleared_cfgDigits (s : State) : s.keyCleared.cfgDigits = s.cfgDigits := rfl
@[simp] theorem State.keyCleared_cfgPeriod (s : State) : s.keyCleared.cfgPeriod = s.cfgPeriod := rfl
@[simp] theorem State.keyCleared_cfgAlg (s : State) : s.keyCleared.cfgAlg = s.cfgAlg := rfl
@[simp] theorem State.keyCleared_timeLo (s : State) : s.keyCleared.timeLo = s.timeLo := rfl
@[simp] theorem State.keyCleared_timeHi (s : State) : s.keyCleared.timeHi = s.timeHi := rfl
@[simp] theorem State.keyCleared_tmask (s : State) : s.keyCleared.tmask = s.tmask := rfl
@[simp] theorem State.keyCleared_textLen (s : State) : s.keyCleared.textLen = s.textLen := rfl
@[simp] theorem State.keyCleared_digestLen (s : State) : s.keyCleared.digestLen = s.digestLen := rfl
@[simp] theorem State.keyCleared_candLen (s : State) : s.keyCleared.candLen = s.candLen := rfl
@[simp] theorem State.keyCleared_keyLen (s : State) : s.keyCleared.keyLen = s.keyLen := rfl
@[simp] theorem State.keyCleared_counterLo (s : State) : s.keyCleared.counterLo = s.counterLo := rfl
@[simp] theorem State.keyCleared_counterHi (s : State) : s.keyCleared.counterHi = s.counterHi := rfl
@[simp] theorem State.keyCleared_offset (s : State) : s.keyCleared.offset = s.offset := rfl
@[simp] theorem State.keyCleared_value (s : State) : s.keyCleared.value = s.value := rfl
@[simp] theorem State.keyCleared_codeVal (s : State) : s.keyCleared.codeVal = s.codeVal := rfl
@[simp] theorem State.keyCleared_codeLen (s : State) : s.keyCleared.codeLen = s.codeLen := rfl
@[simp] theorem State.keyCleared_winD (s : State) : s.keyCleared.winD = s.winD := rfl
@[simp] theorem State.keyCleared_winI (s : State) : s.keyCleared.winI = s.winI := rfl
@[simp] theorem State.keyCleared_winBaseLo (s : State) : s.keyCleared.winBaseLo = s.winBaseLo := rfl
@[simp] theorem State.keyCleared_winBaseHi (s : State) : s.keyCleared.winBaseHi = s.winBaseHi := rfl
@[simp] theorem State.keyCleared_matchAcc (s : State) : s.keyCleared.matchAcc = s.matchAcc := rfl
@[simp] theorem State.keyCleared_buf (s : State) : s.keyCleared.buf = s.buf := rfl
@[simp] theorem State.keyCleared_pending (s : State) : s.keyCleared.pending = s.pending := rfl
@[simp] theorem State.keyCleared_replies (s : State) : s.keyCleared.replies = s.replies := rfl

/-! ## withKey -/

@[simp] theorem State.withKey_cfgOk (s : State) (out : List Byte) : (s.withKey out).cfgOk = s.cfgOk := rfl
@[simp] theorem State.withKey_keyValid (s : State) (out : List Byte) : (s.withKey out).keyValid = true := rfl
@[simp] theorem State.withKey_msgValid (s : State) (out : List Byte) : (s.withKey out).msgValid = s.msgValid := rfl
@[simp] theorem State.withKey_valueValid (s : State) (out : List Byte) : (s.withKey out).valueValid = s.valueValid := rfl
@[simp] theorem State.withKey_codeValid (s : State) (out : List Byte) : (s.withKey out).codeValid = s.codeValid := rfl
@[simp] theorem State.withKey_winActive (s : State) (out : List Byte) : (s.withKey out).winActive = s.winActive := rfl
@[simp] theorem State.withKey_resultValid (s : State) (out : List Byte) : (s.withKey out).resultValid = s.resultValid := rfl
@[simp] theorem State.withKey_fault (s : State) (out : List Byte) : (s.withKey out).fault = s.fault := rfl
@[simp] theorem State.withKey_errCode (s : State) (out : List Byte) : (s.withKey out).errCode = s.errCode := rfl
@[simp] theorem State.withKey_errCmd (s : State) (out : List Byte) : (s.withKey out).errCmd = s.errCmd := rfl
@[simp] theorem State.withKey_cfgDigits (s : State) (out : List Byte) : (s.withKey out).cfgDigits = s.cfgDigits := rfl
@[simp] theorem State.withKey_cfgPeriod (s : State) (out : List Byte) : (s.withKey out).cfgPeriod = s.cfgPeriod := rfl
@[simp] theorem State.withKey_cfgAlg (s : State) (out : List Byte) : (s.withKey out).cfgAlg = s.cfgAlg := rfl
@[simp] theorem State.withKey_timeLo (s : State) (out : List Byte) : (s.withKey out).timeLo = s.timeLo := rfl
@[simp] theorem State.withKey_timeHi (s : State) (out : List Byte) : (s.withKey out).timeHi = s.timeHi := rfl
@[simp] theorem State.withKey_tmask (s : State) (out : List Byte) : (s.withKey out).tmask = s.tmask := rfl
@[simp] theorem State.withKey_textLen (s : State) (out : List Byte) : (s.withKey out).textLen = s.textLen := rfl
@[simp] theorem State.withKey_digestLen (s : State) (out : List Byte) : (s.withKey out).digestLen = s.digestLen := rfl
@[simp] theorem State.withKey_candLen (s : State) (out : List Byte) : (s.withKey out).candLen = s.candLen := rfl
@[simp] theorem State.withKey_keyLen (s : State) (out : List Byte) : (s.withKey out).keyLen = BitVec.ofNat 32 out.length := rfl
@[simp] theorem State.withKey_counterLo (s : State) (out : List Byte) : (s.withKey out).counterLo = s.counterLo := rfl
@[simp] theorem State.withKey_counterHi (s : State) (out : List Byte) : (s.withKey out).counterHi = s.counterHi := rfl
@[simp] theorem State.withKey_offset (s : State) (out : List Byte) : (s.withKey out).offset = s.offset := rfl
@[simp] theorem State.withKey_value (s : State) (out : List Byte) : (s.withKey out).value = s.value := rfl
@[simp] theorem State.withKey_codeVal (s : State) (out : List Byte) : (s.withKey out).codeVal = s.codeVal := rfl
@[simp] theorem State.withKey_codeLen (s : State) (out : List Byte) : (s.withKey out).codeLen = s.codeLen := rfl
@[simp] theorem State.withKey_winD (s : State) (out : List Byte) : (s.withKey out).winD = s.winD := rfl
@[simp] theorem State.withKey_winI (s : State) (out : List Byte) : (s.withKey out).winI = s.winI := rfl
@[simp] theorem State.withKey_winBaseLo (s : State) (out : List Byte) : (s.withKey out).winBaseLo = s.winBaseLo := rfl
@[simp] theorem State.withKey_winBaseHi (s : State) (out : List Byte) : (s.withKey out).winBaseHi = s.winBaseHi := rfl
@[simp] theorem State.withKey_matchAcc (s : State) (out : List Byte) : (s.withKey out).matchAcc = s.matchAcc := rfl
@[simp] theorem State.withKey_buf (s : State) (out : List Byte) : (s.withKey out).buf = s.buf.writeBytes Config.keyBase (zeroFill Config.keyMax out) := rfl
@[simp] theorem State.withKey_pending (s : State) (out : List Byte) : (s.withKey out).pending = s.pending := rfl
@[simp] theorem State.withKey_replies (s : State) (out : List Byte) : (s.withKey out).replies = s.replies := rfl

/-! ## valueCleared -/

@[simp] theorem State.valueCleared_cfgOk (s : State) : s.valueCleared.cfgOk = s.cfgOk := rfl
@[simp] theorem State.valueCleared_keyValid (s : State) : s.valueCleared.keyValid = s.keyValid := rfl
@[simp] theorem State.valueCleared_msgValid (s : State) : s.valueCleared.msgValid = s.msgValid := rfl
@[simp] theorem State.valueCleared_valueValid (s : State) : s.valueCleared.valueValid = false := rfl
@[simp] theorem State.valueCleared_codeValid (s : State) : s.valueCleared.codeValid = false := rfl
@[simp] theorem State.valueCleared_winActive (s : State) : s.valueCleared.winActive = s.winActive := rfl
@[simp] theorem State.valueCleared_resultValid (s : State) : s.valueCleared.resultValid = s.resultValid := rfl
@[simp] theorem State.valueCleared_fault (s : State) : s.valueCleared.fault = s.fault := rfl
@[simp] theorem State.valueCleared_errCode (s : State) : s.valueCleared.errCode = s.errCode := rfl
@[simp] theorem State.valueCleared_errCmd (s : State) : s.valueCleared.errCmd = s.errCmd := rfl
@[simp] theorem State.valueCleared_cfgDigits (s : State) : s.valueCleared.cfgDigits = s.cfgDigits := rfl
@[simp] theorem State.valueCleared_cfgPeriod (s : State) : s.valueCleared.cfgPeriod = s.cfgPeriod := rfl
@[simp] theorem State.valueCleared_cfgAlg (s : State) : s.valueCleared.cfgAlg = s.cfgAlg := rfl
@[simp] theorem State.valueCleared_timeLo (s : State) : s.valueCleared.timeLo = s.timeLo := rfl
@[simp] theorem State.valueCleared_timeHi (s : State) : s.valueCleared.timeHi = s.timeHi := rfl
@[simp] theorem State.valueCleared_tmask (s : State) : s.valueCleared.tmask = s.tmask := rfl
@[simp] theorem State.valueCleared_textLen (s : State) : s.valueCleared.textLen = s.textLen := rfl
@[simp] theorem State.valueCleared_digestLen (s : State) : s.valueCleared.digestLen = s.digestLen := rfl
@[simp] theorem State.valueCleared_candLen (s : State) : s.valueCleared.candLen = s.candLen := rfl
@[simp] theorem State.valueCleared_keyLen (s : State) : s.valueCleared.keyLen = s.keyLen := rfl
@[simp] theorem State.valueCleared_counterLo (s : State) : s.valueCleared.counterLo = s.counterLo := rfl
@[simp] theorem State.valueCleared_counterHi (s : State) : s.valueCleared.counterHi = s.counterHi := rfl
@[simp] theorem State.valueCleared_offset (s : State) : s.valueCleared.offset = s.offset := rfl
@[simp] theorem State.valueCleared_value (s : State) : s.valueCleared.value = s.value := rfl
@[simp] theorem State.valueCleared_codeVal (s : State) : s.valueCleared.codeVal = s.codeVal := rfl
@[simp] theorem State.valueCleared_codeLen (s : State) : s.valueCleared.codeLen = s.codeLen := rfl
@[simp] theorem State.valueCleared_winD (s : State) : s.valueCleared.winD = s.winD := rfl
@[simp] theorem State.valueCleared_winI (s : State) : s.valueCleared.winI = s.winI := rfl
@[simp] theorem State.valueCleared_winBaseLo (s : State) : s.valueCleared.winBaseLo = s.winBaseLo := rfl
@[simp] theorem State.valueCleared_winBaseHi (s : State) : s.valueCleared.winBaseHi = s.winBaseHi := rfl
@[simp] theorem State.valueCleared_matchAcc (s : State) : s.valueCleared.matchAcc = s.matchAcc := rfl
@[simp] theorem State.valueCleared_buf (s : State) : s.valueCleared.buf = s.buf := rfl
@[simp] theorem State.valueCleared_pending (s : State) : s.valueCleared.pending = s.pending := rfl
@[simp] theorem State.valueCleared_replies (s : State) : s.valueCleared.replies = s.replies := rfl

/-! ## withValue -/

@[simp] theorem State.withValue_cfgOk (s : State) (o : BitVec 4) (v : BitVec 31) : (s.withValue o v).cfgOk = s.cfgOk := rfl
@[simp] theorem State.withValue_keyValid (s : State) (o : BitVec 4) (v : BitVec 31) : (s.withValue o v).keyValid = s.keyValid := rfl
@[simp] theorem State.withValue_msgValid (s : State) (o : BitVec 4) (v : BitVec 31) : (s.withValue o v).msgValid = s.msgValid := rfl
@[simp] theorem State.withValue_valueValid (s : State) (o : BitVec 4) (v : BitVec 31) : (s.withValue o v).valueValid = true := rfl
@[simp] theorem State.withValue_codeValid (s : State) (o : BitVec 4) (v : BitVec 31) : (s.withValue o v).codeValid = s.codeValid := rfl
@[simp] theorem State.withValue_winActive (s : State) (o : BitVec 4) (v : BitVec 31) : (s.withValue o v).winActive = s.winActive := rfl
@[simp] theorem State.withValue_resultValid (s : State) (o : BitVec 4) (v : BitVec 31) : (s.withValue o v).resultValid = s.resultValid := rfl
@[simp] theorem State.withValue_fault (s : State) (o : BitVec 4) (v : BitVec 31) : (s.withValue o v).fault = s.fault := rfl
@[simp] theorem State.withValue_errCode (s : State) (o : BitVec 4) (v : BitVec 31) : (s.withValue o v).errCode = s.errCode := rfl
@[simp] theorem State.withValue_errCmd (s : State) (o : BitVec 4) (v : BitVec 31) : (s.withValue o v).errCmd = s.errCmd := rfl
@[simp] theorem State.withValue_cfgDigits (s : State) (o : BitVec 4) (v : BitVec 31) : (s.withValue o v).cfgDigits = s.cfgDigits := rfl
@[simp] theorem State.withValue_cfgPeriod (s : State) (o : BitVec 4) (v : BitVec 31) : (s.withValue o v).cfgPeriod = s.cfgPeriod := rfl
@[simp] theorem State.withValue_cfgAlg (s : State) (o : BitVec 4) (v : BitVec 31) : (s.withValue o v).cfgAlg = s.cfgAlg := rfl
@[simp] theorem State.withValue_timeLo (s : State) (o : BitVec 4) (v : BitVec 31) : (s.withValue o v).timeLo = s.timeLo := rfl
@[simp] theorem State.withValue_timeHi (s : State) (o : BitVec 4) (v : BitVec 31) : (s.withValue o v).timeHi = s.timeHi := rfl
@[simp] theorem State.withValue_tmask (s : State) (o : BitVec 4) (v : BitVec 31) : (s.withValue o v).tmask = s.tmask := rfl
@[simp] theorem State.withValue_textLen (s : State) (o : BitVec 4) (v : BitVec 31) : (s.withValue o v).textLen = s.textLen := rfl
@[simp] theorem State.withValue_digestLen (s : State) (o : BitVec 4) (v : BitVec 31) : (s.withValue o v).digestLen = s.digestLen := rfl
@[simp] theorem State.withValue_candLen (s : State) (o : BitVec 4) (v : BitVec 31) : (s.withValue o v).candLen = s.candLen := rfl
@[simp] theorem State.withValue_keyLen (s : State) (o : BitVec 4) (v : BitVec 31) : (s.withValue o v).keyLen = s.keyLen := rfl
@[simp] theorem State.withValue_counterLo (s : State) (o : BitVec 4) (v : BitVec 31) : (s.withValue o v).counterLo = s.counterLo := rfl
@[simp] theorem State.withValue_counterHi (s : State) (o : BitVec 4) (v : BitVec 31) : (s.withValue o v).counterHi = s.counterHi := rfl
@[simp] theorem State.withValue_offset (s : State) (o : BitVec 4) (v : BitVec 31) : (s.withValue o v).offset = o := rfl
@[simp] theorem State.withValue_value (s : State) (o : BitVec 4) (v : BitVec 31) : (s.withValue o v).value = v := rfl
@[simp] theorem State.withValue_codeVal (s : State) (o : BitVec 4) (v : BitVec 31) : (s.withValue o v).codeVal = s.codeVal := rfl
@[simp] theorem State.withValue_codeLen (s : State) (o : BitVec 4) (v : BitVec 31) : (s.withValue o v).codeLen = s.codeLen := rfl
@[simp] theorem State.withValue_winD (s : State) (o : BitVec 4) (v : BitVec 31) : (s.withValue o v).winD = s.winD := rfl
@[simp] theorem State.withValue_winI (s : State) (o : BitVec 4) (v : BitVec 31) : (s.withValue o v).winI = s.winI := rfl
@[simp] theorem State.withValue_winBaseLo (s : State) (o : BitVec 4) (v : BitVec 31) : (s.withValue o v).winBaseLo = s.winBaseLo := rfl
@[simp] theorem State.withValue_winBaseHi (s : State) (o : BitVec 4) (v : BitVec 31) : (s.withValue o v).winBaseHi = s.winBaseHi := rfl
@[simp] theorem State.withValue_matchAcc (s : State) (o : BitVec 4) (v : BitVec 31) : (s.withValue o v).matchAcc = s.matchAcc := rfl
@[simp] theorem State.withValue_buf (s : State) (o : BitVec 4) (v : BitVec 31) : (s.withValue o v).buf = s.buf := rfl
@[simp] theorem State.withValue_pending (s : State) (o : BitVec 4) (v : BitVec 31) : (s.withValue o v).pending = s.pending := rfl
@[simp] theorem State.withValue_replies (s : State) (o : BitVec 4) (v : BitVec 31) : (s.withValue o v).replies = s.replies := rfl

/-! ## codeCleared -/

@[simp] theorem State.codeCleared_cfgOk (s : State) : s.codeCleared.cfgOk = s.cfgOk := rfl
@[simp] theorem State.codeCleared_keyValid (s : State) : s.codeCleared.keyValid = s.keyValid := rfl
@[simp] theorem State.codeCleared_msgValid (s : State) : s.codeCleared.msgValid = s.msgValid := rfl
@[simp] theorem State.codeCleared_valueValid (s : State) : s.codeCleared.valueValid = s.valueValid := rfl
@[simp] theorem State.codeCleared_codeValid (s : State) : s.codeCleared.codeValid = false := rfl
@[simp] theorem State.codeCleared_winActive (s : State) : s.codeCleared.winActive = s.winActive := rfl
@[simp] theorem State.codeCleared_resultValid (s : State) : s.codeCleared.resultValid = s.resultValid := rfl
@[simp] theorem State.codeCleared_fault (s : State) : s.codeCleared.fault = s.fault := rfl
@[simp] theorem State.codeCleared_errCode (s : State) : s.codeCleared.errCode = s.errCode := rfl
@[simp] theorem State.codeCleared_errCmd (s : State) : s.codeCleared.errCmd = s.errCmd := rfl
@[simp] theorem State.codeCleared_cfgDigits (s : State) : s.codeCleared.cfgDigits = s.cfgDigits := rfl
@[simp] theorem State.codeCleared_cfgPeriod (s : State) : s.codeCleared.cfgPeriod = s.cfgPeriod := rfl
@[simp] theorem State.codeCleared_cfgAlg (s : State) : s.codeCleared.cfgAlg = s.cfgAlg := rfl
@[simp] theorem State.codeCleared_timeLo (s : State) : s.codeCleared.timeLo = s.timeLo := rfl
@[simp] theorem State.codeCleared_timeHi (s : State) : s.codeCleared.timeHi = s.timeHi := rfl
@[simp] theorem State.codeCleared_tmask (s : State) : s.codeCleared.tmask = s.tmask := rfl
@[simp] theorem State.codeCleared_textLen (s : State) : s.codeCleared.textLen = s.textLen := rfl
@[simp] theorem State.codeCleared_digestLen (s : State) : s.codeCleared.digestLen = s.digestLen := rfl
@[simp] theorem State.codeCleared_candLen (s : State) : s.codeCleared.candLen = s.candLen := rfl
@[simp] theorem State.codeCleared_keyLen (s : State) : s.codeCleared.keyLen = s.keyLen := rfl
@[simp] theorem State.codeCleared_counterLo (s : State) : s.codeCleared.counterLo = s.counterLo := rfl
@[simp] theorem State.codeCleared_counterHi (s : State) : s.codeCleared.counterHi = s.counterHi := rfl
@[simp] theorem State.codeCleared_offset (s : State) : s.codeCleared.offset = s.offset := rfl
@[simp] theorem State.codeCleared_value (s : State) : s.codeCleared.value = s.value := rfl
@[simp] theorem State.codeCleared_codeVal (s : State) : s.codeCleared.codeVal = s.codeVal := rfl
@[simp] theorem State.codeCleared_codeLen (s : State) : s.codeCleared.codeLen = s.codeLen := rfl
@[simp] theorem State.codeCleared_winD (s : State) : s.codeCleared.winD = s.winD := rfl
@[simp] theorem State.codeCleared_winI (s : State) : s.codeCleared.winI = s.winI := rfl
@[simp] theorem State.codeCleared_winBaseLo (s : State) : s.codeCleared.winBaseLo = s.winBaseLo := rfl
@[simp] theorem State.codeCleared_winBaseHi (s : State) : s.codeCleared.winBaseHi = s.winBaseHi := rfl
@[simp] theorem State.codeCleared_matchAcc (s : State) : s.codeCleared.matchAcc = s.matchAcc := rfl
@[simp] theorem State.codeCleared_buf (s : State) : s.codeCleared.buf = s.buf := rfl
@[simp] theorem State.codeCleared_pending (s : State) : s.codeCleared.pending = s.pending := rfl
@[simp] theorem State.codeCleared_replies (s : State) : s.codeCleared.replies = s.replies := rfl

/-! ## withCode -/

@[simp] theorem State.withCode_cfgOk (s : State) (d : Word) (m : Nat) : (s.withCode d m).cfgOk = s.cfgOk := rfl
@[simp] theorem State.withCode_keyValid (s : State) (d : Word) (m : Nat) : (s.withCode d m).keyValid = s.keyValid := rfl
@[simp] theorem State.withCode_msgValid (s : State) (d : Word) (m : Nat) : (s.withCode d m).msgValid = s.msgValid := rfl
@[simp] theorem State.withCode_valueValid (s : State) (d : Word) (m : Nat) : (s.withCode d m).valueValid = s.valueValid := rfl
@[simp] theorem State.withCode_codeValid (s : State) (d : Word) (m : Nat) : (s.withCode d m).codeValid = true := rfl
@[simp] theorem State.withCode_winActive (s : State) (d : Word) (m : Nat) : (s.withCode d m).winActive = s.winActive := rfl
@[simp] theorem State.withCode_resultValid (s : State) (d : Word) (m : Nat) : (s.withCode d m).resultValid = s.resultValid := rfl
@[simp] theorem State.withCode_fault (s : State) (d : Word) (m : Nat) : (s.withCode d m).fault = s.fault := rfl
@[simp] theorem State.withCode_errCode (s : State) (d : Word) (m : Nat) : (s.withCode d m).errCode = s.errCode := rfl
@[simp] theorem State.withCode_errCmd (s : State) (d : Word) (m : Nat) : (s.withCode d m).errCmd = s.errCmd := rfl
@[simp] theorem State.withCode_cfgDigits (s : State) (d : Word) (m : Nat) : (s.withCode d m).cfgDigits = s.cfgDigits := rfl
@[simp] theorem State.withCode_cfgPeriod (s : State) (d : Word) (m : Nat) : (s.withCode d m).cfgPeriod = s.cfgPeriod := rfl
@[simp] theorem State.withCode_cfgAlg (s : State) (d : Word) (m : Nat) : (s.withCode d m).cfgAlg = s.cfgAlg := rfl
@[simp] theorem State.withCode_timeLo (s : State) (d : Word) (m : Nat) : (s.withCode d m).timeLo = s.timeLo := rfl
@[simp] theorem State.withCode_timeHi (s : State) (d : Word) (m : Nat) : (s.withCode d m).timeHi = s.timeHi := rfl
@[simp] theorem State.withCode_tmask (s : State) (d : Word) (m : Nat) : (s.withCode d m).tmask = s.tmask := rfl
@[simp] theorem State.withCode_textLen (s : State) (d : Word) (m : Nat) : (s.withCode d m).textLen = s.textLen := rfl
@[simp] theorem State.withCode_digestLen (s : State) (d : Word) (m : Nat) : (s.withCode d m).digestLen = s.digestLen := rfl
@[simp] theorem State.withCode_candLen (s : State) (d : Word) (m : Nat) : (s.withCode d m).candLen = s.candLen := rfl
@[simp] theorem State.withCode_keyLen (s : State) (d : Word) (m : Nat) : (s.withCode d m).keyLen = s.keyLen := rfl
@[simp] theorem State.withCode_counterLo (s : State) (d : Word) (m : Nat) : (s.withCode d m).counterLo = s.counterLo := rfl
@[simp] theorem State.withCode_counterHi (s : State) (d : Word) (m : Nat) : (s.withCode d m).counterHi = s.counterHi := rfl
@[simp] theorem State.withCode_offset (s : State) (d : Word) (m : Nat) : (s.withCode d m).offset = s.offset := rfl
@[simp] theorem State.withCode_value (s : State) (d : Word) (m : Nat) : (s.withCode d m).value = s.value := rfl
@[simp] theorem State.withCode_codeVal (s : State) (d : Word) (m : Nat) : (s.withCode d m).codeVal = BitVec.ofNat 32 m := rfl
@[simp] theorem State.withCode_codeLen (s : State) (d : Word) (m : Nat) : (s.withCode d m).codeLen = d := rfl
@[simp] theorem State.withCode_winD (s : State) (d : Word) (m : Nat) : (s.withCode d m).winD = s.winD := rfl
@[simp] theorem State.withCode_winI (s : State) (d : Word) (m : Nat) : (s.withCode d m).winI = s.winI := rfl
@[simp] theorem State.withCode_winBaseLo (s : State) (d : Word) (m : Nat) : (s.withCode d m).winBaseLo = s.winBaseLo := rfl
@[simp] theorem State.withCode_winBaseHi (s : State) (d : Word) (m : Nat) : (s.withCode d m).winBaseHi = s.winBaseHi := rfl
@[simp] theorem State.withCode_matchAcc (s : State) (d : Word) (m : Nat) : (s.withCode d m).matchAcc = s.matchAcc := rfl
@[simp] theorem State.withCode_buf (s : State) (d : Word) (m : Nat) : (s.withCode d m).buf = s.buf.writeBytes Config.codeBase (codeText d.toNat m) := rfl
@[simp] theorem State.withCode_pending (s : State) (d : Word) (m : Nat) : (s.withCode d m).pending = s.pending := rfl
@[simp] theorem State.withCode_replies (s : State) (d : Word) (m : Nat) : (s.withCode d m).replies = s.replies := rfl

/-! ## msgCleared -/

@[simp] theorem State.msgCleared_cfgOk (s : State) : s.msgCleared.cfgOk = s.cfgOk := rfl
@[simp] theorem State.msgCleared_keyValid (s : State) : s.msgCleared.keyValid = s.keyValid := rfl
@[simp] theorem State.msgCleared_msgValid (s : State) : s.msgCleared.msgValid = false := rfl
@[simp] theorem State.msgCleared_valueValid (s : State) : s.msgCleared.valueValid = s.valueValid := rfl
@[simp] theorem State.msgCleared_codeValid (s : State) : s.msgCleared.codeValid = s.codeValid := rfl
@[simp] theorem State.msgCleared_winActive (s : State) : s.msgCleared.winActive = s.winActive := rfl
@[simp] theorem State.msgCleared_resultValid (s : State) : s.msgCleared.resultValid = s.resultValid := rfl
@[simp] theorem State.msgCleared_fault (s : State) : s.msgCleared.fault = s.fault := rfl
@[simp] theorem State.msgCleared_errCode (s : State) : s.msgCleared.errCode = s.errCode := rfl
@[simp] theorem State.msgCleared_errCmd (s : State) : s.msgCleared.errCmd = s.errCmd := rfl
@[simp] theorem State.msgCleared_cfgDigits (s : State) : s.msgCleared.cfgDigits = s.cfgDigits := rfl
@[simp] theorem State.msgCleared_cfgPeriod (s : State) : s.msgCleared.cfgPeriod = s.cfgPeriod := rfl
@[simp] theorem State.msgCleared_cfgAlg (s : State) : s.msgCleared.cfgAlg = s.cfgAlg := rfl
@[simp] theorem State.msgCleared_timeLo (s : State) : s.msgCleared.timeLo = s.timeLo := rfl
@[simp] theorem State.msgCleared_timeHi (s : State) : s.msgCleared.timeHi = s.timeHi := rfl
@[simp] theorem State.msgCleared_tmask (s : State) : s.msgCleared.tmask = s.tmask := rfl
@[simp] theorem State.msgCleared_textLen (s : State) : s.msgCleared.textLen = s.textLen := rfl
@[simp] theorem State.msgCleared_digestLen (s : State) : s.msgCleared.digestLen = s.digestLen := rfl
@[simp] theorem State.msgCleared_candLen (s : State) : s.msgCleared.candLen = s.candLen := rfl
@[simp] theorem State.msgCleared_keyLen (s : State) : s.msgCleared.keyLen = s.keyLen := rfl
@[simp] theorem State.msgCleared_counterLo (s : State) : s.msgCleared.counterLo = s.counterLo := rfl
@[simp] theorem State.msgCleared_counterHi (s : State) : s.msgCleared.counterHi = s.counterHi := rfl
@[simp] theorem State.msgCleared_offset (s : State) : s.msgCleared.offset = s.offset := rfl
@[simp] theorem State.msgCleared_value (s : State) : s.msgCleared.value = s.value := rfl
@[simp] theorem State.msgCleared_codeVal (s : State) : s.msgCleared.codeVal = s.codeVal := rfl
@[simp] theorem State.msgCleared_codeLen (s : State) : s.msgCleared.codeLen = s.codeLen := rfl
@[simp] theorem State.msgCleared_winD (s : State) : s.msgCleared.winD = s.winD := rfl
@[simp] theorem State.msgCleared_winI (s : State) : s.msgCleared.winI = s.winI := rfl
@[simp] theorem State.msgCleared_winBaseLo (s : State) : s.msgCleared.winBaseLo = s.winBaseLo := rfl
@[simp] theorem State.msgCleared_winBaseHi (s : State) : s.msgCleared.winBaseHi = s.winBaseHi := rfl
@[simp] theorem State.msgCleared_matchAcc (s : State) : s.msgCleared.matchAcc = s.matchAcc := rfl
@[simp] theorem State.msgCleared_buf (s : State) : s.msgCleared.buf = s.buf := rfl
@[simp] theorem State.msgCleared_pending (s : State) : s.msgCleared.pending = s.pending := rfl
@[simp] theorem State.msgCleared_replies (s : State) : s.msgCleared.replies = s.replies := rfl

/-! ## withCounter -/

@[simp] theorem State.withCounter_cfgOk (s : State) (c : Dword) : (s.withCounter c).cfgOk = s.cfgOk := rfl
@[simp] theorem State.withCounter_keyValid (s : State) (c : Dword) : (s.withCounter c).keyValid = s.keyValid := rfl
@[simp] theorem State.withCounter_msgValid (s : State) (c : Dword) : (s.withCounter c).msgValid = true := rfl
@[simp] theorem State.withCounter_valueValid (s : State) (c : Dword) : (s.withCounter c).valueValid = s.valueValid := rfl
@[simp] theorem State.withCounter_codeValid (s : State) (c : Dword) : (s.withCounter c).codeValid = s.codeValid := rfl
@[simp] theorem State.withCounter_winActive (s : State) (c : Dword) : (s.withCounter c).winActive = s.winActive := rfl
@[simp] theorem State.withCounter_resultValid (s : State) (c : Dword) : (s.withCounter c).resultValid = s.resultValid := rfl
@[simp] theorem State.withCounter_fault (s : State) (c : Dword) : (s.withCounter c).fault = s.fault := rfl
@[simp] theorem State.withCounter_errCode (s : State) (c : Dword) : (s.withCounter c).errCode = s.errCode := rfl
@[simp] theorem State.withCounter_errCmd (s : State) (c : Dword) : (s.withCounter c).errCmd = s.errCmd := rfl
@[simp] theorem State.withCounter_cfgDigits (s : State) (c : Dword) : (s.withCounter c).cfgDigits = s.cfgDigits := rfl
@[simp] theorem State.withCounter_cfgPeriod (s : State) (c : Dword) : (s.withCounter c).cfgPeriod = s.cfgPeriod := rfl
@[simp] theorem State.withCounter_cfgAlg (s : State) (c : Dword) : (s.withCounter c).cfgAlg = s.cfgAlg := rfl
@[simp] theorem State.withCounter_timeLo (s : State) (c : Dword) : (s.withCounter c).timeLo = s.timeLo := rfl
@[simp] theorem State.withCounter_timeHi (s : State) (c : Dword) : (s.withCounter c).timeHi = s.timeHi := rfl
@[simp] theorem State.withCounter_tmask (s : State) (c : Dword) : (s.withCounter c).tmask = s.tmask := rfl
@[simp] theorem State.withCounter_textLen (s : State) (c : Dword) : (s.withCounter c).textLen = s.textLen := rfl
@[simp] theorem State.withCounter_digestLen (s : State) (c : Dword) : (s.withCounter c).digestLen = s.digestLen := rfl
@[simp] theorem State.withCounter_candLen (s : State) (c : Dword) : (s.withCounter c).candLen = s.candLen := rfl
@[simp] theorem State.withCounter_keyLen (s : State) (c : Dword) : (s.withCounter c).keyLen = s.keyLen := rfl
@[simp] theorem State.withCounter_counterLo (s : State) (c : Dword) : (s.withCounter c).counterLo = loHalf c := rfl
@[simp] theorem State.withCounter_counterHi (s : State) (c : Dword) : (s.withCounter c).counterHi = hiHalf c := rfl
@[simp] theorem State.withCounter_offset (s : State) (c : Dword) : (s.withCounter c).offset = s.offset := rfl
@[simp] theorem State.withCounter_value (s : State) (c : Dword) : (s.withCounter c).value = s.value := rfl
@[simp] theorem State.withCounter_codeVal (s : State) (c : Dword) : (s.withCounter c).codeVal = s.codeVal := rfl
@[simp] theorem State.withCounter_codeLen (s : State) (c : Dword) : (s.withCounter c).codeLen = s.codeLen := rfl
@[simp] theorem State.withCounter_winD (s : State) (c : Dword) : (s.withCounter c).winD = s.winD := rfl
@[simp] theorem State.withCounter_winI (s : State) (c : Dword) : (s.withCounter c).winI = s.winI := rfl
@[simp] theorem State.withCounter_winBaseLo (s : State) (c : Dword) : (s.withCounter c).winBaseLo = s.winBaseLo := rfl
@[simp] theorem State.withCounter_winBaseHi (s : State) (c : Dword) : (s.withCounter c).winBaseHi = s.winBaseHi := rfl
@[simp] theorem State.withCounter_matchAcc (s : State) (c : Dword) : (s.withCounter c).matchAcc = s.matchAcc := rfl
@[simp] theorem State.withCounter_buf (s : State) (c : Dword) : (s.withCounter c).buf = s.buf.writeBytes Config.msgBase (be64 c) := rfl
@[simp] theorem State.withCounter_pending (s : State) (c : Dword) : (s.withCounter c).pending = s.pending := rfl
@[simp] theorem State.withCounter_replies (s : State) (c : Dword) : (s.withCounter c).replies = s.replies := rfl

/-! ## windowDropped -/

@[simp] theorem State.windowDropped_cfgOk (s : State) : s.windowDropped.cfgOk = s.cfgOk := rfl
@[simp] theorem State.windowDropped_keyValid (s : State) : s.windowDropped.keyValid = s.keyValid := rfl
@[simp] theorem State.windowDropped_msgValid (s : State) : s.windowDropped.msgValid = s.msgValid := rfl
@[simp] theorem State.windowDropped_valueValid (s : State) : s.windowDropped.valueValid = s.valueValid := rfl
@[simp] theorem State.windowDropped_codeValid (s : State) : s.windowDropped.codeValid = s.codeValid := rfl
@[simp] theorem State.windowDropped_winActive (s : State) : s.windowDropped.winActive = false := rfl
@[simp] theorem State.windowDropped_resultValid (s : State) : s.windowDropped.resultValid = false := rfl
@[simp] theorem State.windowDropped_fault (s : State) : s.windowDropped.fault = s.fault := rfl
@[simp] theorem State.windowDropped_errCode (s : State) : s.windowDropped.errCode = s.errCode := rfl
@[simp] theorem State.windowDropped_errCmd (s : State) : s.windowDropped.errCmd = s.errCmd := rfl
@[simp] theorem State.windowDropped_cfgDigits (s : State) : s.windowDropped.cfgDigits = s.cfgDigits := rfl
@[simp] theorem State.windowDropped_cfgPeriod (s : State) : s.windowDropped.cfgPeriod = s.cfgPeriod := rfl
@[simp] theorem State.windowDropped_cfgAlg (s : State) : s.windowDropped.cfgAlg = s.cfgAlg := rfl
@[simp] theorem State.windowDropped_timeLo (s : State) : s.windowDropped.timeLo = s.timeLo := rfl
@[simp] theorem State.windowDropped_timeHi (s : State) : s.windowDropped.timeHi = s.timeHi := rfl
@[simp] theorem State.windowDropped_tmask (s : State) : s.windowDropped.tmask = s.tmask := rfl
@[simp] theorem State.windowDropped_textLen (s : State) : s.windowDropped.textLen = s.textLen := rfl
@[simp] theorem State.windowDropped_digestLen (s : State) : s.windowDropped.digestLen = s.digestLen := rfl
@[simp] theorem State.windowDropped_candLen (s : State) : s.windowDropped.candLen = s.candLen := rfl
@[simp] theorem State.windowDropped_keyLen (s : State) : s.windowDropped.keyLen = s.keyLen := rfl
@[simp] theorem State.windowDropped_counterLo (s : State) : s.windowDropped.counterLo = s.counterLo := rfl
@[simp] theorem State.windowDropped_counterHi (s : State) : s.windowDropped.counterHi = s.counterHi := rfl
@[simp] theorem State.windowDropped_offset (s : State) : s.windowDropped.offset = s.offset := rfl
@[simp] theorem State.windowDropped_value (s : State) : s.windowDropped.value = s.value := rfl
@[simp] theorem State.windowDropped_codeVal (s : State) : s.windowDropped.codeVal = s.codeVal := rfl
@[simp] theorem State.windowDropped_codeLen (s : State) : s.windowDropped.codeLen = s.codeLen := rfl
@[simp] theorem State.windowDropped_winD (s : State) : s.windowDropped.winD = s.winD := rfl
@[simp] theorem State.windowDropped_winI (s : State) : s.windowDropped.winI = s.winI := rfl
@[simp] theorem State.windowDropped_winBaseLo (s : State) : s.windowDropped.winBaseLo = s.winBaseLo := rfl
@[simp] theorem State.windowDropped_winBaseHi (s : State) : s.windowDropped.winBaseHi = s.winBaseHi := rfl
@[simp] theorem State.windowDropped_matchAcc (s : State) : s.windowDropped.matchAcc = false := rfl
@[simp] theorem State.windowDropped_buf (s : State) : s.windowDropped.buf = s.buf := rfl
@[simp] theorem State.windowDropped_pending (s : State) : s.windowDropped.pending = s.pending := rfl
@[simp] theorem State.windowDropped_replies (s : State) : s.windowDropped.replies = s.replies := rfl

/-! ## windowOpened -/

@[simp] theorem State.windowOpened_cfgOk (s : State) (d : Int) (b : Dword) : (s.windowOpened d b).cfgOk = s.cfgOk := rfl
@[simp] theorem State.windowOpened_keyValid (s : State) (d : Int) (b : Dword) : (s.windowOpened d b).keyValid = s.keyValid := rfl
@[simp] theorem State.windowOpened_msgValid (s : State) (d : Int) (b : Dword) : (s.windowOpened d b).msgValid = s.msgValid := rfl
@[simp] theorem State.windowOpened_valueValid (s : State) (d : Int) (b : Dword) : (s.windowOpened d b).valueValid = s.valueValid := rfl
@[simp] theorem State.windowOpened_codeValid (s : State) (d : Int) (b : Dword) : (s.windowOpened d b).codeValid = s.codeValid := rfl
@[simp] theorem State.windowOpened_winActive (s : State) (d : Int) (b : Dword) : (s.windowOpened d b).winActive = true := rfl
@[simp] theorem State.windowOpened_resultValid (s : State) (d : Int) (b : Dword) : (s.windowOpened d b).resultValid = s.resultValid := rfl
@[simp] theorem State.windowOpened_fault (s : State) (d : Int) (b : Dword) : (s.windowOpened d b).fault = s.fault := rfl
@[simp] theorem State.windowOpened_errCode (s : State) (d : Int) (b : Dword) : (s.windowOpened d b).errCode = s.errCode := rfl
@[simp] theorem State.windowOpened_errCmd (s : State) (d : Int) (b : Dword) : (s.windowOpened d b).errCmd = s.errCmd := rfl
@[simp] theorem State.windowOpened_cfgDigits (s : State) (d : Int) (b : Dword) : (s.windowOpened d b).cfgDigits = s.cfgDigits := rfl
@[simp] theorem State.windowOpened_cfgPeriod (s : State) (d : Int) (b : Dword) : (s.windowOpened d b).cfgPeriod = s.cfgPeriod := rfl
@[simp] theorem State.windowOpened_cfgAlg (s : State) (d : Int) (b : Dword) : (s.windowOpened d b).cfgAlg = s.cfgAlg := rfl
@[simp] theorem State.windowOpened_timeLo (s : State) (d : Int) (b : Dword) : (s.windowOpened d b).timeLo = s.timeLo := rfl
@[simp] theorem State.windowOpened_timeHi (s : State) (d : Int) (b : Dword) : (s.windowOpened d b).timeHi = s.timeHi := rfl
@[simp] theorem State.windowOpened_tmask (s : State) (d : Int) (b : Dword) : (s.windowOpened d b).tmask = s.tmask := rfl
@[simp] theorem State.windowOpened_textLen (s : State) (d : Int) (b : Dword) : (s.windowOpened d b).textLen = s.textLen := rfl
@[simp] theorem State.windowOpened_digestLen (s : State) (d : Int) (b : Dword) : (s.windowOpened d b).digestLen = s.digestLen := rfl
@[simp] theorem State.windowOpened_candLen (s : State) (d : Int) (b : Dword) : (s.windowOpened d b).candLen = s.candLen := rfl
@[simp] theorem State.windowOpened_keyLen (s : State) (d : Int) (b : Dword) : (s.windowOpened d b).keyLen = s.keyLen := rfl
@[simp] theorem State.windowOpened_counterLo (s : State) (d : Int) (b : Dword) : (s.windowOpened d b).counterLo = s.counterLo := rfl
@[simp] theorem State.windowOpened_counterHi (s : State) (d : Int) (b : Dword) : (s.windowOpened d b).counterHi = s.counterHi := rfl
@[simp] theorem State.windowOpened_offset (s : State) (d : Int) (b : Dword) : (s.windowOpened d b).offset = s.offset := rfl
@[simp] theorem State.windowOpened_value (s : State) (d : Int) (b : Dword) : (s.windowOpened d b).value = s.value := rfl
@[simp] theorem State.windowOpened_codeVal (s : State) (d : Int) (b : Dword) : (s.windowOpened d b).codeVal = s.codeVal := rfl
@[simp] theorem State.windowOpened_codeLen (s : State) (d : Int) (b : Dword) : (s.windowOpened d b).codeLen = s.codeLen := rfl
@[simp] theorem State.windowOpened_winD (s : State) (d : Int) (b : Dword) : (s.windowOpened d b).winD = BitVec.ofInt 32 d := rfl
@[simp] theorem State.windowOpened_winI (s : State) (d : Int) (b : Dword) : (s.windowOpened d b).winI = BitVec.ofInt 32 (-d) := rfl
@[simp] theorem State.windowOpened_winBaseLo (s : State) (d : Int) (b : Dword) : (s.windowOpened d b).winBaseLo = loHalf b := rfl
@[simp] theorem State.windowOpened_winBaseHi (s : State) (d : Int) (b : Dword) : (s.windowOpened d b).winBaseHi = hiHalf b := rfl
@[simp] theorem State.windowOpened_matchAcc (s : State) (d : Int) (b : Dword) : (s.windowOpened d b).matchAcc = s.matchAcc := rfl
@[simp] theorem State.windowOpened_buf (s : State) (d : Int) (b : Dword) : (s.windowOpened d b).buf = s.buf := rfl
@[simp] theorem State.windowOpened_pending (s : State) (d : Int) (b : Dword) : (s.windowOpened d b).pending = s.pending := rfl
@[simp] theorem State.windowOpened_replies (s : State) (d : Int) (b : Dword) : (s.windowOpened d b).replies = s.replies := rfl

/-! ## resultDropped -/

@[simp] theorem State.resultDropped_cfgOk (s : State) : s.resultDropped.cfgOk = s.cfgOk := rfl
@[simp] theorem State.resultDropped_keyValid (s : State) : s.resultDropped.keyValid = s.keyValid := rfl
@[simp] theorem State.resultDropped_msgValid (s : State) : s.resultDropped.msgValid = s.msgValid := rfl
@[simp] theorem State.resultDropped_valueValid (s : State) : s.resultDropped.valueValid = s.valueValid := rfl
@[simp] theorem State.resultDropped_codeValid (s : State) : s.resultDropped.codeValid = s.codeValid := rfl
@[simp] theorem State.resultDropped_winActive (s : State) : s.resultDropped.winActive = s.winActive := rfl
@[simp] theorem State.resultDropped_resultValid (s : State) : s.resultDropped.resultValid = false := rfl
@[simp] theorem State.resultDropped_fault (s : State) : s.resultDropped.fault = s.fault := rfl
@[simp] theorem State.resultDropped_errCode (s : State) : s.resultDropped.errCode = s.errCode := rfl
@[simp] theorem State.resultDropped_errCmd (s : State) : s.resultDropped.errCmd = s.errCmd := rfl
@[simp] theorem State.resultDropped_cfgDigits (s : State) : s.resultDropped.cfgDigits = s.cfgDigits := rfl
@[simp] theorem State.resultDropped_cfgPeriod (s : State) : s.resultDropped.cfgPeriod = s.cfgPeriod := rfl
@[simp] theorem State.resultDropped_cfgAlg (s : State) : s.resultDropped.cfgAlg = s.cfgAlg := rfl
@[simp] theorem State.resultDropped_timeLo (s : State) : s.resultDropped.timeLo = s.timeLo := rfl
@[simp] theorem State.resultDropped_timeHi (s : State) : s.resultDropped.timeHi = s.timeHi := rfl
@[simp] theorem State.resultDropped_tmask (s : State) : s.resultDropped.tmask = s.tmask := rfl
@[simp] theorem State.resultDropped_textLen (s : State) : s.resultDropped.textLen = s.textLen := rfl
@[simp] theorem State.resultDropped_digestLen (s : State) : s.resultDropped.digestLen = s.digestLen := rfl
@[simp] theorem State.resultDropped_candLen (s : State) : s.resultDropped.candLen = s.candLen := rfl
@[simp] theorem State.resultDropped_keyLen (s : State) : s.resultDropped.keyLen = s.keyLen := rfl
@[simp] theorem State.resultDropped_counterLo (s : State) : s.resultDropped.counterLo = s.counterLo := rfl
@[simp] theorem State.resultDropped_counterHi (s : State) : s.resultDropped.counterHi = s.counterHi := rfl
@[simp] theorem State.resultDropped_offset (s : State) : s.resultDropped.offset = s.offset := rfl
@[simp] theorem State.resultDropped_value (s : State) : s.resultDropped.value = s.value := rfl
@[simp] theorem State.resultDropped_codeVal (s : State) : s.resultDropped.codeVal = s.codeVal := rfl
@[simp] theorem State.resultDropped_codeLen (s : State) : s.resultDropped.codeLen = s.codeLen := rfl
@[simp] theorem State.resultDropped_winD (s : State) : s.resultDropped.winD = s.winD := rfl
@[simp] theorem State.resultDropped_winI (s : State) : s.resultDropped.winI = s.winI := rfl
@[simp] theorem State.resultDropped_winBaseLo (s : State) : s.resultDropped.winBaseLo = s.winBaseLo := rfl
@[simp] theorem State.resultDropped_winBaseHi (s : State) : s.resultDropped.winBaseHi = s.winBaseHi := rfl
@[simp] theorem State.resultDropped_matchAcc (s : State) : s.resultDropped.matchAcc = false := rfl
@[simp] theorem State.resultDropped_buf (s : State) : s.resultDropped.buf = s.buf := rfl
@[simp] theorem State.resultDropped_pending (s : State) : s.resultDropped.pending = s.pending := rfl
@[simp] theorem State.resultDropped_replies (s : State) : s.resultDropped.replies = s.replies := rfl

/-! ## withResult -/

@[simp] theorem State.withResult_cfgOk (s : State) (e : Bool) : (s.withResult e).cfgOk = s.cfgOk := rfl
@[simp] theorem State.withResult_keyValid (s : State) (e : Bool) : (s.withResult e).keyValid = s.keyValid := rfl
@[simp] theorem State.withResult_msgValid (s : State) (e : Bool) : (s.withResult e).msgValid = s.msgValid := rfl
@[simp] theorem State.withResult_valueValid (s : State) (e : Bool) : (s.withResult e).valueValid = s.valueValid := rfl
@[simp] theorem State.withResult_codeValid (s : State) (e : Bool) : (s.withResult e).codeValid = s.codeValid := rfl
@[simp] theorem State.withResult_winActive (s : State) (e : Bool) : (s.withResult e).winActive = s.winActive := rfl
@[simp] theorem State.withResult_resultValid (s : State) (e : Bool) : (s.withResult e).resultValid = true := rfl
@[simp] theorem State.withResult_fault (s : State) (e : Bool) : (s.withResult e).fault = s.fault := rfl
@[simp] theorem State.withResult_errCode (s : State) (e : Bool) : (s.withResult e).errCode = s.errCode := rfl
@[simp] theorem State.withResult_errCmd (s : State) (e : Bool) : (s.withResult e).errCmd = s.errCmd := rfl
@[simp] theorem State.withResult_cfgDigits (s : State) (e : Bool) : (s.withResult e).cfgDigits = s.cfgDigits := rfl
@[simp] theorem State.withResult_cfgPeriod (s : State) (e : Bool) : (s.withResult e).cfgPeriod = s.cfgPeriod := rfl
@[simp] theorem State.withResult_cfgAlg (s : State) (e : Bool) : (s.withResult e).cfgAlg = s.cfgAlg := rfl
@[simp] theorem State.withResult_timeLo (s : State) (e : Bool) : (s.withResult e).timeLo = s.timeLo := rfl
@[simp] theorem State.withResult_timeHi (s : State) (e : Bool) : (s.withResult e).timeHi = s.timeHi := rfl
@[simp] theorem State.withResult_tmask (s : State) (e : Bool) : (s.withResult e).tmask = s.tmask := rfl
@[simp] theorem State.withResult_textLen (s : State) (e : Bool) : (s.withResult e).textLen = s.textLen := rfl
@[simp] theorem State.withResult_digestLen (s : State) (e : Bool) : (s.withResult e).digestLen = s.digestLen := rfl
@[simp] theorem State.withResult_candLen (s : State) (e : Bool) : (s.withResult e).candLen = s.candLen := rfl
@[simp] theorem State.withResult_keyLen (s : State) (e : Bool) : (s.withResult e).keyLen = s.keyLen := rfl
@[simp] theorem State.withResult_counterLo (s : State) (e : Bool) : (s.withResult e).counterLo = s.counterLo := rfl
@[simp] theorem State.withResult_counterHi (s : State) (e : Bool) : (s.withResult e).counterHi = s.counterHi := rfl
@[simp] theorem State.withResult_offset (s : State) (e : Bool) : (s.withResult e).offset = s.offset := rfl
@[simp] theorem State.withResult_value (s : State) (e : Bool) : (s.withResult e).value = s.value := rfl
@[simp] theorem State.withResult_codeVal (s : State) (e : Bool) : (s.withResult e).codeVal = s.codeVal := rfl
@[simp] theorem State.withResult_codeLen (s : State) (e : Bool) : (s.withResult e).codeLen = s.codeLen := rfl
@[simp] theorem State.withResult_winD (s : State) (e : Bool) : (s.withResult e).winD = s.winD := rfl
@[simp] theorem State.withResult_winI (s : State) (e : Bool) : (s.withResult e).winI = s.winI := rfl
@[simp] theorem State.withResult_winBaseLo (s : State) (e : Bool) : (s.withResult e).winBaseLo = s.winBaseLo := rfl
@[simp] theorem State.withResult_winBaseHi (s : State) (e : Bool) : (s.withResult e).winBaseHi = s.winBaseHi := rfl
@[simp] theorem State.withResult_matchAcc (s : State) (e : Bool) : (s.withResult e).matchAcc = e := rfl
@[simp] theorem State.withResult_buf (s : State) (e : Bool) : (s.withResult e).buf = s.buf := rfl
@[simp] theorem State.withResult_pending (s : State) (e : Bool) : (s.withResult e).pending = s.pending := rfl
@[simp] theorem State.withResult_replies (s : State) (e : Bool) : (s.withResult e).replies = s.replies := rfl

/-! ## accumulated -/

@[simp] theorem State.accumulated_cfgOk (s : State) (e : Bool) : (s.accumulated e).cfgOk = s.cfgOk := rfl
@[simp] theorem State.accumulated_keyValid (s : State) (e : Bool) : (s.accumulated e).keyValid = s.keyValid := rfl
@[simp] theorem State.accumulated_msgValid (s : State) (e : Bool) : (s.accumulated e).msgValid = s.msgValid := rfl
@[simp] theorem State.accumulated_valueValid (s : State) (e : Bool) : (s.accumulated e).valueValid = false := rfl
@[simp] theorem State.accumulated_codeValid (s : State) (e : Bool) : (s.accumulated e).codeValid = false := rfl
@[simp] theorem State.accumulated_winActive (s : State) (e : Bool) : (s.accumulated e).winActive = s.winActive := rfl
@[simp] theorem State.accumulated_resultValid (s : State) (e : Bool) : (s.accumulated e).resultValid = s.resultValid := rfl
@[simp] theorem State.accumulated_fault (s : State) (e : Bool) : (s.accumulated e).fault = s.fault := rfl
@[simp] theorem State.accumulated_errCode (s : State) (e : Bool) : (s.accumulated e).errCode = s.errCode := rfl
@[simp] theorem State.accumulated_errCmd (s : State) (e : Bool) : (s.accumulated e).errCmd = s.errCmd := rfl
@[simp] theorem State.accumulated_cfgDigits (s : State) (e : Bool) : (s.accumulated e).cfgDigits = s.cfgDigits := rfl
@[simp] theorem State.accumulated_cfgPeriod (s : State) (e : Bool) : (s.accumulated e).cfgPeriod = s.cfgPeriod := rfl
@[simp] theorem State.accumulated_cfgAlg (s : State) (e : Bool) : (s.accumulated e).cfgAlg = s.cfgAlg := rfl
@[simp] theorem State.accumulated_timeLo (s : State) (e : Bool) : (s.accumulated e).timeLo = s.timeLo := rfl
@[simp] theorem State.accumulated_timeHi (s : State) (e : Bool) : (s.accumulated e).timeHi = s.timeHi := rfl
@[simp] theorem State.accumulated_tmask (s : State) (e : Bool) : (s.accumulated e).tmask = s.tmask := rfl
@[simp] theorem State.accumulated_textLen (s : State) (e : Bool) : (s.accumulated e).textLen = s.textLen := rfl
@[simp] theorem State.accumulated_digestLen (s : State) (e : Bool) : (s.accumulated e).digestLen = s.digestLen := rfl
@[simp] theorem State.accumulated_candLen (s : State) (e : Bool) : (s.accumulated e).candLen = s.candLen := rfl
@[simp] theorem State.accumulated_keyLen (s : State) (e : Bool) : (s.accumulated e).keyLen = s.keyLen := rfl
@[simp] theorem State.accumulated_counterLo (s : State) (e : Bool) : (s.accumulated e).counterLo = s.counterLo := rfl
@[simp] theorem State.accumulated_counterHi (s : State) (e : Bool) : (s.accumulated e).counterHi = s.counterHi := rfl
@[simp] theorem State.accumulated_offset (s : State) (e : Bool) : (s.accumulated e).offset = s.offset := rfl
@[simp] theorem State.accumulated_value (s : State) (e : Bool) : (s.accumulated e).value = s.value := rfl
@[simp] theorem State.accumulated_codeVal (s : State) (e : Bool) : (s.accumulated e).codeVal = s.codeVal := rfl
@[simp] theorem State.accumulated_codeLen (s : State) (e : Bool) : (s.accumulated e).codeLen = s.codeLen := rfl
@[simp] theorem State.accumulated_winD (s : State) (e : Bool) : (s.accumulated e).winD = s.winD := rfl
@[simp] theorem State.accumulated_winI (s : State) (e : Bool) : (s.accumulated e).winI = s.winI := rfl
@[simp] theorem State.accumulated_winBaseLo (s : State) (e : Bool) : (s.accumulated e).winBaseLo = s.winBaseLo := rfl
@[simp] theorem State.accumulated_winBaseHi (s : State) (e : Bool) : (s.accumulated e).winBaseHi = s.winBaseHi := rfl
@[simp] theorem State.accumulated_matchAcc (s : State) (e : Bool) : (s.accumulated e).matchAcc = (s.matchAcc || e) := rfl
@[simp] theorem State.accumulated_buf (s : State) (e : Bool) : (s.accumulated e).buf = s.buf := rfl
@[simp] theorem State.accumulated_pending (s : State) (e : Bool) : (s.accumulated e).pending = s.pending := rfl
@[simp] theorem State.accumulated_replies (s : State) (e : Bool) : (s.accumulated e).replies = s.replies := rfl

/-! ## windowClosed -/

@[simp] theorem State.windowClosed_cfgOk (s : State) : s.windowClosed.cfgOk = s.cfgOk := rfl
@[simp] theorem State.windowClosed_keyValid (s : State) : s.windowClosed.keyValid = s.keyValid := rfl
@[simp] theorem State.windowClosed_msgValid (s : State) : s.windowClosed.msgValid = s.msgValid := rfl
@[simp] theorem State.windowClosed_valueValid (s : State) : s.windowClosed.valueValid = s.valueValid := rfl
@[simp] theorem State.windowClosed_codeValid (s : State) : s.windowClosed.codeValid = s.codeValid := rfl
@[simp] theorem State.windowClosed_winActive (s : State) : s.windowClosed.winActive = false := rfl
@[simp] theorem State.windowClosed_resultValid (s : State) : s.windowClosed.resultValid = true := rfl
@[simp] theorem State.windowClosed_fault (s : State) : s.windowClosed.fault = s.fault := rfl
@[simp] theorem State.windowClosed_errCode (s : State) : s.windowClosed.errCode = s.errCode := rfl
@[simp] theorem State.windowClosed_errCmd (s : State) : s.windowClosed.errCmd = s.errCmd := rfl
@[simp] theorem State.windowClosed_cfgDigits (s : State) : s.windowClosed.cfgDigits = s.cfgDigits := rfl
@[simp] theorem State.windowClosed_cfgPeriod (s : State) : s.windowClosed.cfgPeriod = s.cfgPeriod := rfl
@[simp] theorem State.windowClosed_cfgAlg (s : State) : s.windowClosed.cfgAlg = s.cfgAlg := rfl
@[simp] theorem State.windowClosed_timeLo (s : State) : s.windowClosed.timeLo = s.timeLo := rfl
@[simp] theorem State.windowClosed_timeHi (s : State) : s.windowClosed.timeHi = s.timeHi := rfl
@[simp] theorem State.windowClosed_tmask (s : State) : s.windowClosed.tmask = s.tmask := rfl
@[simp] theorem State.windowClosed_textLen (s : State) : s.windowClosed.textLen = s.textLen := rfl
@[simp] theorem State.windowClosed_digestLen (s : State) : s.windowClosed.digestLen = s.digestLen := rfl
@[simp] theorem State.windowClosed_candLen (s : State) : s.windowClosed.candLen = s.candLen := rfl
@[simp] theorem State.windowClosed_keyLen (s : State) : s.windowClosed.keyLen = s.keyLen := rfl
@[simp] theorem State.windowClosed_counterLo (s : State) : s.windowClosed.counterLo = s.counterLo := rfl
@[simp] theorem State.windowClosed_counterHi (s : State) : s.windowClosed.counterHi = s.counterHi := rfl
@[simp] theorem State.windowClosed_offset (s : State) : s.windowClosed.offset = s.offset := rfl
@[simp] theorem State.windowClosed_value (s : State) : s.windowClosed.value = s.value := rfl
@[simp] theorem State.windowClosed_codeVal (s : State) : s.windowClosed.codeVal = s.codeVal := rfl
@[simp] theorem State.windowClosed_codeLen (s : State) : s.windowClosed.codeLen = s.codeLen := rfl
@[simp] theorem State.windowClosed_winD (s : State) : s.windowClosed.winD = s.winD := rfl
@[simp] theorem State.windowClosed_winI (s : State) : s.windowClosed.winI = s.winI := rfl
@[simp] theorem State.windowClosed_winBaseLo (s : State) : s.windowClosed.winBaseLo = s.winBaseLo := rfl
@[simp] theorem State.windowClosed_winBaseHi (s : State) : s.windowClosed.winBaseHi = s.winBaseHi := rfl
@[simp] theorem State.windowClosed_matchAcc (s : State) : s.windowClosed.matchAcc = s.matchAcc := rfl
@[simp] theorem State.windowClosed_buf (s : State) : s.windowClosed.buf = s.buf := rfl
@[simp] theorem State.windowClosed_pending (s : State) : s.windowClosed.pending = s.pending := rfl
@[simp] theorem State.windowClosed_replies (s : State) : s.windowClosed.replies = s.replies := rfl

/-! ## windowMoved -/

@[simp] theorem State.windowMoved_cfgOk (s : State) : s.windowMoved.cfgOk = s.cfgOk := rfl
@[simp] theorem State.windowMoved_keyValid (s : State) : s.windowMoved.keyValid = s.keyValid := rfl
@[simp] theorem State.windowMoved_msgValid (s : State) : s.windowMoved.msgValid = s.msgValid := rfl
@[simp] theorem State.windowMoved_valueValid (s : State) : s.windowMoved.valueValid = s.valueValid := rfl
@[simp] theorem State.windowMoved_codeValid (s : State) : s.windowMoved.codeValid = s.codeValid := rfl
@[simp] theorem State.windowMoved_winActive (s : State) : s.windowMoved.winActive = s.winActive := rfl
@[simp] theorem State.windowMoved_resultValid (s : State) : s.windowMoved.resultValid = s.resultValid := rfl
@[simp] theorem State.windowMoved_fault (s : State) : s.windowMoved.fault = s.fault := rfl
@[simp] theorem State.windowMoved_errCode (s : State) : s.windowMoved.errCode = s.errCode := rfl
@[simp] theorem State.windowMoved_errCmd (s : State) : s.windowMoved.errCmd = s.errCmd := rfl
@[simp] theorem State.windowMoved_cfgDigits (s : State) : s.windowMoved.cfgDigits = s.cfgDigits := rfl
@[simp] theorem State.windowMoved_cfgPeriod (s : State) : s.windowMoved.cfgPeriod = s.cfgPeriod := rfl
@[simp] theorem State.windowMoved_cfgAlg (s : State) : s.windowMoved.cfgAlg = s.cfgAlg := rfl
@[simp] theorem State.windowMoved_timeLo (s : State) : s.windowMoved.timeLo = s.timeLo := rfl
@[simp] theorem State.windowMoved_timeHi (s : State) : s.windowMoved.timeHi = s.timeHi := rfl
@[simp] theorem State.windowMoved_tmask (s : State) : s.windowMoved.tmask = s.tmask := rfl
@[simp] theorem State.windowMoved_textLen (s : State) : s.windowMoved.textLen = s.textLen := rfl
@[simp] theorem State.windowMoved_digestLen (s : State) : s.windowMoved.digestLen = s.digestLen := rfl
@[simp] theorem State.windowMoved_candLen (s : State) : s.windowMoved.candLen = s.candLen := rfl
@[simp] theorem State.windowMoved_keyLen (s : State) : s.windowMoved.keyLen = s.keyLen := rfl
@[simp] theorem State.windowMoved_counterLo (s : State) : s.windowMoved.counterLo = s.counterLo := rfl
@[simp] theorem State.windowMoved_counterHi (s : State) : s.windowMoved.counterHi = s.counterHi := rfl
@[simp] theorem State.windowMoved_offset (s : State) : s.windowMoved.offset = s.offset := rfl
@[simp] theorem State.windowMoved_value (s : State) : s.windowMoved.value = s.value := rfl
@[simp] theorem State.windowMoved_codeVal (s : State) : s.windowMoved.codeVal = s.codeVal := rfl
@[simp] theorem State.windowMoved_codeLen (s : State) : s.windowMoved.codeLen = s.codeLen := rfl
@[simp] theorem State.windowMoved_winD (s : State) : s.windowMoved.winD = s.winD := rfl
@[simp] theorem State.windowMoved_winI (s : State) : s.windowMoved.winI = s.winI + 1 := rfl
@[simp] theorem State.windowMoved_winBaseLo (s : State) : s.windowMoved.winBaseLo = s.winBaseLo := rfl
@[simp] theorem State.windowMoved_winBaseHi (s : State) : s.windowMoved.winBaseHi = s.winBaseHi := rfl
@[simp] theorem State.windowMoved_matchAcc (s : State) : s.windowMoved.matchAcc = s.matchAcc := rfl
@[simp] theorem State.windowMoved_buf (s : State) : s.windowMoved.buf = s.buf := rfl
@[simp] theorem State.windowMoved_pending (s : State) : s.windowMoved.pending = s.pending := rfl
@[simp] theorem State.windowMoved_replies (s : State) : s.windowMoved.replies = s.replies := rfl

/-! ## writeByte -/

@[simp] theorem State.writeByte_cfgOk (s : State) (a : Nat) (b : Byte) : (s.writeByte a b).cfgOk = s.cfgOk := rfl
@[simp] theorem State.writeByte_keyValid (s : State) (a : Nat) (b : Byte) : (s.writeByte a b).keyValid = s.keyValid := rfl
@[simp] theorem State.writeByte_msgValid (s : State) (a : Nat) (b : Byte) : (s.writeByte a b).msgValid = s.msgValid := rfl
@[simp] theorem State.writeByte_valueValid (s : State) (a : Nat) (b : Byte) : (s.writeByte a b).valueValid = s.valueValid := rfl
@[simp] theorem State.writeByte_codeValid (s : State) (a : Nat) (b : Byte) : (s.writeByte a b).codeValid = s.codeValid := rfl
@[simp] theorem State.writeByte_winActive (s : State) (a : Nat) (b : Byte) : (s.writeByte a b).winActive = s.winActive := rfl
@[simp] theorem State.writeByte_resultValid (s : State) (a : Nat) (b : Byte) : (s.writeByte a b).resultValid = s.resultValid := rfl
@[simp] theorem State.writeByte_fault (s : State) (a : Nat) (b : Byte) : (s.writeByte a b).fault = s.fault := rfl
@[simp] theorem State.writeByte_errCode (s : State) (a : Nat) (b : Byte) : (s.writeByte a b).errCode = s.errCode := rfl
@[simp] theorem State.writeByte_errCmd (s : State) (a : Nat) (b : Byte) : (s.writeByte a b).errCmd = s.errCmd := rfl
@[simp] theorem State.writeByte_cfgDigits (s : State) (a : Nat) (b : Byte) : (s.writeByte a b).cfgDigits = s.cfgDigits := rfl
@[simp] theorem State.writeByte_cfgPeriod (s : State) (a : Nat) (b : Byte) : (s.writeByte a b).cfgPeriod = s.cfgPeriod := rfl
@[simp] theorem State.writeByte_cfgAlg (s : State) (a : Nat) (b : Byte) : (s.writeByte a b).cfgAlg = s.cfgAlg := rfl
@[simp] theorem State.writeByte_timeLo (s : State) (a : Nat) (b : Byte) : (s.writeByte a b).timeLo = s.timeLo := rfl
@[simp] theorem State.writeByte_timeHi (s : State) (a : Nat) (b : Byte) : (s.writeByte a b).timeHi = s.timeHi := rfl
@[simp] theorem State.writeByte_tmask (s : State) (a : Nat) (b : Byte) : (s.writeByte a b).tmask = s.tmask := rfl
@[simp] theorem State.writeByte_textLen (s : State) (a : Nat) (b : Byte) : (s.writeByte a b).textLen = s.textLen := rfl
@[simp] theorem State.writeByte_digestLen (s : State) (a : Nat) (b : Byte) : (s.writeByte a b).digestLen = s.digestLen := rfl
@[simp] theorem State.writeByte_candLen (s : State) (a : Nat) (b : Byte) : (s.writeByte a b).candLen = s.candLen := rfl
@[simp] theorem State.writeByte_keyLen (s : State) (a : Nat) (b : Byte) : (s.writeByte a b).keyLen = s.keyLen := rfl
@[simp] theorem State.writeByte_counterLo (s : State) (a : Nat) (b : Byte) : (s.writeByte a b).counterLo = s.counterLo := rfl
@[simp] theorem State.writeByte_counterHi (s : State) (a : Nat) (b : Byte) : (s.writeByte a b).counterHi = s.counterHi := rfl
@[simp] theorem State.writeByte_offset (s : State) (a : Nat) (b : Byte) : (s.writeByte a b).offset = s.offset := rfl
@[simp] theorem State.writeByte_value (s : State) (a : Nat) (b : Byte) : (s.writeByte a b).value = s.value := rfl
@[simp] theorem State.writeByte_codeVal (s : State) (a : Nat) (b : Byte) : (s.writeByte a b).codeVal = s.codeVal := rfl
@[simp] theorem State.writeByte_codeLen (s : State) (a : Nat) (b : Byte) : (s.writeByte a b).codeLen = s.codeLen := rfl
@[simp] theorem State.writeByte_winD (s : State) (a : Nat) (b : Byte) : (s.writeByte a b).winD = s.winD := rfl
@[simp] theorem State.writeByte_winI (s : State) (a : Nat) (b : Byte) : (s.writeByte a b).winI = s.winI := rfl
@[simp] theorem State.writeByte_winBaseLo (s : State) (a : Nat) (b : Byte) : (s.writeByte a b).winBaseLo = s.winBaseLo := rfl
@[simp] theorem State.writeByte_winBaseHi (s : State) (a : Nat) (b : Byte) : (s.writeByte a b).winBaseHi = s.winBaseHi := rfl
@[simp] theorem State.writeByte_matchAcc (s : State) (a : Nat) (b : Byte) : (s.writeByte a b).matchAcc = s.matchAcc := rfl
@[simp] theorem State.writeByte_buf (s : State) (a : Nat) (b : Byte) : (s.writeByte a b).buf = s.buf.write a b := rfl
@[simp] theorem State.writeByte_pending (s : State) (a : Nat) (b : Byte) : (s.writeByte a b).pending = s.pending := rfl
@[simp] theorem State.writeByte_replies (s : State) (a : Nat) (b : Byte) : (s.writeByte a b).replies = s.replies := rfl

/-! ## withDigest -/

@[simp] theorem State.withDigest_cfgOk (s : State) (d : List Byte) : (s.withDigest d).cfgOk = s.cfgOk := rfl
@[simp] theorem State.withDigest_keyValid (s : State) (d : List Byte) : (s.withDigest d).keyValid = s.keyValid := rfl
@[simp] theorem State.withDigest_msgValid (s : State) (d : List Byte) : (s.withDigest d).msgValid = s.msgValid := rfl
@[simp] theorem State.withDigest_valueValid (s : State) (d : List Byte) : (s.withDigest d).valueValid = s.valueValid := rfl
@[simp] theorem State.withDigest_codeValid (s : State) (d : List Byte) : (s.withDigest d).codeValid = s.codeValid := rfl
@[simp] theorem State.withDigest_winActive (s : State) (d : List Byte) : (s.withDigest d).winActive = s.winActive := rfl
@[simp] theorem State.withDigest_resultValid (s : State) (d : List Byte) : (s.withDigest d).resultValid = s.resultValid := rfl
@[simp] theorem State.withDigest_fault (s : State) (d : List Byte) : (s.withDigest d).fault = s.fault := rfl
@[simp] theorem State.withDigest_errCode (s : State) (d : List Byte) : (s.withDigest d).errCode = s.errCode := rfl
@[simp] theorem State.withDigest_errCmd (s : State) (d : List Byte) : (s.withDigest d).errCmd = s.errCmd := rfl
@[simp] theorem State.withDigest_cfgDigits (s : State) (d : List Byte) : (s.withDigest d).cfgDigits = s.cfgDigits := rfl
@[simp] theorem State.withDigest_cfgPeriod (s : State) (d : List Byte) : (s.withDigest d).cfgPeriod = s.cfgPeriod := rfl
@[simp] theorem State.withDigest_cfgAlg (s : State) (d : List Byte) : (s.withDigest d).cfgAlg = s.cfgAlg := rfl
@[simp] theorem State.withDigest_timeLo (s : State) (d : List Byte) : (s.withDigest d).timeLo = s.timeLo := rfl
@[simp] theorem State.withDigest_timeHi (s : State) (d : List Byte) : (s.withDigest d).timeHi = s.timeHi := rfl
@[simp] theorem State.withDigest_tmask (s : State) (d : List Byte) : (s.withDigest d).tmask = s.tmask := rfl
@[simp] theorem State.withDigest_textLen (s : State) (d : List Byte) : (s.withDigest d).textLen = s.textLen := rfl
@[simp] theorem State.withDigest_digestLen (s : State) (d : List Byte) : (s.withDigest d).digestLen = BitVec.ofNat 32 d.length := rfl
@[simp] theorem State.withDigest_candLen (s : State) (d : List Byte) : (s.withDigest d).candLen = s.candLen := rfl
@[simp] theorem State.withDigest_keyLen (s : State) (d : List Byte) : (s.withDigest d).keyLen = s.keyLen := rfl
@[simp] theorem State.withDigest_counterLo (s : State) (d : List Byte) : (s.withDigest d).counterLo = s.counterLo := rfl
@[simp] theorem State.withDigest_counterHi (s : State) (d : List Byte) : (s.withDigest d).counterHi = s.counterHi := rfl
@[simp] theorem State.withDigest_offset (s : State) (d : List Byte) : (s.withDigest d).offset = s.offset := rfl
@[simp] theorem State.withDigest_value (s : State) (d : List Byte) : (s.withDigest d).value = s.value := rfl
@[simp] theorem State.withDigest_codeVal (s : State) (d : List Byte) : (s.withDigest d).codeVal = s.codeVal := rfl
@[simp] theorem State.withDigest_codeLen (s : State) (d : List Byte) : (s.withDigest d).codeLen = s.codeLen := rfl
@[simp] theorem State.withDigest_winD (s : State) (d : List Byte) : (s.withDigest d).winD = s.winD := rfl
@[simp] theorem State.withDigest_winI (s : State) (d : List Byte) : (s.withDigest d).winI = s.winI := rfl
@[simp] theorem State.withDigest_winBaseLo (s : State) (d : List Byte) : (s.withDigest d).winBaseLo = s.winBaseLo := rfl
@[simp] theorem State.withDigest_winBaseHi (s : State) (d : List Byte) : (s.withDigest d).winBaseHi = s.winBaseHi := rfl
@[simp] theorem State.withDigest_matchAcc (s : State) (d : List Byte) : (s.withDigest d).matchAcc = s.matchAcc := rfl
@[simp] theorem State.withDigest_buf (s : State) (d : List Byte) : (s.withDigest d).buf = s.buf.writeBytes Config.digestBase d := rfl
@[simp] theorem State.withDigest_pending (s : State) (d : List Byte) : (s.withDigest d).pending = s.pending := rfl
@[simp] theorem State.withDigest_replies (s : State) (d : List Byte) : (s.withDigest d).replies = s.replies := rfl

/-! ## withFetchWord -/

@[simp] theorem State.withFetchWord_cfgOk (s : State) (n w : Nat) : (s.withFetchWord n w).cfgOk = s.cfgOk := rfl
@[simp] theorem State.withFetchWord_keyValid (s : State) (n w : Nat) : (s.withFetchWord n w).keyValid = s.keyValid := rfl
@[simp] theorem State.withFetchWord_msgValid (s : State) (n w : Nat) : (s.withFetchWord n w).msgValid = s.msgValid := rfl
@[simp] theorem State.withFetchWord_valueValid (s : State) (n w : Nat) : (s.withFetchWord n w).valueValid = s.valueValid := rfl
@[simp] theorem State.withFetchWord_codeValid (s : State) (n w : Nat) : (s.withFetchWord n w).codeValid = s.codeValid := rfl
@[simp] theorem State.withFetchWord_winActive (s : State) (n w : Nat) : (s.withFetchWord n w).winActive = s.winActive := rfl
@[simp] theorem State.withFetchWord_resultValid (s : State) (n w : Nat) : (s.withFetchWord n w).resultValid = s.resultValid := rfl
@[simp] theorem State.withFetchWord_fault (s : State) (n w : Nat) : (s.withFetchWord n w).fault = s.fault := rfl
@[simp] theorem State.withFetchWord_errCode (s : State) (n w : Nat) : (s.withFetchWord n w).errCode = s.errCode := rfl
@[simp] theorem State.withFetchWord_errCmd (s : State) (n w : Nat) : (s.withFetchWord n w).errCmd = s.errCmd := rfl
@[simp] theorem State.withFetchWord_cfgDigits (s : State) (n w : Nat) : (s.withFetchWord n w).cfgDigits = s.cfgDigits := rfl
@[simp] theorem State.withFetchWord_cfgPeriod (s : State) (n w : Nat) : (s.withFetchWord n w).cfgPeriod = s.cfgPeriod := rfl
@[simp] theorem State.withFetchWord_cfgAlg (s : State) (n w : Nat) : (s.withFetchWord n w).cfgAlg = s.cfgAlg := rfl
@[simp] theorem State.withFetchWord_timeLo (s : State) (n w : Nat) : (s.withFetchWord n w).timeLo = s.timeLo := rfl
@[simp] theorem State.withFetchWord_timeHi (s : State) (n w : Nat) : (s.withFetchWord n w).timeHi = s.timeHi := rfl
@[simp] theorem State.withFetchWord_tmask (s : State) (n w : Nat) : (s.withFetchWord n w).tmask = s.tmask := rfl
@[simp] theorem State.withFetchWord_textLen (s : State) (n w : Nat) : (s.withFetchWord n w).textLen = s.textLen := rfl
@[simp] theorem State.withFetchWord_digestLen (s : State) (n w : Nat) : (s.withFetchWord n w).digestLen = s.digestLen := rfl
@[simp] theorem State.withFetchWord_candLen (s : State) (n w : Nat) : (s.withFetchWord n w).candLen = s.candLen := rfl
@[simp] theorem State.withFetchWord_keyLen (s : State) (n w : Nat) : (s.withFetchWord n w).keyLen = s.keyLen := rfl
@[simp] theorem State.withFetchWord_counterLo (s : State) (n w : Nat) : (s.withFetchWord n w).counterLo = s.counterLo := rfl
@[simp] theorem State.withFetchWord_counterHi (s : State) (n w : Nat) : (s.withFetchWord n w).counterHi = s.counterHi := rfl
@[simp] theorem State.withFetchWord_offset (s : State) (n w : Nat) : (s.withFetchWord n w).offset = s.offset := rfl
@[simp] theorem State.withFetchWord_value (s : State) (n w : Nat) : (s.withFetchWord n w).value = s.value := rfl
@[simp] theorem State.withFetchWord_codeVal (s : State) (n w : Nat) : (s.withFetchWord n w).codeVal = s.codeVal := rfl
@[simp] theorem State.withFetchWord_codeLen (s : State) (n w : Nat) : (s.withFetchWord n w).codeLen = s.codeLen := rfl
@[simp] theorem State.withFetchWord_winD (s : State) (n w : Nat) : (s.withFetchWord n w).winD = s.winD := rfl
@[simp] theorem State.withFetchWord_winI (s : State) (n w : Nat) : (s.withFetchWord n w).winI = s.winI := rfl
@[simp] theorem State.withFetchWord_winBaseLo (s : State) (n w : Nat) : (s.withFetchWord n w).winBaseLo = s.winBaseLo := rfl
@[simp] theorem State.withFetchWord_winBaseHi (s : State) (n w : Nat) : (s.withFetchWord n w).winBaseHi = s.winBaseHi := rfl
@[simp] theorem State.withFetchWord_matchAcc (s : State) (n w : Nat) : (s.withFetchWord n w).matchAcc = s.matchAcc := rfl
@[simp] theorem State.withFetchWord_buf (s : State) (n w : Nat) : (s.withFetchWord n w).buf = s.buf := rfl
@[simp] theorem State.withFetchWord_pending (s : State) (n w : Nat) : (s.withFetchWord n w).pending = commandOp (BitVec.ofNat 32 (w % 2 ^ n)) :: s.pending := rfl
@[simp] theorem State.withFetchWord_replies (s : State) (n w : Nat) : (s.withFetchWord n w).replies = s.replies := rfl

/-! ## The reset state -/

@[simp] theorem State.reset_cfgOk : State.reset.cfgOk = false := rfl
@[simp] theorem State.reset_keyValid : State.reset.keyValid = false := rfl
@[simp] theorem State.reset_msgValid : State.reset.msgValid = false := rfl
@[simp] theorem State.reset_valueValid : State.reset.valueValid = false := rfl
@[simp] theorem State.reset_codeValid : State.reset.codeValid = false := rfl
@[simp] theorem State.reset_winActive : State.reset.winActive = false := rfl
@[simp] theorem State.reset_resultValid : State.reset.resultValid = false := rfl
@[simp] theorem State.reset_fault : State.reset.fault = false := rfl
@[simp] theorem State.reset_errCode : State.reset.errCode = none := rfl
@[simp] theorem State.reset_errCmd : State.reset.errCmd = 0 := rfl
@[simp] theorem State.reset_cfgDigits : State.reset.cfgDigits = 6 := rfl
@[simp] theorem State.reset_cfgPeriod : State.reset.cfgPeriod = 30 := rfl
@[simp] theorem State.reset_cfgAlg : State.reset.cfgAlg = 0 := rfl
@[simp] theorem State.reset_timeLo : State.reset.timeLo = 0 := rfl
@[simp] theorem State.reset_timeHi : State.reset.timeHi = 0 := rfl
@[simp] theorem State.reset_tmask : State.reset.tmask = 0 := rfl
@[simp] theorem State.reset_textLen : State.reset.textLen = 0 := rfl
@[simp] theorem State.reset_digestLen : State.reset.digestLen = 0 := rfl
@[simp] theorem State.reset_candLen : State.reset.candLen = 0 := rfl
@[simp] theorem State.reset_keyLen : State.reset.keyLen = 0 := rfl
@[simp] theorem State.reset_counterLo : State.reset.counterLo = 0 := rfl
@[simp] theorem State.reset_counterHi : State.reset.counterHi = 0 := rfl
@[simp] theorem State.reset_offset : State.reset.offset = 0 := rfl
@[simp] theorem State.reset_value : State.reset.value = 0 := rfl
@[simp] theorem State.reset_codeVal : State.reset.codeVal = 0 := rfl
@[simp] theorem State.reset_codeLen : State.reset.codeLen = 0 := rfl
@[simp] theorem State.reset_winD : State.reset.winD = 0 := rfl
@[simp] theorem State.reset_winI : State.reset.winI = 0 := rfl
@[simp] theorem State.reset_winBaseLo : State.reset.winBaseLo = 0 := rfl
@[simp] theorem State.reset_winBaseHi : State.reset.winBaseHi = 0 := rfl
@[simp] theorem State.reset_matchAcc : State.reset.matchAcc = false := rfl
@[simp] theorem State.reset_buf : State.reset.buf = [] := rfl
@[simp] theorem State.reset_pending : State.reset.pending = [] := rfl
@[simp] theorem State.reset_replies : State.reset.replies = [] := rfl

end Sys2Proof.Machine
end

