-- ==== Sys2Proof/Laws/Exec.lean ====
section
/-! SUPPORT. One lemma per shared operation of the meanings, saying once what it can do. -/

namespace Sys2Proof.Machine

/-! ## Sequencing -/

@[simp] theorem andThen_next (s : State) (f : State → Result) : andThen (.next s) f = f s := rfl

/-- A sequence answers a next state exactly through one of its first part. -/
theorem andThen_eq_next {r : Result} {f : State → Result} {t : State} :
    andThen r f = .next t ↔ ∃ u, r = .next u ∧ f u = .next t := by
  cases r with
  | next s => simp
  | fault e => cases e
  | refused e => simp [andThen]

/-! ## Faults and counters -/

/-- `raise` answers the faulted state (R240). -/
@[simp] theorem raise_eq (k : FaultKind) (w : Word) (s : State) : raise k w s = .next (s.faulted k w) := rfl

/-- The two ways a counter is stored (R191, R192). -/
theorem storeCounter_cases (c : Int) (w : Word) (s : State) :
    (0 ≤ c ∧ c < 2 ^ 64 ∧ storeCounter c w s = .next (s.withCounter (BitVec.ofInt 64 c))) ∨
      ((c < 0 ∨ 2 ^ 64 ≤ c) ∧ storeCounter c w s = .next (s.faulted .counterRange w)) := by
  by_cases h : 0 ≤ c ∧ c < 2 ^ 64
  · exact .inl ⟨h.1, h.2, by simp only [storeCounter, counterInRange, h, and_self, decide_true, if_true]⟩
  · refine .inr ⟨by omega, ?_⟩
    simp only [storeCounter, counterInRange, h, decide_false, Bool.false_eq_true, if_false, raise_eq]

/-- A counter in range is stored exactly. -/
theorem toNat_ofInt_counter {c : Int} (h0 : 0 ≤ c) (h1 : c < 2 ^ 64) : ((BitVec.ofInt 64 c).toNat : Int) = c := by
  rw [BitVec.toNat_ofInt]; omega

/-- The `_LO` and `_HI` registers of a 64-bit quantity give it back (R74 (c)). -/
@[simp] theorem hiHalf_append_loHalf (v : Dword) : hiHalf v ++ loHalf v = v := by
  apply BitVec.eq_of_getLsbD_eq; intro j hj
  simp only [hiHalf, loHalf, BitVec.getLsbD_append, BitVec.getLsbD_extractLsb']
  split
  · simp [*]
  · rw [show 32 + (j - 32) = j by omega, show decide (j - 32 < 32) = true by simp; omega]; simp

@[simp] theorem State.withCounter_counter (s : State) (c : Dword) : (s.withCounter c).counter = c := by
  simp [State.counter]

/-- A frozen configuration's quotient is the floor of the division (R10 (b)). -/
theorem quotient_of_ne_zero {p : Word} (t : Dword) (h : p ≠ 0) : quotient t p = t.toNat / p.toNat := by
  rw [quotient, if_neg h]

/-! ## What CFGLOCK accepts -/

/-- R131: the legal configurations. -/
theorem State.cfgLegal_iff (s : State) :
    s.cfgLegal = true ↔
      1 ≤ s.cfgDigits.toNat ∧ s.cfgDigits.toNat ≤ 10 ∧ s.cfgPeriod ≠ 0 ∧ s.cfgAlg.toNat ≤ 2 := by
  have h : s.cfgDigits = 0 ↔ s.cfgDigits.toNat = 0 := by
    constructor
    · rintro h; simp [h]
    · intro h; exact BitVec.eq_of_toNat_eq h
  simp only [State.cfgLegal, Config.maxDigits, Bool.and_eq_true, Bool.not_eq_true', Bool.or_eq_false_iff, beq_eq_false_iff_ne,
    decide_eq_false_iff_not, ne_eq, h]
  constructor
  · rintro ⟨⟨⟨h1, h2⟩, h3⟩, h4⟩; exact ⟨Nat.pos_of_ne_zero h1, Nat.not_lt.1 (of_decide_eq_false h2), h3, Nat.not_lt.1 h4⟩
  · rintro ⟨h1, h2, h3, h4⟩; exact ⟨⟨⟨Nat.pos_iff_ne_zero.1 h1, decide_eq_false (Nat.not_lt.2 h2)⟩, h3⟩, Nat.not_lt.2 h4⟩

/-- R178: the digest lengths. -/
theorem dlen_cases {a : Word} {n : Nat} (h : dlen a = some n) :
    (a = 0 ∧ n = 20) ∨ (a = 1 ∧ n = 32) ∨ (a = 2 ∧ n = 64) := by
  unfold dlen at h
  split at h
  · exact .inl ⟨‹_›, by simpa using h.symm⟩
  · split at h
    · exact .inr (.inl ⟨‹_›, by simpa using h.symm⟩)
    · split at h
      · exact .inr (.inr ⟨‹_›, by simpa using h.symm⟩)
      · cases h

/-! ## What each command can do -/

theorem execCfglock_cases (s : State) :
    (s.cfgOk = true ∧ execCfglock s = .next (s.faulted .sequence 0x00000001)) ∨
      (s.cfgOk = false ∧ s.cfgLegal = false ∧ execCfglock s = .next (s.faulted .invalidConfiguration 0x00000001)) ∨
      (s.cfgOk = false ∧ s.cfgLegal = true ∧ execCfglock s = .next s.frozen) := by
  unfold execCfglock
  rw [encode_cfglock]
  cases h1 : s.cfgOk <;> cases h2 : s.cfgLegal <;> simp

theorem execB32dec_cases (s : State) :
    (128 < s.textLen.toNat ∧ execB32dec s = .next (s.keyCleared.faulted .length 0x00000010)) ∨
      (s.textLen.toNat ≤ 128 ∧ b32Decode s.strippedText = none ∧
        execB32dec s = .next (s.keyCleared.faulted .invalidSecret 0x00000010)) ∨
      (∃ out, s.textLen.toNat ≤ 128 ∧ b32Decode s.strippedText = some out ∧
        execB32dec s = .next (s.keyCleared.withKey out)) := by
  unfold execB32dec
  rw [encode_b32dec]
  by_cases h : s.textLen.toNat > Config.textMax
  · exact .inl ⟨h, by rw [if_pos h]; rfl⟩
  · rw [if_neg h]
    have h' : s.textLen.toNat ≤ 128 := Nat.not_lt.1 h
    cases hd : b32Decode s.strippedText with
    | none => exact .inr (.inl ⟨h', rfl, rfl⟩)
    | some out => exact .inr (.inr ⟨out, h', rfl, rfl⟩)

theorem execDtrunc_cases (s : State) :
    (s.cfgOk = false ∧ execDtrunc s = .next (s.valueCleared.faulted .sequence 0x00000020)) ∨
      (s.cfgOk = true ∧ dlen s.cfgAlg ≠ some s.digestLen.toNat ∧
        execDtrunc s = .next (s.valueCleared.faulted .length 0x00000020)) ∨
      (s.cfgOk = true ∧ dlen s.cfgAlg = some s.digestLen.toNat ∧
        execDtrunc s = .next (s.valueCleared.withValue ((truncOffset s.digestByte s.digestLen.toNat).setWidth 4)
          (truncValue s.digestByte s.digestLen.toNat))) := by
  unfold execDtrunc
  rw [encode_dtrunc]
  cases h1 : s.cfgOk with
  | false => exact .inl ⟨rfl, rfl⟩
  | true =>
    refine .inr ?_
    simp only [Bool.true_eq_false, if_false, true_and]
    cases hd : dlen s.cfgAlg with
    | none => exact .inl ⟨by simp, rfl⟩
    | some n =>
      by_cases hn : s.digestLen.toNat = n
      · subst hn; exact .inr ⟨rfl, by simp⟩
      · refine .inl ⟨by simpa using fun h => hn h.symm, ?_⟩
        simp only [ne_eq, hn, not_false_eq_true, if_true, raise_eq]

theorem execModred_cases (s : State) :
    ((s.cfgOk = false ∨ s.valueValid = false) ∧ execModred s = .next (s.codeCleared.faulted .sequence 0x00000021)) ∨
      (s.cfgOk = true ∧ s.valueValid = true ∧
        execModred s = .next (s.codeCleared.withCode s.cfgDigits (s.value.toNat % 10 ^ s.cfgDigits.toNat))) := by
  unfold execModred
  rw [encode_modred]
  by_cases h : s.cfgOk = false ∨ s.valueValid = false
  · exact .inl ⟨h, by rw [if_pos h]; rfl⟩
  · exact .inr ⟨by simpa using fun h' => h (.inl h'), by simpa using fun h' => h (.inr h'), by rw [if_neg h]⟩

theorem execSlice_cases (k : Int) (s : State) :
    ((s.cfgOk = false ∨ s.timeValid = false) ∧
        execSlice k s = .next (s.msgCleared.faulted .sequence (encode (.slice k)))) ∨
      (s.cfgOk = true ∧ s.timeValid = true ∧ ((s.slice : Int) + k < 0 ∨ 2 ^ 64 ≤ (s.slice : Int) + k) ∧
        execSlice k s = .next (s.msgCleared.faulted .counterRange (encode (.slice k)))) ∨
      (s.cfgOk = true ∧ s.timeValid = true ∧ 0 ≤ (s.slice : Int) + k ∧ (s.slice : Int) + k < 2 ^ 64 ∧
        execSlice k s = .next (s.msgCleared.withCounter (BitVec.ofInt 64 ((s.slice : Int) + k)))) := by
  unfold execSlice
  by_cases h : s.cfgOk = false ∨ s.timeValid = false
  · exact .inl ⟨h, by rw [if_pos h]; rfl⟩
  · have h1 : s.cfgOk = true := by simpa using fun h' => h (.inl h')
    have h2 : s.timeValid = true := by simpa using fun h' => h (.inr h')
    rw [if_neg h]
    rcases storeCounter_cases ((s.slice : Int) + k) (encode (.slice k)) s.msgCleared with ⟨a, b, c⟩ | ⟨a, b⟩
    · exact .inr (.inr ⟨h1, h2, a, b, c⟩)
    · exact .inr (.inl ⟨h1, h2, a, b⟩)

theorem execVbegin_cases (d : Int) (s : State) :
    ((s.cfgOk = false ∨ s.timeValid = false) ∧
        execVbegin d s = .next (s.windowDropped.faulted .sequence (encode (.vbegin d)))) ∨
      (s.cfgOk = true ∧ s.timeValid = true ∧ d < 0 ∧
        execVbegin d s = .next (s.windowDropped.faulted .invalidWindow (encode (.vbegin d)))) ∨
      (s.cfgOk = true ∧ s.timeValid = true ∧ 0 ≤ d ∧
        execVbegin d s = .next (s.windowDropped.windowOpened d (BitVec.ofNat 64 s.slice))) := by
  unfold execVbegin
  by_cases h : s.cfgOk = false ∨ s.timeValid = false
  · exact .inl ⟨h, by rw [if_pos h]; rfl⟩
  · have h1 : s.cfgOk = true := by simpa using fun h' => h (.inl h')
    have h2 : s.timeValid = true := by simpa using fun h' => h (.inr h')
    rw [if_neg h]
    by_cases hd : d < 0
    · exact .inr (.inl ⟨h1, h2, hd, by rw [if_pos hd]; rfl⟩)
    · exact .inr (.inr ⟨h1, h2, Int.not_lt.1 hd, by rw [if_neg hd]⟩)

theorem execSlicew_cases (s : State) :
    (s.winActive = false ∧ execSlicew s = .next (s.msgCleared.faulted .sequence 0x00000032)) ∨
      (s.winActive = true ∧
        ((s.winBase.toNat : Int) + s.winI.toInt < 0 ∨ 2 ^ 64 ≤ (s.winBase.toNat : Int) + s.winI.toInt) ∧
        execSlicew s = .next (s.msgCleared.faulted .counterRange 0x00000032)) ∨
      (s.winActive = true ∧ 0 ≤ (s.winBase.toNat : Int) + s.winI.toInt ∧
        (s.winBase.toNat : Int) + s.winI.toInt < 2 ^ 64 ∧
        execSlicew s =
          .next (s.msgCleared.withCounter (BitVec.ofInt 64 ((s.winBase.toNat : Int) + s.winI.toInt)))) := by
  unfold execSlicew
  rw [encode_slicew]
  cases h : s.winActive with
  | false => exact .inl ⟨rfl, rfl⟩
  | true =>
    refine .inr ?_
    simp only [Bool.true_eq_false, if_false, true_and]
    rcases storeCounter_cases ((s.winBase.toNat : Int) + s.winI.toInt) 0x00000032 s.msgCleared with
      ⟨a, b, c⟩ | ⟨a, b⟩
    · exact .inr ⟨a, b, c⟩
    · exact .inl ⟨a, b⟩

theorem execCmp_cases (s : State) :
    ((s.cfgOk = false ∨ s.codeValid = false ∨ s.winActive = true) ∧
        execCmp s = .next (s.resultDropped.faulted .sequence 0x00000040)) ∨
      (s.cfgOk = true ∧ s.codeValid = true ∧ s.winActive = false ∧
        execCmp s = .next (s.resultDropped.withResult s.codeEqCand)) := by
  unfold execCmp
  rw [encode_cmp]
  by_cases h : s.cfgOk = false ∨ s.codeValid = false ∨ s.winActive = true
  · exact .inl ⟨h, by rw [if_pos h]; rfl⟩
  · refine .inr ⟨?_, ?_, ?_, by rw [if_neg h]⟩
    · simpa using fun h' => h (.inl h')
    · simpa using fun h' => h (.inr (.inl h'))
    · simpa using fun h' => h (.inr (.inr h'))

theorem execCmpw_cases (s : State) :
    ((s.winActive = false ∨ s.codeValid = false) ∧ execCmpw s = .next (s.faulted .sequence 0x00000041)) ∨
      (s.winActive = true ∧ s.codeValid = true ∧ s.winI = s.winD ∧
        execCmpw s = .next (s.accumulated s.codeEqCand).windowClosed) ∨
      (s.winActive = true ∧ s.codeValid = true ∧ s.winI ≠ s.winD ∧
        execCmpw s = .next (s.accumulated s.codeEqCand).windowMoved) := by
  unfold execCmpw
  rw [encode_cmpw]
  by_cases h : s.winActive = false ∨ s.codeValid = false
  · exact .inl ⟨h, by rw [if_pos h]; rfl⟩
  · have h1 : s.winActive = true := by simpa using fun h' => h (.inl h')
    have h2 : s.codeValid = true := by simpa using fun h' => h (.inr h')
    rw [if_neg h]
    by_cases hi : s.winI = s.winD
    · exact .inr (.inl ⟨h1, h2, hi, by simp [State.windowAdvanced, hi]⟩)
    · exact .inr (.inr ⟨h1, h2, hi, by simp [State.windowAdvanced, hi]⟩)

/-! ## The host's side -/

/-- No command touches the host's operations to come or the replies it has had. -/
theorem exec_keeps_host (i : Instr) {s t : State} (h : exec i s = .next t) :
    t.pending = s.pending ∧ t.replies = s.replies := by
  cases i with
  | cfglock => rcases execCfglock_cases s with ⟨_, e⟩ | ⟨_, _, e⟩ | ⟨_, _, e⟩ <;> cases e.symm.trans h <;> exact ⟨rfl, rfl⟩
  | clrerr => cases h; exact ⟨rfl, rfl⟩
  | sreset => cases h; exact ⟨rfl, rfl⟩
  | b32dec =>
    rcases execB32dec_cases s with ⟨_, e⟩ | ⟨_, _, e⟩ | ⟨_, _, _, e⟩ <;> cases e.symm.trans h <;> exact ⟨rfl, rfl⟩
  | dtrunc => rcases execDtrunc_cases s with ⟨_, e⟩ | ⟨_, _, e⟩ | ⟨_, _, e⟩ <;> cases e.symm.trans h <;> exact ⟨rfl, rfl⟩
  | modred => rcases execModred_cases s with ⟨_, e⟩ | ⟨_, _, e⟩ <;> cases e.symm.trans h <;> exact ⟨rfl, rfl⟩
  | slice k =>
    rcases execSlice_cases k s with ⟨_, e⟩ | ⟨_, _, _, e⟩ | ⟨_, _, _, _, e⟩ <;> cases e.symm.trans h <;>
      exact ⟨rfl, rfl⟩
  | vbegin d =>
    rcases execVbegin_cases d s with ⟨_, e⟩ | ⟨_, _, _, e⟩ | ⟨_, _, _, e⟩ <;> cases e.symm.trans h <;> exact ⟨rfl, rfl⟩
  | slicew =>
    rcases execSlicew_cases s with ⟨_, e⟩ | ⟨_, _, e⟩ | ⟨_, _, _, e⟩ <;> cases e.symm.trans h <;> exact ⟨rfl, rfl⟩
  | cmp => rcases execCmp_cases s with ⟨_, e⟩ | ⟨_, _, _, e⟩ <;> cases e.symm.trans h <;> exact ⟨rfl, rfl⟩
  | cmpw =>
    rcases execCmpw_cases s with ⟨_, e⟩ | ⟨_, _, _, e⟩ | ⟨_, _, _, e⟩ <;> cases e.symm.trans h <;> exact ⟨rfl, rfl⟩

end Sys2Proof.Machine
end

