-- ==== Sys2Proof/Laws/PerInstr.lean ====
section
/-! SUPPORT. Statements about every command, as syntax. -/

namespace Sys2Proof.Laws

/-- The match and mask of a command's row in spec/opcode_table.json. -/
def MatchesTable.row (i : Instr) : Word × Word :=
  match i with
  | .cfglock => (0x00000001, 0xFFFFFFFF)
  | .clrerr => (0x00000002, 0xFFFFFFFF)
  | .sreset => (0x00000003, 0xFFFFFFFF)
  | .b32dec => (0x00000010, 0xFFFFFFFF)
  | .dtrunc => (0x00000020, 0xFFFFFFFF)
  | .modred => (0x00000021, 0xFFFFFFFF)
  | .slice _ => (0x00000030, 0xFF0000FF)
  | .vbegin _ => (0x00000031, 0xFF0000FF)
  | .slicew => (0x00000032, 0xFFFFFFFF)
  | .cmp => (0x00000040, 0xFFFFFFFF)
  | .cmpw => (0x00000041, 0xFFFFFFFF)

/-- The encoding of a command has the bits its table row fixes, and its immediate field in bits 23:8. -/
def MatchesTable.Statement (i : Instr) : Prop :=
  encode i &&& (MatchesTable.row i).2 = (MatchesTable.row i).1 ∧ (encode i).extractLsb' 8 16 = i.imm

theorem MatchesTable.imm_eq (i : Instr) : (encode i).extractLsb' 8 16 = i.imm := immField_encode i

theorem MatchesTable.cfglock : MatchesTable.Statement .cfglock := ⟨by decide, MatchesTable.imm_eq _⟩
theorem MatchesTable.clrerr : MatchesTable.Statement .clrerr := ⟨by decide, MatchesTable.imm_eq _⟩
theorem MatchesTable.sreset : MatchesTable.Statement .sreset := ⟨by decide, MatchesTable.imm_eq _⟩
theorem MatchesTable.b32dec : MatchesTable.Statement .b32dec := ⟨by decide, MatchesTable.imm_eq _⟩
theorem MatchesTable.dtrunc : MatchesTable.Statement .dtrunc := ⟨by decide, MatchesTable.imm_eq _⟩
theorem MatchesTable.modred : MatchesTable.Statement .modred := ⟨by decide, MatchesTable.imm_eq _⟩
theorem MatchesTable.slicew : MatchesTable.Statement .slicew := ⟨by decide, MatchesTable.imm_eq _⟩
theorem MatchesTable.cmp : MatchesTable.Statement .cmp := ⟨by decide, MatchesTable.imm_eq _⟩
theorem MatchesTable.cmpw : MatchesTable.Statement .cmpw := ⟨by decide, MatchesTable.imm_eq _⟩

/-- Format I: the immediate lies outside the mask. -/
theorem MatchesTable.formatI (imm : BitVec 16) (op : Byte) :
    ((0 : Byte) ++ imm ++ op : Word) &&& 0xFF0000FF = (0 : Byte) ++ (0 : BitVec 16) ++ op := by
  have h : (0xFF0000FF : Word) = (0xFF : Byte) ++ (0 : BitVec 16) ++ (0xFF : Byte) := by decide
  rw [h]
  ext j hj
  simp only [BitVec.getElem_and, BitVec.getElem_append]
  split
  · rename_i h8
    have : ∀ k (hk : k < 8), (0xFF#8)[k] = true := by decide
    simp [this _ h8]
  · split <;> simp

theorem MatchesTable.slice (k : Int) : MatchesTable.Statement (.slice k) :=
  ⟨(MatchesTable.formatI _ 0x30).trans (by decide : _ = (0x00000030 : Word)), MatchesTable.imm_eq _⟩

theorem MatchesTable.vbegin (d : Int) : MatchesTable.Statement (.vbegin d) :=
  ⟨(MatchesTable.formatI _ 0x31).trans (by decide : _ = (0x00000031 : Word)), MatchesTable.imm_eq _⟩

end Sys2Proof.Laws
end

