-- ==== Sys2Proof/Laws/Step.lean ====
section
/-! SUPPORT. What the port, a command word and a step can do, said once. -/

namespace Sys2Proof.Machine

/-- A read changes nothing but the list of replies (R77). -/
@[simp] theorem perform_read (a n : Nat) (s : State) : perform (.read a n) s = .next (s.answer (s.hostRead a n)) := rfl

@[simp] theorem perform_write (a n : Nat) (d : Word) (s : State) : perform (.write a n d) s = hostWrite a n d s := rfl

@[simp] theorem perform_reset (s : State) : perform .reset s = .next s.resetBlock := rfl

/-- A step takes the host's next operation and performs it. -/
theorem step_of_pending {s : State} {op : HostOp} {rest : List HostOp} (h : s.pending = op :: rest) :
    step s = perform op s.taken := by
  simp [step, takeOperation, h]

theorem step_of_empty {s : State} (h : s.pending = []) : step s = .next s := by
  simp [step, takeOperation, h]

/-- The write of a command word is always accepted, and answered Ok before the command runs (R230, R241). -/
theorem hostWrite_command (w : Word) (s : State) : hostWrite Config.regBase 4 w s = submit w (s.answer .ok) := by
  have h : busReject s true Config.regBase 4 = none := rfl
  simp only [hostWrite, h]
  rfl

/-- A step that issues a command word: the operation is taken and answered, then the word is run (R101, R230). -/
theorem step_command {s : State} {w : Word} {rest : List HostOp} (h : s.pending = commandOp w :: rest) :
    step s = submit w { s with pending := rest, replies := s.replies ++ [.ok] } := by
  rw [step_of_pending h, commandOp, perform_write, hostWrite_command]
  simp [State.answer, State.taken, h]

/-- What a write transaction can do: rejected with no change, a byte stored, a command, or a register stored. -/
theorem hostWrite_cases (a n : Nat) (d : Word) (s : State) :
    (hostWrite a n d s = .next (s.answer .busError)) ∨
      (busReject s true a n = none ∧ n = 1 ∧
        hostWrite a n d s = .next ((s.writeByte a (d.setWidth 8)).answer .ok)) ∨
      (busReject s true a n = none ∧ n ≠ 1 ∧ regAt a = some .cmd ∧ hostWrite a n d s = submit d (s.answer .ok)) ∨
      (∃ r, busReject s true a n = none ∧ n ≠ 1 ∧ regAt a = some r ∧ r ≠ .cmd ∧
        hostWrite a n d s = .next ((s.writeReg r d).answer .ok)) := by
  unfold hostWrite
  split
  · exact .inl rfl
  · rename_i hb
    by_cases hn : n = 1
    · exact .inr (.inl ⟨hb, hn, by simp [hn]⟩)
    · rw [if_neg hn]
      cases hr : regAt a with
      | none => exact .inl rfl
      | some r =>
        by_cases hc : r = .cmd
        · subst hc; exact .inr (.inr (.inl ⟨hb, hn, rfl, rfl⟩))
        · refine .inr (.inr (.inr ⟨r, hb, hn, rfl, hc, ?_⟩))
          cases r <;> first | exact absurd rfl hc | rfl

/-- What a command word can do (R101): reset, return from a fault, be ignored, be illegal, or run a command. -/
theorem submit_cases (w : Word) (s : State) :
    (w = 0x00000003 ∧ submit w s = .next s.resetBlock) ∨
      (s.fault = true ∧ w = 0x00000002 ∧ submit w s = .next s.clearFault) ∨
      (s.fault = true ∧ w ≠ 0x00000003 ∧ w ≠ 0x00000002 ∧ submit w s = .next s) ∨
      (s.fault = false ∧ w ≠ 0x00000003 ∧ (∃ e, decodeWord w = .error e) ∧
        submit w s = .next (s.faulted .illegalCommand w)) ∨
      (s.fault = false ∧ w ≠ 0x00000003 ∧ ∃ i, decodeWord w = .ok i ∧ submit w s = exec i s) := by
  unfold submit
  by_cases h3 : w = 0x00000003
  · exact .inl ⟨h3, by simp [h3, exec, execSreset]⟩
  · simp only [h3, if_false]
    cases hf : s.fault with
    | true =>
      by_cases h2 : w = 0x00000002
      · exact .inr (.inl ⟨rfl, h2, by simp [h2, exec, execClrerr]⟩)
      · exact .inr (.inr (.inl ⟨rfl, h3, h2, by rw [if_pos rfl, if_neg h2]⟩))
    | false =>
      cases hd : decodeWord w with
      | error e => exact .inr (.inr (.inr (.inl ⟨rfl, h3, ⟨e, rfl⟩, rfl⟩)))
      | ok i => exact .inr (.inr (.inr (.inr ⟨rfl, h3, i, rfl, rfl⟩)))

/-- A region of BUF is a place below 0x200, a region of registers starts there (R70). -/
theorem isBuf_lt {a : Nat} (h : (regionOf a).isBuf = true) : a < 0x170 := by
  unfold regionOf at h
  (repeat' split at h) <;> first | omega | (simp [Region.isBuf] at h)

/-- An accepted byte access is an access to a place of BUF with the right to it (R76). -/
theorem busReject_byte {s : State} {wr : Bool} {a : Nat} (h : busReject s wr a 1 = none) :
    (regionOf a).isBuf = true ∧ rightReject s wr (regionOf a).access = none := by
  unfold busReject at h
  simp only [show ¬((1 : Nat) ≠ 1 ∧ (1 : Nat) ≠ 4) by omega, if_false, show (1 : Nat) ≠ 4 by omega] at h
  split at h
  · cases h
  · split at h
    · cases h
    · split at h
      · exact ⟨‹_›, h⟩
      · simp at h

/-- An accepted word access is an access to a register with the right to it (R76). -/
theorem busReject_word {s : State} {wr : Bool} {a n : Nat} (hn : n ≠ 1) (h : busReject s wr a n = none) :
    ∃ r, regAt a = some r ∧ rightReject s wr r.access = none := by
  unfold busReject at h
  split at h
  · cases h
  · split at h
    · cases h
    · split at h
      · cases h
      · split at h
        · rw [if_pos (by omega)] at h; cases h
        · cases hr : regAt a with
          | none => rw [hr] at h; cases h
          | some r => rw [hr] at h; exact ⟨r, rfl, h⟩

/-- The address of CMD (R21). -/
theorem regAt_cmd {a : Nat} (h : regAt a = some .cmd) : a = Config.regBase := by
  unfold regAt at h
  split at h
  · rename_i hb
    unfold regOfNumber at h
    split at h <;> simp only [Option.some.injEq, reduceCtorEq] at h
    rename_i hz
    simp only [Config.regBase] at hb hz ⊢
    omega
  · cases h

/-- An accepted transaction has size 1 or 4 (R76 case 1). -/
theorem busReject_size {s : State} {wr : Bool} {a n : Nat} (h : busReject s wr a n = none) : n = 1 ∨ n = 4 := by
  unfold busReject at h
  split at h
  · cases h
  · omega

/-- What a step can do, said once: nothing (no operation), an answer and no change, a reset, a byte stored, a register
stored, or a command word run. -/
theorem step_cases {s t : State} (h : step s = .next t) :
    (s.pending = [] ∧ t = s) ∨
      ∃ op rest, s.pending = op :: rest ∧
        ((∃ r, op ≠ .reset ∧ t = s.taken.answer r) ∨
          (op = .reset ∧ t = s.taken.resetBlock) ∨
          (∃ a d, op = .write a 1 d ∧ (regionOf a).isBuf = true ∧
            rightReject s true (regionOf a).access = none ∧ t = (s.taken.writeByte a (d.setWidth 8)).answer .ok) ∨
          (∃ a d r, op = .write a 4 d ∧ regAt a = some r ∧ r ≠ .cmd ∧ rightReject s true r.access = none ∧
            t = (s.taken.writeReg r d).answer .ok) ∨
          (∃ w, op = commandOp w ∧ submit w (s.taken.answer .ok) = .next t)) := by
  cases hp : s.pending with
  | nil => rw [step_of_empty hp] at h; cases h; exact .inl ⟨rfl, rfl⟩
  | cons op rest =>
    refine .inr ⟨op, rest, rfl, ?_⟩
    rw [step_of_pending hp] at h
    cases op with
    | read a n => cases h; exact .inl ⟨_, by simp, rfl⟩
    | reset => cases h; exact .inr (.inl ⟨rfl, rfl⟩)
    | write a n d =>
      rw [perform_write] at h
      have hr : ∀ acc, rightReject s.taken true acc = rightReject s true acc := fun acc => rfl
      rcases hostWrite_cases a n d s.taken with e | ⟨hb, hn, e⟩ | ⟨hb, hn, hc, e⟩ | ⟨r, hb, hn, ha, hc, e⟩
      · cases e.symm.trans h; exact .inl ⟨_, by simp, rfl⟩
      · subst hn
        cases e.symm.trans h
        obtain ⟨h1, h2⟩ := busReject_byte hb
        exact .inr (.inr (.inl ⟨a, d, rfl, h1, h2, rfl⟩))
      · have h4 : n = 4 := (busReject_size hb).resolve_left hn
        have ha := regAt_cmd hc
        subst h4 ha
        exact .inr (.inr (.inr (.inr ⟨d, rfl, e.symm.trans h⟩)))
      · have h4 : n = 4 := (busReject_size hb).resolve_left hn
        obtain ⟨r', h1, h2⟩ := busReject_word hn hb
        subst h4
        cases ha.symm.trans h1
        cases e.symm.trans h
        exact .inr (.inr (.inr (.inl ⟨a, d, r, rfl, ha, hc, h2, rfl⟩)))

end Sys2Proof.Machine
end

