-- ==== Sys2Proof/Laws/Program.lean ====
section
/-! SUPPORT. What each line of a host program does to the engine and to the replies, said once. -/

namespace Sys2Proof.Machine

/-! ## One operation and a list of them -/

/-- The register at the address of a register (R21). -/
@[simp] theorem regAt_number (r : Reg) : regAt (Config.regBase + 4 * r.number) = some r := by
  cases r <;> rfl

theorem regionOf_number (r : Reg) : regionOf (Config.regBase + 4 * r.number) = .reg := by
  cases r <;> rfl

/-- An operation put to the port is performed at once: what the host has queued behind it plays no part. -/
theorem ask_eq (op : HostOp) (s : State) : ask op s = perform op s := rfl

@[simp] theorem askAll_nil (s : State) : askAll [] s = .next s := rfl

@[simp] theorem askAll_cons (op : HostOp) (ops : List HostOp) (s : State) :
    askAll (op :: ops) s = andThen (ask op s) (askAll ops) := rfl

theorem andThen_assoc (r : Result) (f g : State → Result) :
    andThen (andThen r f) g = andThen r fun s => andThen (f s) g := by
  cases r <;> rfl

theorem askAll_append (a b : List HostOp) (s : State) :
    askAll (a ++ b) s = andThen (askAll a s) (askAll b) := by
  induction a generalizing s with
  | nil => rfl
  | cons op a ih =>
    rw [List.cons_append, askAll_cons, askAll_cons, andThen_assoc]
    congr 1
    funext u
    exact ih u

/-! ## The lines (R111) -/

/-- `RD reg` answers the register's word and changes nothing else (R75, R77). -/
theorem ask_rd {r : Reg} (h : r ≠ .cmd) (s : State) : ask (HostOp.rd r) s = .next (s.answer (.word (s.readReg r))) := by
  cases r <;> first | exact absurd rfl h | rfl

/-- `WR reg, value` of a register whose right to be written stands (R75, R76). -/
theorem ask_wr {r : Reg} {s : State} (h : r ≠ .cmd) (hr : rightReject s true r.access = none) (w : Word) :
    ask (HostOp.wr r w) s = .next ((s.writeReg r w).answer .ok) := by
  have hb : busReject s true (Config.regBase + 4 * r.number) 4 = none := by
    revert hr; cases r <;> exact id
  rw [ask_eq, HostOp.wr, perform_write, hostWrite, hb]
  simp only [show (4 : Nat) ≠ 1 by omega, if_false, regAt_number]

/-- A command line is accepted and its word is run (R230, R101). -/
theorem ask_cmd (i : Instr) (s : State) : ask (HostOp.cmd i) s = submit (encode i) (s.answer .ok) :=
  hostWrite_command _ _

/-- A command word runs its command when no fault stands (R101). -/
theorem submit_encode {i : Instr} {s : State} (h : s.fault = false) (hd : decodeWord (encode i) = .ok i) :
    submit (encode i) s = exec i s := by
  rcases submit_cases (encode i) s with ⟨h3, e⟩ | ⟨hf, _⟩ | ⟨hf, _⟩ | ⟨_, _, ⟨e, he⟩, _⟩ | ⟨_, _, j, hj, e⟩
  · rw [h3] at hd
    cases (show decodeWord 0x00000003 = .ok .sreset from rfl).symm.trans hd
    exact e
  · rw [h] at hf; cases hf
  · rw [h] at hf; cases hf
  · rw [hd] at he; cases he
  · rw [hd] at hj; cases hj; exact e

/-- Byte reads of any addresses: the replies, and nothing else (R77). -/
theorem askAll_reads (a : Nat) (js : List Nat) (s : State) :
    askAll (js.map fun j => .read (a + j) 1) s =
      .next { s with replies := s.replies ++ js.map fun j => s.hostRead (a + j) 1 } := by
  induction js generalizing s with
  | nil => simp
  | cons j js ih =>
    rw [List.map_cons, askAll_cons, ask_eq, perform_read, andThen_next, ih]
    simp only [State.answer, List.append_assoc, List.map_cons, List.singleton_append]
    rfl

/-- A byte read of a place of BUF answers the byte, gated where it is gated (R73). -/
theorem hostRead_byte {a : Nat} (h : (regionOf a).isBuf = true) (s : State) : s.hostRead a 1 = .byte (s.hostByte a) := by
  have hb : busReject s false a 1 = none := by
    have h1 := isBuf_lt h
    have h2 : regionOf a ≠ .reserved := by intro e; rw [e] at h; cases h
    simp only [busReject, show ¬((1 : Nat) ≠ 1 ∧ (1 : Nat) ≠ 4) by omega, show ¬ a > 0x3FF by omega, h2, h, if_true,
      if_false, show (1 : Nat) ≠ 4 by omega]
    revert h; cases regionOf a <;> simp [Region.isBuf, Region.access, rightReject]
  rw [State.hostRead, hb]
  rfl

/-- `RB` of `n` bytes of BUF (R73). -/
theorem askAll_rb {a n : Nat} (h : ∀ j, j < n → (regionOf (a + j)).isBuf = true) (s : State) :
    askAll (HostOp.rb a n) s =
      .next { s with replies := s.replies ++ (List.range n).map fun j => .byte (s.hostByte (a + j)) } := by
  rw [HostOp.rb, askAll_reads]
  congr 3
  exact List.map_congr_left fun j hj => hostRead_byte (h j (List.mem_range.1 hj)) s

/-- `WB` of consecutive bytes of BUF that may be written: they are stored and each is answered Ok (R73, R76). -/
theorem askAll_wb (a : Nat) (bs : List Byte) (s : State)
    (h : ∀ j, j < bs.length → (regionOf (a + j)).isBuf = true ∧ rightReject s true (regionOf (a + j)).access = none) :
    askAll (HostOp.wb a bs) s =
      .next { s with buf := s.buf.writeBytes a bs, replies := s.replies ++ List.replicate bs.length .ok } := by
  induction bs generalizing a s with
  | nil => simp [HostOp.wb, Memory.writeBytes]
  | cons b bs ih =>
    have h0 := h 0 (by simp)
    rw [Nat.add_zero] at h0
    have hb : busReject s true a 1 = none := by
      have h1 := isBuf_lt h0.1
      have h2 : regionOf a ≠ .reserved := by intro e; rw [e] at h0; cases h0.1
      simp only [busReject, show ¬((1 : Nat) ≠ 1 ∧ (1 : Nat) ≠ 4) by omega, show ¬ a > 0x3FF by omega, h2, h0.1, h0.2,
        if_true, if_false, show (1 : Nat) ≠ 4 by omega]
    have e : ask (.write a 1 (b.setWidth 32)) s = .next ((s.writeByte a b).answer .ok) := by
      rw [ask_eq, perform_write, hostWrite, hb]
      simp
    rw [HostOp.wb, askAll_cons, e, andThen_next, ih]
    · simp only [State.writeByte, State.answer, Memory.writeBytes, List.append_assoc, List.length_cons,
        List.replicate_succ, List.singleton_append]
    · intro j hj
      have := h (j + 1) (by simpa using hj)
      rw [show a + (j + 1) = a + 1 + j by omega] at this
      exact this

/-! ## The pseudo-instructions (R112) -/

/-- `SETTIME`: both halves of TIME and both bits of TMASK (R34). -/
theorem askAll_setTime (t : Dword) (s : State) :
    askAll (setTime t) s =
      .next { s with timeLo := loHalf t, timeHi := hiHalf t, tmask := 0b11, replies := s.replies ++ [.ok, .ok] } := by
  have h : ∀ m : BitVec 2, m ||| 0b01 ||| 0b10 = 0b11 := by decide
  rw [setTime, askAll_cons, ask_wr (by decide) rfl, andThen_next, askAll_cons, ask_wr (by decide) rfl, andThen_next,
    askAll_nil]
  simp only [State.writeReg, State.answer, h, List.append_assoc]
  rfl

/-- `LDTEXT`. -/
theorem askAll_ldText {text : List Byte} (h : text.length ≤ 128) (s : State) :
    askAll (ldText text) s =
      .next { s with
        buf := s.buf.writeBytes Config.textBase text
        textLen := BitVec.ofNat 32 text.length
        replies := s.replies ++ List.replicate (text.length + 1) .ok } := by
  rw [ldText, askAll_append, askAll_wb, andThen_next, askAll_cons, ask_wr (by decide) rfl, andThen_next, askAll_nil]
  · simp only [State.writeReg, State.answer, List.append_assoc, List.replicate_succ']
  · intro j hj
    have : regionOf (Config.textBase + j) = .text := by
      unfold regionOf Config.textBase
      (repeat' split) <;> first | rfl | omega
    rw [this]; exact ⟨rfl, rfl⟩

/-- `LDDIG`: the state of `withDigest`, and the replies. -/
theorem askAll_ldDig {digest : List Byte} (h : digest.length ≤ 64) (s : State) :
    askAll (ldDig digest) s =
      .next { s.withDigest digest with replies := s.replies ++ List.replicate (digest.length + 1) .ok } := by
  rw [ldDig, askAll_append, askAll_wb, andThen_next, askAll_cons, ask_wr (by decide) rfl, andThen_next, askAll_nil]
  · simp only [State.writeReg, State.answer, State.withDigest, List.append_assoc, List.replicate_succ']
  · intro j hj
    have : regionOf (Config.digestBase + j) = .digest := by
      unfold regionOf Config.digestBase
      (repeat' split) <;> first | rfl | omega
    rw [this]; exact ⟨rfl, rfl⟩

/-- `LDCAND` outside a window (R37). -/
theorem askAll_ldCand {s : State} (h : s.winActive = false) (cand : List Byte) :
    askAll (ldCand cand) s =
      .next { s with
        buf := s.buf.writeBytes Config.candBase (cand.take Config.codeBuf)
        candLen := BitVec.ofNat 32 cand.length
        replies := s.replies ++ List.replicate ((cand.take Config.codeBuf).length + 1) .ok } := by
  have hr : rightReject s true .winLocked = none := by simp [rightReject, h]
  rw [ldCand, askAll_append, askAll_wb, andThen_next, askAll_cons, ask_wr (by decide) hr, andThen_next, askAll_nil]
  · simp only [State.writeReg, State.answer, List.append_assoc, List.replicate_succ']
  · intro j hj
    have : regionOf (Config.candBase + j) = .cand := by
      simp only [List.length_take, Config.codeBuf] at hj
      unfold regionOf Config.candBase
      (repeat' split) <;> first | rfl | omega
    rw [this]; exact ⟨rfl, hr⟩

/-! ## Commands in a program -/

/-- No command depends on the replies the host has had, and none changes them. -/
theorem exec_withReplies (i : Instr) {s t : State} (R : List Reply) (h : exec i s = .next t) :
    exec i { s with replies := R } = .next { t with replies := R } := by
  generalize hu : ({ s with replies := R } : State) = u
  have hk : u.cfgOk = s.cfgOk ∧ u.timeValid = s.timeValid ∧ u.valueValid = s.valueValid ∧ u.codeValid = s.codeValid ∧
      u.winActive = s.winActive := by subst hu; exact ⟨rfl, rfl, rfl, rfl, rfl⟩
  obtain ⟨k1, k2, k3, k4, k5⟩ := hk
  cases i with
  | clrerr => cases h; subst hu; rfl
  | sreset => cases h; subst hu; rfl
  | cfglock =>
    have hl : u.cfgLegal = s.cfgLegal := by subst hu; rfl
    rcases execCfglock_cases s with ⟨h1, e⟩ | ⟨h1, h2, e⟩ | ⟨h1, h2, e⟩ <;> cases e.symm.trans h <;>
      rcases execCfglock_cases u with ⟨g1, e⟩ | ⟨g1, g2, e⟩ | ⟨g1, g2, e⟩ <;> subst hu <;>
      first | exact e | exact absurd (g1.symm.trans (k1.trans h1)) (by decide) |
        exact absurd (g2.symm.trans (hl.trans h2)) (by decide)
  | b32dec =>
    have hl : u.textLen = s.textLen ∧ u.strippedText = s.strippedText := by subst hu; exact ⟨rfl, rfl⟩
    rcases execB32dec_cases s with ⟨h1, e⟩ | ⟨h1, h2, e⟩ | ⟨o, h1, h2, e⟩ <;> cases e.symm.trans h <;>
      rcases execB32dec_cases u with ⟨g1, e⟩ | ⟨g1, g2, e⟩ | ⟨o', g1, g2, e⟩ <;> rw [hl.1] at g1 <;>
      first | (exfalso; omega) | (exfalso; rw [hl.2, h2] at g2; cases g2; done) |
        (rw [hl.2, h2] at g2; cases g2; subst hu; exact e) | (subst hu; exact e)
  | dtrunc =>
    have hl : dlen u.cfgAlg = dlen s.cfgAlg ∧ u.digestLen = s.digestLen := by subst hu; exact ⟨rfl, rfl⟩
    rcases execDtrunc_cases s with ⟨h1, e⟩ | ⟨h1, h2, e⟩ | ⟨h1, h2, e⟩ <;> cases e.symm.trans h <;>
      rcases execDtrunc_cases u with ⟨g1, e⟩ | ⟨g1, g2, e⟩ | ⟨g1, g2, e⟩ <;>
      first | exact absurd (g1.symm.trans (k1.trans h1)) (by decide) |
        (rw [hl.1, hl.2] at g2; first | exact absurd g2 h2 | exact absurd h2 g2 | (subst hu; exact e)) |
        (subst hu; exact e)
  | modred =>
    rcases execModred_cases s with ⟨h1, e⟩ | ⟨h1, h2, e⟩ <;> cases e.symm.trans h <;>
      rcases execModred_cases u with ⟨g1, e⟩ | ⟨g1, g2, e⟩ <;>
      first | (exfalso; simp_all; done) | (subst hu; exact e)
  | slice k =>
    have hl : u.slice = s.slice := by subst hu; rfl
    rcases execSlice_cases k s with ⟨h1, e⟩ | ⟨h1, h2, h3, e⟩ | ⟨h1, h2, h3, h4, e⟩ <;> cases e.symm.trans h <;>
      rcases execSlice_cases k u with ⟨g1, e⟩ | ⟨g1, g2, g3, e⟩ | ⟨g1, g2, g3, g4, e⟩ <;>
      first | (exfalso; simp_all; done) | (exfalso; omega) | (subst hu; exact e)
  | vbegin d =>
    rcases execVbegin_cases d s with ⟨h1, e⟩ | ⟨h1, h2, h3, e⟩ | ⟨h1, h2, h3, e⟩ <;> cases e.symm.trans h <;>
      rcases execVbegin_cases d u with ⟨g1, e⟩ | ⟨g1, g2, g3, e⟩ | ⟨g1, g2, g3, e⟩ <;>
      first | (exfalso; simp_all; done) | (exfalso; omega) | (subst hu; exact e)
  | slicew =>
    have hl : (u.winBase.toNat : Int) + u.winI.toInt = (s.winBase.toNat : Int) + s.winI.toInt := by subst hu; rfl
    rcases execSlicew_cases s with ⟨h1, e⟩ | ⟨h1, h2, e⟩ | ⟨h1, h2, h3, e⟩ <;> cases e.symm.trans h <;>
      rcases execSlicew_cases u with ⟨g1, e⟩ | ⟨g1, g2, e⟩ | ⟨g1, g2, g3, e⟩ <;>
      first | exact absurd (g1.symm.trans (k5.trans h1)) (by decide) |
        (exfalso; omega) | (subst hu; exact e)
  | cmp =>
    rcases execCmp_cases s with ⟨h1, e⟩ | ⟨h1, h2, h3, e⟩ <;> cases e.symm.trans h <;>
      rcases execCmp_cases u with ⟨g1, e⟩ | ⟨g1, g2, g3, e⟩ <;>
      first | (exfalso; simp_all; done) | (subst hu; exact e)
  | cmpw =>
    have hl : (u.winI = u.winD ↔ s.winI = s.winD) := by subst hu; rfl
    rcases execCmpw_cases s with ⟨h1, e⟩ | ⟨h1, h2, h3, e⟩ | ⟨h1, h2, h3, e⟩ <;> cases e.symm.trans h <;>
      rcases execCmpw_cases u with ⟨g1, e⟩ | ⟨g1, g2, g3, e⟩ | ⟨g1, g2, g3, e⟩ <;>
      first | exact absurd (hl.1 g3) h3 | exact absurd (hl.2 h3) g3 | (exfalso; simp_all; done) | (subst hu; exact e)

/-- A command line with no fault standing: the command runs, the replies grow by one Ok. -/
theorem ask_cmd_runs {i : Instr} {s t : State} (hf : s.fault = false) (hd : decodeWord (encode i) = .ok i)
    (h : exec i s = .next t) (R : List Reply) :
    ask (HostOp.cmd i) { s with replies := R } = .next { t with replies := R ++ [.ok] } := by
  rw [ask_cmd, submit_encode (by exact hf) hd]
  exact exec_withReplies i (R ++ [.ok]) h

/-- A command line under a fault: nothing but the reply, unless it is SRESET or CLRERR (R241). -/
theorem ask_cmd_ignored {i : Instr} {s : State} (hf : s.fault = true) (h3 : encode i ≠ 0x00000003)
    (h2 : encode i ≠ 0x00000002) : ask (HostOp.cmd i) s = .next (s.answer .ok) := by
  rw [ask_cmd]
  rcases submit_cases (encode i) (s.answer .ok) with ⟨h, _⟩ | ⟨_, h, _⟩ | ⟨_, _, _, e⟩ | ⟨h, _⟩ | ⟨h, _⟩
  · exact absurd h h3
  · exact absurd h h2
  · exact e
  · exact absurd (hf.symm.trans h) (by decide)
  · exact absurd (hf.symm.trans h) (by decide)

/-! ## EXTHMAC -/

/-- The word a read has just answered. -/
@[simp] theorem State.wordRead_answer (s : State) (w : Word) : (s.answer (.word w)).wordRead = w := by
  simp [State.wordRead, State.answer, Reply.wordOf]

theorem flagBit_getLsbD {n : Nat} (b : Bool) (k : Nat) (hn : n < 32) :
    (flagBit n b).getLsbD k = (b && decide (k = n)) := by
  cases b
  · simp [flagBit]
  · simp only [flagBit, if_true, Bool.true_and, show ((1 : Word) <<< n) = BitVec.twoPow 32 n by simp [BitVec.twoPow],
      BitVec.getLsbD_twoPow, hn, decide_true, eq_comm]

/-- R272: the host starts an HMAC exactly when KEY_VALID = 1 and FAULT = 0. -/
theorem hmacAllowed_status (s : State) : hmacAllowed s.status = (s.keyValid && !s.fault) := by
  have h : ∀ k, s.status.getLsbD k =
      (s.cfgOk && decide (k = 0) || s.timeValid && decide (k = 1) || s.keyValid && decide (k = 2) ||
        s.msgValid && decide (k = 3) || s.valueValid && decide (k = 4) || s.codeValid && decide (k = 5) ||
        s.winActive && decide (k = 6) || s.resultValid && decide (k = 7) || s.fault && decide (k = 8)) := by
    intro k
    simp only [State.status, BitVec.getLsbD_or, flagBit_getLsbD _ _ (show 0 < 32 by omega),
      flagBit_getLsbD _ _ (show 1 < 32 by omega), flagBit_getLsbD _ _ (show 2 < 32 by omega),
      flagBit_getLsbD _ _ (show 3 < 32 by omega), flagBit_getLsbD _ _ (show 4 < 32 by omega),
      flagBit_getLsbD _ _ (show 5 < 32 by omega), flagBit_getLsbD _ _ (show 6 < 32 by omega),
      flagBit_getLsbD _ _ (show 7 < 32 by omega), flagBit_getLsbD _ _ (show 8 < 32 by omega)]
  rw [hmacAllowed, h, h]
  simp

/-- `RB` of a gated region whose flag is set gives its bytes. -/
theorem map_hostByte {s : State} {a n : Nat} {r : Region} (hr : ∀ j, j < n → regionOf (a + j) = r)
    (hf : s.regionFlag r = true) :
    (List.range n).map (fun j => Reply.byte (s.hostByte (a + j))) = (s.buf.readBytes a n).map .byte := by
  rw [Memory.readBytes, List.map_map]
  refine List.map_congr_left fun j hj => ?_
  rw [Function.comp, State.hostByte, hr j (List.mem_range.1 hj), hf]
  rfl

theorem length_hmac_le (alg : Word) (key msg : List Byte) : (hmac alg key msg).length ≤ 64 := by
  unfold hmac
  cases h : dlen alg with
  | none => simp
  | some n => have := dlen_cases h; simp; omega

/-- `EXTHMAC` with a valid key and message: the HMAC of both stands in DIGEST, and nothing else has changed but the
replies (R112, R271). -/
theorem extHmac_eq (alg : Word) {s : State} (hk : s.keyValid = true) (hm : s.msgValid = true)
    (hl : s.keyLen.toNat ≤ 80) :
    ∃ R, extHmac alg s = .next { s.withDigest (hmac alg s.keyBytes s.msgBytes) with replies := R } := by
  have hkey : ∀ j, j < s.keyLen.toNat → regionOf (Config.keyBase + j) = .key := by
    intro j hj; unfold regionOf Config.keyBase; (repeat' split) <;> first | rfl | omega
  have hmsg : ∀ j, j < Config.msgLen → regionOf (Config.msgBase + j) = .msg := by
    intro j hj; unfold Config.msgLen at hj; unfold regionOf Config.msgBase; (repeat' split) <;> first | rfl | omega
  have hlen : (s.answer (.word s.keyLen)).readReg .keyLen = s.keyLen := by
    show gate s.keyValid s.keyLen = _; rw [hk]; rfl
  have hlen' : s.readReg .keyLen = s.keyLen := hlen
  have hreads : askAll (HostOp.rb Config.keyBase s.keyLen.toNat ++ HostOp.rb Config.msgBase Config.msgLen)
      (s.answer (.word s.keyLen)) =
      .next { s with replies := s.replies ++ [.word s.keyLen] ++ (s.keyBytes.map .byte ++ s.msgBytes.map .byte) } := by
    rw [askAll_append, askAll_rb (fun j hj => by rw [hkey j hj]; rfl), map_hostByte hkey, andThen_next,
      askAll_rb (fun j hj => by rw [hmsg j hj]; rfl), map_hostByte hmsg]
    · simp only [State.answer, List.append_assoc]
      rfl
    · exact hm
    · exact hk
  rw [extHmac, ask_rd (by decide), andThen_next, hlen']
  simp only [State.wordRead_answer]
  rw [hreads, andThen_next]
  have hsince : (s.answer (.word s.keyLen)).repliesSince
      { s with replies := s.replies ++ [.word s.keyLen] ++ (s.keyBytes.map .byte ++ s.msgBytes.map .byte) } =
      s.keyBytes.map .byte ++ s.msgBytes.map .byte := List.drop_left
  have hmap : ∀ l : List Byte, (l.map Reply.byte).map Reply.byteOf = l := fun l => by
    rw [List.map_map]; exact List.map_id l
  have hkl : s.keyLen.toNat = s.keyBytes.length := by simp [State.keyBytes]
  rw [hsince, List.map_append, hmap, hmap, hkl, List.take_left, List.drop_left, askAll_ldDig (length_hmac_le _ _ _)]
  exact ⟨_, rfl⟩

/-- The host's look at STATUS: with a key, a message and no fault the HMAC is written. -/
theorem guardedHmac_allowed (alg : Word) {s : State} (hf : s.fault = false) (hk : s.keyValid = true)
    (hm : s.msgValid = true) (hl : s.keyLen.toNat ≤ 80) :
    ∃ R, guardedHmac alg s = .next { s.withDigest (hmac alg s.keyBytes s.msgBytes) with replies := R } := by
  rw [guardedHmac, ask_rd (by decide), andThen_next, State.wordRead_answer]
  simp only [State.readReg, hmacAllowed_status, hk, hf, Bool.not_false, Bool.and_self, if_true]
  exact extHmac_eq alg (s := s.answer (.word s.status)) hk hm hl

/-- The host's look at STATUS: under a fault nothing is written. -/
theorem guardedHmac_refused (alg : Word) {s : State} (hf : s.fault = true) :
    ∃ R, guardedHmac alg s = .next { s with replies := R } := by
  rw [guardedHmac, ask_rd (by decide), andThen_next, State.wordRead_answer]
  have h : hmacAllowed (s.readReg .status) = false := by
    show hmacAllowed s.status = false; rw [hmacAllowed_status, hf]; simp
  rw [h, if_neg Bool.false_ne_true]
  exact ⟨_, rfl⟩

/-! ## B32DEC of a loaded text -/

theorem strippedLen_congr {c c' : Nat → Byte} (n : Nat) (h : ∀ j, j < n → c j = c' j) :
    strippedLen c n = strippedLen c' n := by
  induction n with
  | zero => rfl
  | succ n ih => rw [strippedLen, strippedLen, h n (by omega), ih fun j hj => h j (by omega)]

theorem strippedLen_le (c : Nat → Byte) (n : Nat) : strippedLen c n ≤ n := by
  induction n with
  | zero => exact Nat.le_refl _
  | succ n ih => unfold strippedLen; split <;> omega

/-- After LDTEXT the text B32DEC decodes is the text loaded, less its trailing `=`: it decodes to `decode(text)` of
R5. -/
theorem b32Decode_strippedText {text : List Byte} {s : State} (hl : s.textLen.toNat = text.length)
    (hb : ∀ (j : Nat) (h : j < text.length), s.buf.read (Config.textBase + j) = text[j]) :
    b32Decode s.strippedText = decodeSecret text := by
  have hc : ∀ j, j < text.length → s.textByte j = text.getD j 0x00 := by
    intro j hj; rw [State.textByte, hb j hj]; simp [hj]
  simp only [State.strippedText, decodeSecret, hl]
  rw [strippedLen_congr _ hc]
  congr 1
  refine List.map_congr_left fun j hj => hc j ?_
  have := strippedLen_le (fun j => text.getD j 0x00) text.length
  have := List.mem_range.1 hj
  omega

end Sys2Proof.Machine
end

