-- ==== Sys2Proof/Tests/Slice0.lean ====
section
/-! SUPPORT. Tests with expected values from the spec (the source of each stands in its comment), and one witness for the
hypotheses of each obligation that has some. -/

namespace Sys2Proof.Tests
open Sys2Proof.Machine

/-! ## Helpers -/

/-- A view of the next state. -/
def got {α : Type} (r : Result) (f : State → α) : Option α :=
  match r with
  | .next t => some (f t)
  | .fault _ => none
  | .refused _ => none

/-- The ASCII bytes of a string. -/
def ascii (text : String) : List Byte := text.toList.map fun c => BitVec.ofNat 8 c.toNat

/-- A host that writes one word to a register. -/
def put (a : Nat) (w : Word) : HostOp := .write a 4 w

/-- The host's next operations. -/
def asked (ops : List HostOp) (s : State) : State := { s with pending := ops }

/-- The host has loaded a text (R112 LDTEXT). -/
def withText (text : String) (s : State) : State :=
  { s with
    buf := s.buf.writeBytes Config.textBase (ascii text)
    textLen := BitVec.ofNat 32 (ascii text).length }

/-- The host has loaded a candidate (R112 LDCAND). -/
def withCand (text : String) (s : State) : State :=
  { s with
    buf := s.buf.writeBytes Config.candBase (ascii text)
    candLen := BitVec.ofNat 32 (ascii text).length }

/-- A frozen configuration and a time in both halves. -/
def locked (digits : Word) (time : Dword) : State :=
  { State.reset with
    cfgOk := true, cfgDigits := digits, tmask := 0b11, timeLo := loHalf time, timeHi := hiHalf time }

/-- The digest of S3, time 59. -/
def digestS3 : List Byte :=
  [0x75, 0xA4, 0x8A, 0x19, 0xD4, 0xCB, 0xE1, 0x00, 0x64, 0x4E, 0x8A, 0xC1, 0x39, 0x7E, 0xEA, 0x74, 0x7A, 0x2D, 0x33,
    0xAB]

/-- The digest of S9, counter 47561575: its offset is 15. -/
def digestS9 : List Byte :=
  [0x05, 0x58, 0x30, 0xDB, 0xED, 0x5A, 0xA6, 0xC7, 0x18, 0x14, 0xA5, 0x8B, 0xC2, 0x78, 0x27, 0x92, 0x19, 0x4F, 0x0D,
    0x4F]

/-- A truncated value is held. -/
def valued (digits : Word) (v : BitVec 31) : State := { locked digits 59 with value := v, valueValid := true }

/-- A code is held: VALUE of S7, six digits. -/
def coded : State := (valued 6 1826543160).withCode 6 543160

/-- A window of discrepancy 1 at offset `i`, with the code and the candidate of S7. -/
def inWindow (i : Int) : State :=
  { withCand "543160" coded with winActive := true, winD := 1, winI := BitVec.ofInt 32 i, winBaseLo := 47561573 }

/-- A faulted engine with a frozen configuration. -/
def stuck : State := (locked 6 59).faulted .invalidSecret 0x00000010

/-! ## WellFormed refuses what no word encodes (R103) -/

theorem test_wf_slice_high : (Instr.slice 32768).wf = false := by decide
theorem test_wf_slice_low : (Instr.slice (-32769)).wf = false := by decide
theorem test_wf_vbegin_high : (Instr.vbegin 32768).wf = false := by decide
theorem test_wf_vbegin_low : (Instr.vbegin (-32769)).wf = false := by decide

/-! ## Every command's word, written out from R102 (`rsv imm op`), R103 and the opcode map of R104 -/

theorem test_decode_cfglock : decodeWord (0b00000000#8 ++ 0b0000000000000000#16 ++ 0b00000001#8) = .ok .cfglock := rfl
theorem test_decode_clrerr : decodeWord (0b00000000#8 ++ 0b0000000000000000#16 ++ 0b00000010#8) = .ok .clrerr := rfl
theorem test_decode_sreset : decodeWord (0b00000000#8 ++ 0b0000000000000000#16 ++ 0b00000011#8) = .ok .sreset := rfl
theorem test_decode_b32dec : decodeWord (0b00000000#8 ++ 0b0000000000000000#16 ++ 0b00010000#8) = .ok .b32dec := rfl
theorem test_decode_dtrunc : decodeWord (0b00000000#8 ++ 0b0000000000000000#16 ++ 0b00100000#8) = .ok .dtrunc := rfl
theorem test_decode_modred : decodeWord (0b00000000#8 ++ 0b0000000000000000#16 ++ 0b00100001#8) = .ok .modred := rfl
theorem test_decode_slice :
    decodeWord (0b00000000#8 ++ 0b1000000000000001#16 ++ 0b00110000#8) = .ok (.slice (-32767)) := rfl
theorem test_decode_vbegin :
    decodeWord (0b00000000#8 ++ 0b0111111111111111#16 ++ 0b00110001#8) = .ok (.vbegin 32767) := rfl
theorem test_decode_slicew : decodeWord (0b00000000#8 ++ 0b0000000000000000#16 ++ 0b00110010#8) = .ok .slicew := rfl
theorem test_decode_cmp : decodeWord (0b00000000#8 ++ 0b0000000000000000#16 ++ 0b01000000#8) = .ok .cmp := rfl
theorem test_decode_cmpw : decodeWord (0b00000000#8 ++ 0b0000000000000000#16 ++ 0b01000001#8) = .ok .cmpw := rfl

/-- R106: the two words it names, and the order of R101 step 3 before step 4. -/
theorem test_decode_illegal :
    decodeWord 0x00000000 = .error .unknownOpcode ∧ decodeWord 0xFFFFFFFF = .error .reservedBits := ⟨rfl, rfl⟩

/-- R104: the opcode bytes of the map and no other. -/
theorem test_opcode_map :
    ∀ op : BitVec 8, (opcodeRow op 0).isSome = true ↔
      op ∈ [0x01#8, 0x02#8, 0x03#8, 0x10#8, 0x20#8, 0x21#8, 0x30#8, 0x31#8, 0x32#8, 0x40#8, 0x41#8] := by decide

/-! ## Maps and tables -/

/-- R71: the sizes of the regions; the eleven rows cover 0x000 to 0x3FF and no address has two. -/
theorem test_region_sizes :
    [Region.text, .key, .digest, .msg, .code, .cand, .reg, .reserved].map
        (fun r => (List.range 0x400).countP fun a => regionOf a = r) =
      [128, 80, 64, 8, 16, 16, 96, 616] := by decide +kernel

/-- R21: the addresses of a few registers. -/
theorem test_register_addresses :
    regAt 0x200 = some .cmd ∧ regAt 0x228 = some .digestLen ∧ regAt 0x244 = some .codeval ∧ regAt 0x25C = some .result ∧
      regAt 0x202 = none ∧ regAt 0x260 = none := by decide

/-- R152: the alphabet, in the order of the indices; every other byte is outside it. -/
theorem test_alphabet :
    (List.range 32).map b32char = ascii "ABCDEFGHIJKLMNOPQRSTUVWXYZ234567" ∧
      (List.range 256).countP (fun c => (b32val (BitVec.ofNat 8 c)).isSome) = 32 ∧
      (List.range 32).all (fun v => b32val (b32char v) == some v) = true := by decide +kernel

/-- R160 and S1: `encode` of `abc` and of one byte. -/
theorem test_encode_base32 : b32Encode (ascii "abc") = ascii "MFRGG" ∧ b32Encode (ascii "a") = ascii "ME" := by decide

/-- R74 (b): `BE64` and `BE32`. -/
theorem test_byte_order :
    be64 0x0102030405060708 = [1, 2, 3, 4, 5, 6, 7, 8] ∧ be32 0xC1 0x39 0x7E 0xEA = 0xC1397EEA := by decide

/-! ## One step of each command -/

/-- R131: straight after reset CFGLOCK succeeds. -/
theorem test_cfglock_defaults : got (exec .cfglock State.reset) (fun t => (t.cfgOk, t.status)) = some (true, 0x001) := by
  decide

/-- R131: 11 digits are InvalidConfiguration; STATUS = 0x100, ERRCODE = 1, ERRCMD = 1. -/
theorem test_cfglock_digits :
    got (exec .cfglock { State.reset with cfgDigits := 11 }) (fun t => (t.status, t.errCodeWord, t.errCmd)) =
      some (0x100, 1, 0x00000001) := by decide

/-- R135's example: STATUS = 0x101, ERRCODE = 2, ERRCMD = 0x10 becomes 0x001, 0, 0. -/
theorem test_clrerr :
    (stuck.status &&& 0x101, stuck.errCodeWord, stuck.errCmd) = (0x101, 2, 0x10) ∧
      got (exec .clrerr stuck) (fun t => (t.status &&& 0x101, t.errCodeWord, t.errCmd)) = some (0x001, 0, 0) := by decide

/-- R138's example. -/
theorem test_sreset :
    got (exec .sreset coded) (fun t => (t.hostRead 0x204 4, t.hostRead 0x210 4, t.hostRead 0x214 4, t.buf)) =
      some (.word 0, .word 6, .word 30, []) := by decide

/-- R151's example. -/
theorem test_b32dec :
    got (exec .b32dec (withText "VMR466AB62ZBOKHE" State.reset)) (fun t => (t.keyLen, t.keyBytes)) =
      some (10, [0xAB, 0x23, 0xCF, 0x78, 0x01, 0xF6, 0xB2, 0x17, 0x28, 0xE4]) := by decide +kernel

/-- S2: a `0` in the text. -/
theorem test_b32dec_bad_character :
    got (exec .b32dec (withText "VMR466AB62ZBOKH0" State.reset))
        (fun t => (t.status, t.errCodeWord, t.errCmd, t.hostRead 0x230 4)) =
      some (0x100, 2, 0x00000010, .word 0) := by decide

/-- S3, time 59. -/
theorem test_dtrunc :
    got (exec .dtrunc ((locked 8 59).withDigest digestS3)) (fun t => (t.offset, t.value)) = some (11, 1094287082) := by
  decide

/-- S9, counter 47561575: the offset 15 reads bytes 15 to 18. -/
theorem test_dtrunc_last_offset :
    got (exec .dtrunc ((locked 6 59).withDigest digestS9)) (fun t => (t.offset, t.value)) = some (15, 303648525) := by
  decide

/-- R176 corner case (a): padding on the left. -/
theorem test_modred_padding :
    got (exec .modred (valued 8 907081804)) (fun t => (t.codeVal, t.codeBytes)) =
      some (7081804, ascii "07081804") := by decide

/-- R176 corner case (d): ten digits. -/
theorem test_modred_ten_digits :
    got (exec .modred (valued 10 2147483647)) (fun t => t.codeBytes) = some (ascii "2147483647") := by decide

/-- R191's example: TIME = 1426847216. -/
theorem test_slice :
    got (exec (.slice 0) (locked 6 1426847216)) (fun t => (t.counterHi, t.counterLo, t.msgBytes)) =
      some (0, 0x02D5BB65, [0x00, 0x00, 0x00, 0x00, 0x02, 0xD5, 0xBB, 0x65]) := by decide

/-- R192's examples: `SLICE -1` at TIME = 30 and at TIME = 29. -/
theorem test_slice_lower_bound :
    got (exec (.slice (-1)) (locked 6 30)) (fun t => (t.counter, t.fault)) = some (0, false) ∧
      got (exec (.slice (-1)) (locked 6 29)) (fun t => (t.errCodeWord, t.errCmd)) = some (7, 0x00FFFF30) := by decide

/-- R195's example. -/
theorem test_vbegin :
    got (exec (.vbegin 1) (locked 6 1426847190)) (fun t => (t.winD, t.winI, t.winBase, t.winActive, t.result)) =
      some (1, 0xFFFFFFFF, 47561573, true, 0) := by decide

/-- R113 and R239: `VBEGIN -1`. -/
theorem test_vbegin_negative :
    got (exec (.vbegin (-1)) (locked 6 1426847190)) (fun t => (t.errCodeWord, t.errCmd, t.winActive)) =
      some (8, 0x00FFFF31, false) := by decide

/-- R198's example. -/
theorem test_slicew :
    got (exec .slicew (inWindow (-1))) (fun t => (t.counter, t.msgBytes, t.winI)) =
      some (47561572, [0x00, 0x00, 0x00, 0x00, 0x02, 0xD5, 0xBB, 0x64], 0xFFFFFFFF) := by decide

/-- R240: a fault drops the window. -/
theorem test_slicew_outside :
    got (exec .slicew coded) (fun t => (t.errCodeWord, t.errCmd, t.msgValid)) = some (5, 0x00000032, false) := by decide

/-- R211's example: `543160` equals the code. -/
theorem test_cmp_equal : got (exec .cmp (withCand "543160" coded)) (fun t => t.result) = some 3 := by decide

/-- R211's example: the prefix `54316` does not. -/
theorem test_cmp_prefix : got (exec .cmp (withCand "54316" coded)) (fun t => t.result) = some 2 := by decide

/-- R215's example, offset 0: MATCH = 1, WIN_I = 1, RESULT reads 0, the code is consumed. -/
theorem test_cmpw_moves :
    got (exec .cmpw (inWindow 0)) (fun t => (t.matchAcc, t.winI, t.result, t.codeValid, t.valueValid)) =
      some (true, 1, 0, false, false) := by decide

/-- R215's example, the last offset: MATCH stays 1 although the code differs, the window closes, RESULT reads 3. -/
theorem test_cmpw_closes :
    got (exec .cmpw (withCand "543161" { inWindow 1 with matchAcc := true }))
        (fun t => (t.matchAcc, t.winI, t.winActive, t.result)) = some (true, 1, false, 3) := by decide

/-! ## The port -/

/-- R34, R76, R241: a half of TIME written, a read of STATUS, a misaligned read, in a faulted engine. -/
theorem test_port_replies :
    got (step (asked [put 0x220 5] { stuck with tmask := 0 })) (fun t => (t.timeHi, t.tmask, t.replies)) =
        some (5, 0b10, [.ok]) ∧
      got (step (asked [.read 0x204 4] stuck)) (fun t => t.replies) = some [.word 0x103] ∧
      got (step (asked [.read 0x206 4] stuck)) (fun t => t.replies) = some [.busError] := by decide

/-- R73, R52: a byte written to TEXT; CODE is gated. -/
theorem test_port_bytes :
    got (step (asked [.write 0x07F 1 0xFFFFFF41] State.reset)) (fun t => (t.buf, t.replies)) =
        some ([(0x07F, 0x41)], [.ok]) ∧
      coded.hostRead 0x150 1 = .byte 0x35 ∧ ({ coded with codeValid := false } : State).hostRead 0x150 1 = .byte 0x00 := by
  decide

/-- The word placed by `withFetchWord` is the next command run. -/
theorem test_withFetchWord :
    got (step (State.reset.withFetchWord 32 0x01)) (fun t => (t.cfgOk, t.pending, t.replies)) =
      some (true, [], [.ok]) := by decide

/-! ## Host programs -/

/-- 95_test_vectors.md P2: the operations LDCAND, SETTIME, VBEGIN 1 and RD RESULT stand for. -/
theorem test_listing :
    ldCand (ascii "543160") ++ setTime 1426847190 ++ [HostOp.cmd (.vbegin 1), HostOp.rd .result] =
      [.write 0x160 1 0x35, .write 0x161 1 0x34, .write 0x162 1 0x33, .write 0x163 1 0x31, .write 0x164 1 0x36,
        .write 0x165 1 0x30, .write 0x22C 4 6, .write 0x21C 4 0x550BF5D6, .write 0x220 4 0, .write 0x200 4 0x131,
        .read 0x25C 4] := by decide

/-- R112 LDCAND: the true length of a candidate longer than 16. -/
theorem test_listing_long_candidate :
    (ldCand (List.replicate 17 0x30)).length = 17 ∧
      (ldCand (List.replicate 17 0x30)).getLast? = some (.write 0x22C 4 17) := by decide

/-- 95_test_vectors.md P4: a bad secret is reported as code 2 of the word 0x00000010 and RESULT reads 0 (R273). -/
theorem test_program_bad_secret :
    got (programP2 0 (ascii "1A") (ascii "5") 0 59 State.reset)
        (fun t => (t.errCodeWord, t.errCmd, t.digestLen, t.replies.getLast?)) =
      some (2, 0x00000010, 0, some (.word 0)) := by decide

/-! ## The invariant holds of the states used below -/

theorem inv_locked : (locked 6 59).Inv := ⟨by decide, by decide, by decide, by decide, by decide, by decide, by decide⟩
theorem inv_coded : coded.Inv := ⟨by decide, by decide, by decide, by decide, by decide, by decide, by decide⟩
theorem inv_inWindow_first : (inWindow (-1)).Inv :=
  ⟨by decide, by decide, by decide, by decide, by decide, by decide, by decide⟩
theorem inv_inWindow_last : (inWindow 1).Inv :=
  ⟨by decide, by decide, by decide, by decide, by decide, by decide, by decide⟩

/-! ## Witnesses -/

theorem witness_ResetRestoresEveryElement :
    (asked [commandOp 0x00000003] stuck).pending = commandOp 0x00000003 :: [] ∧ stuck.fault = true ∧
      (asked [.reset, .read 0x204 4] stuck).pending = .reset :: [.read 0x204 4] ∧
      decodeWord 0x00000003 = .ok .sreset := ⟨rfl, rfl, rfl, rfl⟩

theorem witness_DecodeOfEncode :
    (Instr.slice (-32768)).WellFormed ∧ (Instr.vbegin 32767).WellFormed ∧ Instr.cmpw.WellFormed := by decide

theorem witness_EncodeOfDecode :
    decodeWord 0x00800030 = .ok (.slice (-32768)) ∧ decodeWord 0x007FFF31 = .ok (.vbegin 32767) := ⟨rfl, rfl⟩

/-- An unlisted word, and a listed one at each end of the immediate. -/
theorem witness_IllegalWordsAreExactlyTheUnlisted :
    (asked [commandOp 0x00000000] (locked 6 59)).pending = commandOp 0x00000000 :: [] ∧
      (asked [commandOp 0x00FFFF31] (locked 6 59)).pending = commandOp 0x00FFFF31 :: [] ∧
      (locked 6 59).fault = false := ⟨rfl, rfl, rfl⟩

theorem witness_EncodingExamples : (locked 6 59).cfgOk = true ∧ (locked 6 59).timeValid = true := by decide

theorem witness_StepRunsTheDecodedCommand :
    ((asked [commandOp 0x00000230, .read 0x204 4] (locked 6 59)).pending = commandOp 0x00000230 :: [.read 0x204 4] ∧
      (locked 6 59).fault = false ∧ decodeWord 0x00000230 = .ok (.slice 2)) ∧
      decodeTableWord 32 0x230 = some (.slice 2) := ⟨⟨rfl, rfl, rfl⟩, rfl⟩

/-- One word for each reason a word is no command. -/
theorem witness_IllegalWordTakesItsFault :
    (inWindow 0).fault = false ∧
      (asked [commandOp 0x01000001] (inWindow 0)).pending = commandOp 0x01000001 :: [] ∧
      decodeWord 0x01000001 = .error .reservedBits ∧
      (asked [commandOp 0x00000011] (inWindow 0)).pending = commandOp 0x00000011 :: [] ∧
      decodeWord 0x00000011 = .error .unknownOpcode ∧
      (asked [commandOp 0x00FFFF01] (inWindow 0)).pending = commandOp 0x00FFFF01 :: [] ∧
      decodeWord 0x00FFFF01 = .error .nonzeroImmediate := ⟨rfl, rfl, rfl, rfl, rfl, rfl, rfl⟩

/-- SRESET, CLRERR and a word next to them, in a faulted engine. -/
theorem witness_FaultedEngineIgnoresWords :
    stuck.fault = true ∧ (asked [commandOp 0x00000003] stuck).pending = commandOp 0x00000003 :: [] ∧
      (asked [commandOp 0x00000002] stuck).pending = commandOp 0x00000002 :: [] ∧
      (asked [commandOp 0x00000102] stuck).pending = commandOp 0x00000102 :: [] ∧
      (0x00000102 : Word) ≠ 0x00000003 ∧ (0x00000102 : Word) ≠ 0x00000002 := by decide

theorem witness_FirstFaultIsKept :
    stuck.fault = true ∧ ∃ t, step (asked [commandOp 0x00000001] stuck) = .next t ∧ t.fault = true :=
  ⟨rfl, _, rfl, rfl⟩

theorem witness_FaultEntryWritesOnlyWhatItNames :
    (inWindow 0).fault = false ∧ ∃ t, step (asked [commandOp 0x00000040] (inWindow 0)) = .next t ∧ t.fault = true :=
  ⟨rfl, _, rfl, rfl⟩

theorem witness_FaultsRaisedByEachCommand :
    ∃ t, exec (.slice (-1)) (locked 6 29) = .next t ∧ (locked 6 29).fault = false ∧ t.fault = true :=
  ⟨_, rfl, rfl, rfl⟩

theorem witness_SequenceFaultsExactly :
    (inWindow 0).fault = false ∧ got (exec .cmp (inWindow 0)) (fun t => t.errCode) = some (some .sequence) := by decide

theorem witness_IdleEngineKeepsAllState : (inWindow 0).pending = [] := rfl

/-- A read at the last address of BUF's last region and past it, a write to a locked register. -/
theorem witness_BusErrorsAreExactlyTheListed :
    (asked [.read 0x16F 1] (locked 6 59)).pending = .read 0x16F 1 :: [] ∧
      (asked [.read 0x170 1] (locked 6 59)).pending = .read 0x170 1 :: [] ∧
      (asked [.write 0x210 4 8] (locked 6 59)).pending = .write 0x210 4 8 :: [] := ⟨rfl, rfl, rfl⟩

theorem witness_BusErrorChangesNothing :
    (asked [put 0x210 8] (locked 6 59)).pending = put 0x210 8 :: [] ∧ put 0x210 8 ≠ .reset ∧
      ∃ t, step (asked [put 0x210 8] (locked 6 59)) = .next t ∧ t.replies = (locked 6 59).replies ++ [.busError] :=
  ⟨rfl, by decide, _, rfl, rfl⟩

theorem witness_ReadsHaveNoSideEffect :
    (asked [.read 0x25C 4] (inWindow 0)).pending = .read 0x25C 4 :: [] := rfl

/-- One write for each clause. -/
theorem witness_RegisterWritesStoreTheWord :
    State.reset.cfgOk = false ∧ State.reset.winActive = false ∧
      ∀ a ∈ [0x210, 0x214, 0x218, 0x21C, 0x220, 0x224, 0x228, 0x22C],
        (asked [.write a 4 0xFFFFFFFF] State.reset).pending = .write a 4 0xFFFFFFFF :: [] :=
  ⟨rfl, rfl, fun _ _ => rfl⟩

/-- The last byte of each writable region. -/
theorem witness_BufferWritesStoreTheByte :
    State.reset.winActive = false ∧ ∀ a ∈ [0x07F, 0x13F, 0x16F],
      (asked [.write a 1 0x41] State.reset).pending = .write a 1 0x41 :: [] ∧
        (a ≤ 0x07F ∨ (0x100 ≤ a ∧ a ≤ 0x13F) ∨ (0x160 ≤ a ∧ a ≤ 0x16F ∧ State.reset.winActive = false)) :=
  ⟨rfl, by intro a h; exact ⟨rfl, by revert a; decide⟩⟩

/-- The ends of the regions are not shared: each address has the one clause its region gives. -/
theorem witness_GatedOutputsRead :
    [0x07F, 0x080, 0x0CF, 0x100, 0x13F, 0x140, 0x147, 0x150, 0x15F, 0x160, 0x16F].map regionOf =
      [.text, .key, .key, .digest, .digest, .msg, .msg, .code, .code, .cand, .cand] := by decide

/-- RESULT in its three readings. -/
theorem witness_ResultRegister :
    ((inWindow 0).resultValid = false) ∧
      (({ coded with resultValid := true } : State).resultValid = true ∧ coded.matchAcc = false) ∧
      (({ coded with resultValid := true, matchAcc := true } : State).matchAcc = true) := ⟨rfl, ⟨rfl, rfl⟩, rfl⟩

/-- Every flag is set by some step. -/
theorem witness_FlagsAreSetOnlyAsListed :
    (State.reset.cfgOk = false ∧ got (step (asked [commandOp 0x01] State.reset)) (fun t => t.cfgOk) = some true) ∧
    (({ State.reset with tmask := 0b10 } : State).timeValid = false ∧
      got (step (asked [put 0x21C 0] { State.reset with tmask := 0b10 })) (fun t => t.timeValid) = some true) ∧
    got (step (asked [commandOp 0x10] (withText "ME" State.reset))) (fun t => t.keyValid) = some true ∧
    got (step (asked [commandOp 0x30] (locked 6 59))) (fun t => t.msgValid) = some true ∧
    got (step (asked [commandOp 0x20] ((locked 6 59).withDigest digestS3))) (fun t => t.valueValid) = some true ∧
    got (step (asked [commandOp 0x21] (valued 6 59))) (fun t => t.codeValid) = some true ∧
    got (step (asked [commandOp 0x31] (locked 6 59))) (fun t => t.winActive) = some true ∧
    got (step (asked [commandOp 0x40] coded)) (fun t => t.resultValid) = some true ∧
    got (step (asked [commandOp 0x41] (inWindow 1))) (fun t => t.resultValid) = some true ∧
    got (step (asked [commandOp 0x00] coded)) (fun t => t.fault) = some true := by decide

/-- Every flag is cleared by some step. -/
theorem witness_FlagsAreClearedOnlyAsListed :
    got (step (asked [.reset] coded)) (fun t => (t.cfgOk, t.timeValid)) = some (false, false) ∧
    got (step (asked [commandOp 0x10] { coded with keyValid := true })) (fun t => t.keyValid) = some false ∧
    got (step (asked [commandOp 0x32] { coded with msgValid := true })) (fun t => t.msgValid) = some false ∧
    got (step (asked [commandOp 0x41] (inWindow 0))) (fun t => (t.valueValid, t.codeValid)) = some (false, false) ∧
    got (step (asked [commandOp 0x41] (inWindow 1))) (fun t => t.winActive) = some false ∧
    got (step (asked [commandOp 0x31] { coded with resultValid := true })) (fun t => t.resultValid) = some false ∧
    got (step (asked [commandOp 0x02] stuck)) (fun t => t.fault) = some false := by decide

theorem witness_FrozenConfigurationStays :
    (locked 6 59).cfgOk = true ∧
      (∃ t, step (asked [put 0x210 8] (locked 6 59)) = .next t) ∧ ¬(asked [put 0x210 8] (locked 6 59)).resets := by
  refine ⟨rfl, ⟨_, rfl⟩, ?_⟩
  rintro ⟨rest, h | h⟩ <;> simp [asked, put, commandOp] at h

theorem witness_CandidateStaysInWindow :
    (inWindow 0).winActive = true ∧
      (∃ t, step (asked [.write 0x160 1 0] (inWindow 0)) = .next t) ∧ ¬(asked [.write 0x160 1 0] (inWindow 0)).resets := by
  refine ⟨rfl, ⟨_, rfl⟩, ?_⟩
  rintro ⟨rest, h | h⟩ <;> simp [asked, commandOp] at h

theorem witness_TmaskOnlyGrows :
    (∃ t, step (asked [put 0x21C 0] { State.reset with tmask := 0b10 }) = .next t) ∧
      ¬(asked [put 0x21C 0] { State.reset with tmask := 0b10 }).resets := by
  refine ⟨⟨_, rfl⟩, ?_⟩
  rintro ⟨rest, h | h⟩ <;> simp [asked, put, commandOp, Config.regBase] at h

/-- Locked; each illegal configuration; the ends of the legal range. -/
theorem witness_CfglockValidatesAndFreezes :
    coded.cfgOk = true ∧
      (∀ s ∈ [{ State.reset with cfgDigits := 0 }, { State.reset with cfgDigits := 11 },
          { State.reset with cfgPeriod := 0 }, { State.reset with cfgAlg := 3 }],
        s.cfgOk = false ∧ (s.cfgDigits = 0 ∨ s.cfgDigits.toNat > 10 ∨ s.cfgPeriod = 0 ∨ s.cfgAlg.toNat > 2)) ∧
      ∀ s ∈ [{ State.reset with cfgDigits := 1, cfgPeriod := 1 }, { State.reset with cfgDigits := 10, cfgAlg := 2 }],
        s.cfgOk = false ∧ 1 ≤ s.cfgDigits.toNat ∧ s.cfgDigits.toNat ≤ 10 ∧ 1 ≤ s.cfgPeriod.toNat ∧
          s.cfgAlg.toNat ≤ 2 := by decide

theorem witness_ClrerrClearsTheRecordedFault :
    (coded.Inv ∧ coded.fault = false) ∧
      (asked [commandOp 0x00000102] stuck).pending = commandOp 0x00000102 :: [] ∧ stuck.fault = true ∧
      (asked [commandOp 0x00000102] coded).pending = commandOp 0x00000102 :: [] ∧
      decodeWord 0x00000002 = .ok .clrerr := ⟨⟨inv_coded, rfl⟩, rfl, rfl, rfl, rfl⟩

/-- Two characters and one `=`: `ME=`. -/
theorem witness_B32decPacksFiveBitValues :
    let s := withText "ME=" State.reset
    let v := fun j => if j = 0 then 12 else 4
    s.textLen.toNat ≤ 128 ∧ 2 ≤ s.textLen.toNat ∧
      (∀ j, j < 3 → 2 ≤ j → j < s.textLen.toNat → s.buf.read j = 0x3D) ∧
      ∀ j, j < 2 → v j < 32 ∧ s.buf.read j = b32char (v j) := by decide

/-- TEXT_LEN 129; the empty text; one character; a bad character before two `=`. -/
theorem witness_B32decFaults :
    128 < ({ State.reset with textLen := 129 } : State).textLen.toNat ∧
      (let s := withText "A=" State.reset
       s.textLen.toNat = 2 ∧ s.buf.read 1 = 0x3D ∧ s.buf.read 0 ≠ 0x3D ∧ 1 < 2) ∧
      (let s := withText "MF0A" State.reset
       s.textLen.toNat = 4 ∧ s.buf.read 3 ≠ 0x3D ∧ ∀ v, v < 32 → s.buf.read 2 ≠ b32char v) := by decide

/-- The loaded text of one byte, and the longest string. -/
theorem witness_Base32RoundTrip :
    (let s := withText "ME" State.reset
     s.fault = false ∧ s.textLen = BitVec.ofNat 32 (b32Encode [0x61]).length ∧
      s.buf.readBytes 0 (b32Encode [0x61]).length = b32Encode [0x61]) ∧
      (List.replicate 80 (0xFF : Byte)).length ≤ 80 := by decide

/-- Not frozen; a length next to the right one; the right one of each algorithm. -/
theorem witness_DtruncTruncatesTheDigest :
    State.reset.cfgOk = false ∧ State.reset.cfgAlg = 0 ∧
      ({ locked 6 59 with digestLen := 21 } : State).digestLen.toNat ≠ 20 ∧
      ((locked 6 59).withDigest digestS3).digestLen.toNat = 20 ∧
      ({ locked 6 59 with cfgAlg := 1, digestLen := 32 } : State).digestLen.toNat = 32 ∧
      ({ locked 6 59 with cfgAlg := 2, digestLen := 64 } : State).digestLen.toNat = 64 ∧
      (locked 6 59).cfgOk = true := by decide

/-- No value; the smallest and the largest digit count. -/
theorem witness_ModredRendersTheCode :
    (locked 6 59).valueValid = false ∧
      (∀ s ∈ [valued 1 0, valued 10 2147483647],
        s.cfgOk = true ∧ s.valueValid = true ∧ 1 ≤ s.cfgDigits.toNat ∧ s.cfgDigits.toNat ≤ 10) := by decide

/-- Two states that hold the same digest and differ in a byte beyond it. -/
theorem witness_HotpIsPure :
    let s := (locked 6 59).withDigest digestS3
    let u := s.writeByte 0x114 0xFF
    dlen s.cfgAlg = some 20 ∧ s.cfgOk = true ∧ u.cfgOk = true ∧ s.digestLen.toNat = 20 ∧ u.digestLen.toNat = 20 ∧
      u.cfgAlg = s.cfgAlg ∧ u.cfgDigits = s.cfgDigits ∧ s.buf ≠ u.buf ∧
      ∀ j, j < 20 → u.buf.read (0x100 + j) = s.buf.read (0x100 + j) := by decide

/-- The digest the host has written is whatever the uninterpreted HMAC is. -/
theorem witness_HotpComputesTheCodeOfTheDigest :
    let s := (locked 6 59).withDigest (hmac 0 [0x61] (be64 1))
    dlen s.cfgAlg = some 20 ∧ s.cfgOk = true ∧ 1 ≤ s.cfgDigits.toNat ∧ s.cfgDigits.toNat ≤ 10 ∧ s.digestLen.toNat = 20 ∧
      s.buf.readBytes 0x100 20 = hmac s.cfgAlg [0x61] (be64 1) := by
  have hl : (hmac 0 [0x61] (be64 1)).length = 20 := by simp [hmac, dlen]
  refine ⟨rfl, rfl, by decide, by decide, ?_, ?_⟩
  · simp only [State.withDigest, hl]; rfl
  · rw [Memory.readBytes_eq_iff]
    exact ⟨hl, fun j hj => Memory.read_writeBytes_of_lt _ _ _ _ hj⟩

/-- No lock; a lock and no time; the counter just below 0, just in range at both ends, and 2^64. -/
theorem witness_SliceComputesTheCounter :
    (Instr.slice (-1)).WellFormed ∧ (State.reset.cfgOk = false ∨ State.reset.tmask ≠ 0b11) ∧
      (locked 6 29).cfgOk = true ∧ (locked 6 29).tmask = 0b11 ∧ (locked 6 29).cfgPeriod ≠ 0 ∧
      (((locked 6 29).timeHi.toNat * 2 ^ 32 + (locked 6 29).timeLo.toNat) / 30 : Nat) + (-1 : Int) < 0 ∧
      (((locked 6 30).timeHi.toNat * 2 ^ 32 + (locked 6 30).timeLo.toNat) / 30 : Nat) + (-1 : Int) = 0 ∧
      (let s := { locked 6 0xFFFFFFFFFFFFFFFF with cfgPeriod := 1 }
       s.cfgPeriod ≠ 0 ∧
        ((s.timeHi.toNat * 2 ^ 32 + s.timeLo.toNat) / s.cfgPeriod.toNat : Nat) + (0 : Int) = 2 ^ 64 - 1 ∧
        ((s.timeHi.toNat * 2 ^ 32 + s.timeLo.toNat) / s.cfgPeriod.toNat : Nat) + (1 : Int) = 2 ^ 64) := by decide

/-- No lock; a negative discrepancy; the smallest and the largest. -/
theorem witness_VbeginOpensTheWindow :
    (Instr.vbegin (-1)).WellFormed ∧ (Instr.vbegin 0).WellFormed ∧ (Instr.vbegin 32767).WellFormed ∧
      State.reset.cfgOk = false ∧
      (locked 6 59).cfgOk = true ∧ (locked 6 59).tmask = 0b11 ∧ (locked 6 59).cfgPeriod ≠ 0 := by decide

/-- No window; a window whose first counter is just below 0, just 0, and 2^64. -/
theorem witness_SlicewComputesTheCounter :
    coded.winActive = false ∧ (inWindow 1).winActive = true ∧
      (({ inWindow (-1) with winBaseLo := 0 } : State).winBaseLo.toNat : Int) + (inWindow (-1)).winI.toInt < 0 ∧
      (({ inWindow (-1) with winBaseLo := 1 } : State).winBaseLo.toNat : Int) + (inWindow (-1)).winI.toInt = 0 ∧
      (let s := { inWindow 1 with winBaseLo := 0xFFFFFFFF, winBaseHi := 0xFFFFFFFF }
       ((s.winBaseHi.toNat * 2 ^ 32 + s.winBaseLo.toNat : Nat) : Int) + s.winI.toInt = 2 ^ 64) := by decide

theorem witness_EqIsStringEquality : coded.Inv ∧ coded.codeValid = true := ⟨inv_coded, rfl⟩

/-- Each ground of the fault, and none. -/
theorem witness_CmpPublishesTheComparison :
    ({ coded with cfgOk := false } : State).cfgOk = false ∧ (locked 6 59).codeValid = false ∧
      (inWindow 0).winActive = true ∧
      coded.cfgOk = true ∧ coded.codeValid = true ∧ coded.winActive = false := ⟨rfl, rfl, rfl, rfl, rfl, rfl⟩

/-- Outside a window; the last offset; an earlier one. -/
theorem witness_CmpwAccumulatesAndAdvances :
    coded.winActive = false ∧ (inWindow 1).winActive = true ∧ (inWindow 1).codeValid = true ∧
      (inWindow 1).winI = (inWindow 1).winD ∧ (inWindow 0).winI ≠ (inWindow 0).winD := by decide

/-- A step that compares the first code of a window. -/
theorem witness_StepKeepsTheInvariant :
    (asked [commandOp 0x41] (inWindow (-1))).Inv ∧
      ∃ t, step (asked [commandOp 0x41] (inWindow (-1))) = .next t ∧ t.winI = 0 :=
  ⟨⟨by decide, by decide, by decide, by decide, by decide, by decide, by decide⟩, _, rfl, by decide⟩

/-- Two steps in a window: a comparison that matches, then a read of RESULT. -/
theorem witness_MatchStaysHidden :
    NoVerdictBefore 2 (asked [commandOp 0x41, .read 0x25C 4] (inWindow 0)) ∧
      ∃ t, Host.Core.run Sys2Proof.core 2 (asked [commandOp 0x41, .read 0x25C 4] (inWindow 0)) = .next t ∧
        t.replies = [.ok, .word 0] := by
  refine ⟨⟨rfl, fun t h => ?_⟩, _, rfl, by decide⟩
  cases h
  exact ⟨rfl, fun _ _ => trivial⟩

/-- A comparison and a read in a window at its first offset; and the comparison that closes one, without a fault and
without a reset (the next operation of a run of no step). -/
theorem witness_WindowCountsEveryComparison :
    (let s := asked [commandOp 0x41, .read 0x25C 4] (inWindow (-1))
     s.Inv ∧ s.winActive = true ∧ (∀ op ∈ s.pending.take 2, op.restarts = false) ∧
      s.winI.toInt = -(s.winD.toNat : Int) ∧
      ∃ t, Host.Core.run Sys2Proof.core 2 s = .next t ∧ t.winActive = true) ∧
      let t := asked [commandOp 0x41] (inWindow 1)
      t.Inv ∧ t.winActive = true ∧ t.issues .cmpw ∧ ¬t.resets ∧ t.codeValid = true ∧ t.winI = t.winD ∧
        ∃ u, step t = .next u ∧ u.winActive = false ∧ u.fault = false ∧ u.resultValid = true :=
  ⟨⟨⟨by decide, by decide, by decide, by decide, by decide, by decide, by decide⟩, rfl, by decide, by decide, _, rfl,
    rfl⟩, ⟨by decide, by decide, by decide, by decide, by decide, by decide, by decide⟩, rfl,
    ⟨by decide, _, _, rfl, rfl⟩, fun ⟨_, h⟩ => h.elim nofun (by simp [asked, commandOp]), by decide, by decide,
    _, rfl, rfl, rfl, rfl⟩

/-- A one-byte key, a candidate of six digits, a discrepancy that reaches counter 0. -/
theorem witness_WindowRoundsComputeVerifyCode :
    let s := withCand "543160" ((locked 6 59).withKey [0x61])
    s.Inv ∧ s.fault = false ∧ s.cfgOk = true ∧ s.timeValid = true ∧ s.keyValid = true ∧ 1 ≤ s.slice ∧
      s.slice + 1 < 2 ^ 64 ∧ s.candLen.toNat = (ascii "543160").length ∧
      s.buf.readBytes 0x160 6 = ascii "543160" :=
  ⟨⟨by decide, by decide, by decide, by decide, by decide, by decide, by decide⟩, by decide, by decide, by decide,
    by decide, by decide, by decide, by decide, by decide⟩

/-- The texts and times of the three outcomes: a value; an invalid secret; a counter below 0. -/
theorem witness_VerifyProgramComputesVerifyCode :
    let s := locked 6 59
    s.Inv ∧ s.fault = false ∧ s.cfgOk = true ∧ s.winActive = false ∧ (ascii "ME").length ≤ 128 ∧
      (ascii "543160").length < 2 ^ 32 ∧
      (verifyCode (ascii "ME") (ascii "543160") 1 59 s.cfgPeriod s.cfgAlg 6).isSome = true ∧
      decodeSecret (ascii "1A") = none ∧ decodeSecret (ascii "ME") ≠ none ∧
      verifyCode (ascii "ME") (ascii "543160") 1 29 s.cfgPeriod s.cfgAlg 6 = none :=
  ⟨inv_locked, rfl, rfl, rfl, by decide, by decide, by decide, by decide, by decide, by decide⟩

/-- The reset state. -/
theorem witness_ProgramP2ComputesVerifyCode :
    State.reset.Inv ∧ State.reset.fault = false ∧ State.reset.cfgOk = false ∧ 1 ≤ State.reset.cfgDigits.toNat ∧
      State.reset.cfgDigits.toNat ≤ 10 ∧ State.reset.cfgPeriod ≠ 0 ∧ State.reset.cfgAlg.toNat ≤ 2 ∧
      State.reset.winActive = false :=
  ⟨⟨by decide, by decide, by decide, by decide, by decide, by decide, by decide⟩, by decide⟩

/-- The longest text, in a window; a value and an invalid secret. -/
theorem witness_GetCodeProgramComputesGetCode :
    (inWindow 0).Inv ∧ (inWindow 0).fault = false ∧ (inWindow 0).cfgOk = true ∧
      (List.replicate 128 (0x41 : Byte)).length ≤ 128 ∧ (getCode (ascii "ME") 59 30 0 6).isSome = true ∧
      getCode (ascii "1A") 59 30 0 6 = none :=
  ⟨⟨by decide, by decide, by decide, by decide, by decide, by decide, by decide⟩, rfl, rfl, by simp, by decide,
    by decide⟩

end Sys2Proof.Tests
end

section
/-! PROOFS. The facts the end-to-end claims of R5 rest on, in the order of the definitions they speak of: command words,
bytes of BUF, the decoder's length, the code of a digest, the comparator. -/

namespace Sys2Proof

/-! ## Command words -/

/-- R102 to R105: a well-formed command is what its word decodes to. -/
theorem decodeWord_encode {i : Instr} (h : i.WellFormed) : decodeWord (encode i) = .ok i := by
  cases i with
  | slice k | vbegin k =>
    have hk : sext16 (BitVec.ofInt 16 k) = k := sext16_ofInt (by simpa [Instr.WellFormed, Instr.wf] using h)
    simp [decodeWord, opcodeRow, Instr.op, Instr.imm, hk]
  | cfglock | clrerr | sreset | b32dec | dtrunc | modred | slicew | cmp | cmpw => rfl

/-- Commands with different opcode bytes have different words. -/
theorem encode_ne_of_op_ne {i j : Instr} (h : i.op ≠ j.op) : encode i ≠ encode j := fun e =>
  h (by rw [← opField_encode i, e, opField_encode])

end Sys2Proof

namespace Sys2Proof.Machine

/-! ## Bytes of BUF -/

/-- Bytes just written read back as written. -/
theorem Memory.readBytes_writeBytes_self (m : Memory) (a : Nat) (bs : List Byte) :
    (m.writeBytes a bs).readBytes a bs.length = bs :=
  (Memory.readBytes_eq_iff _ _ _ _).2 ⟨rfl, fun j h => Memory.read_writeBytes_of_lt m a bs j h⟩

/-- A write beside a stretch of bytes leaves the stretch alone. -/
theorem Memory.readBytes_writeBytes_disjoint (m : Memory) {a b n : Nat} {bs : List Byte}
    (h : a + n ≤ b ∨ b + bs.length ≤ a) : (m.writeBytes b bs).readBytes a n = m.readBytes a n := by
  simp only [Memory.readBytes]
  refine List.map_congr_left fun j hj => Memory.read_writeBytes_outside m b bs (a + j) ?_
  have := List.mem_range.1 hj
  omega

/-- The first bytes of a longer string just written. -/
theorem Memory.readBytes_writeBytes_take (m : Memory) (a : Nat) {n : Nat} {bs : List Byte} (h : n ≤ bs.length) :
    (m.writeBytes a bs).readBytes a n = bs.take n := by
  refine (Memory.readBytes_eq_iff _ _ _ _).2 ⟨by simp [h], fun j hj => ?_⟩
  rw [List.length_take] at hj
  rw [Memory.read_writeBytes_of_lt m a bs j (by omega), List.getElem_take]

/-! ## The length of a decoded secret (R151, R154) -/

/-- A character of R151's loop adds five bits at most, a byte is put out for eight of them. -/
theorem b32Step_bits (st : B32Loop) (c : Byte) :
    8 * (b32Step st c).out.length + (b32Step st c).nbits ≤ 8 * st.out.length + st.nbits + 5 := by
  unfold b32Step
  split
  · show 8 * st.out.length + st.nbits ≤ _; omega
  · unfold b32Push
    simp only
    split
    · simp only [List.length_append, List.length_singleton]; omega
    · show 8 * st.out.length + (st.nbits + 5) ≤ _; omega

theorem foldl_b32Step_bits (text : List Byte) (st : B32Loop) :
    8 * (text.foldl b32Step st).out.length ≤ 8 * st.out.length + st.nbits + 5 * text.length := by
  induction text generalizing st with
  | nil => simp only [List.foldl_nil, List.length_nil]; omega
  | cons c text ih =>
    have h1 := ih (b32Step st c)
    have h2 := b32Step_bits st c
    simp only [List.foldl_cons, List.length_cons]
    omega

theorem length_b32Decode_le {text out : List Byte} (h : b32Decode text = some out) :
    8 * out.length ≤ 5 * text.length := by
  have hbits := foldl_b32Step_bits text b32Start
  simp only [b32Decode] at h
  split at h
  · cases h
  · cases h; simpa [b32Start] using hbits

/-- R154: a text of at most 128 characters decodes to at most 80 bytes. -/
theorem length_decodeSecret_le {text key : List Byte} (h : decodeSecret text = some key) (hl : text.length ≤ 128) :
    key.length ≤ 80 := by
  have h1 := length_b32Decode_le h
  have h2 := strippedLen_le (fun j => text.getD j 0x00) text.length
  simp only [List.length_map, List.length_range] at h1
  omega

/-- The key B32DEC has stored is the decoded secret (R151, R38). -/
theorem State.keyBytes_withKey (s : State) {key : List Byte} (h : key.length ≤ 80) :
    (s.withKey key).keyBytes = key := by
  have hl : (BitVec.ofNat 32 key.length).toNat = key.length := by
    rw [BitVec.toNat_ofNat]; omega
  have hz : key.length ≤ (zeroFill Config.keyMax key).length := by rw [length_zeroFill]; omega
  rw [State.keyBytes, State.withKey, hl, Memory.readBytes_writeBytes_take _ _ hz, zeroFill, List.take_left]

/-! ## The code of a digest (R171, R176) -/

/-- The truncation reads the digest and nothing after it. -/
theorem truncValue_congr {d e : Nat → Byte} {len : Nat} (hl : 20 ≤ len) (h : ∀ j, j < len → d j = e j) :
    truncValue d len = truncValue e len := by
  have ho : truncOffset d len = truncOffset e len := by
    rw [truncOffset, truncOffset, h (len - 1) (by omega)]
  have hb : (truncOffset e len).toNat ≤ 15 := by
    rw [truncOffset, BitVec.toNat_and]; exact Nat.and_le_right
  rw [truncValue, truncValue, truncWord, truncWord, ho, h _ (by omega), h _ (by omega), h _ (by omega), h _ (by omega)]

/-- The state after `HOTP` (R112), DTRUNC then MODRED, when neither faults. -/
def State.withHotp (s : State) : State :=
  let v := truncValue s.digestByte s.digestLen.toNat
  ((s.valueCleared.withValue ((truncOffset s.digestByte s.digestLen.toNat).setWidth 4) v).codeCleared).withCode
    s.cfgDigits (v.toNat % 10 ^ s.cfgDigits.toNat)

theorem execDtrunc_of_digest {s : State} (hc : s.cfgOk = true) (hd : dlen s.cfgAlg = some s.digestLen.toNat) :
    exec .dtrunc s = .next (s.valueCleared.withValue ((truncOffset s.digestByte s.digestLen.toNat).setWidth 4)
      (truncValue s.digestByte s.digestLen.toNat)) := by
  rcases execDtrunc_cases s with ⟨h, _⟩ | ⟨_, h, _⟩ | ⟨_, _, e⟩
  · rw [hc] at h; cases h
  · exact absurd hd h
  · exact e

theorem execModred_of_value {s : State} (hc : s.cfgOk = true) (hv : s.valueValid = true) :
    exec .modred s = .next (s.codeCleared.withCode s.cfgDigits (s.value.toNat % 10 ^ s.cfgDigits.toNat)) := by
  rcases execModred_cases s with ⟨h | h, _⟩ | ⟨_, _, e⟩
  · rw [hc] at h; cases h
  · rw [hv] at h; cases h
  · exact e

/-- `HOTP` of a digest of the right length under a frozen configuration. -/
theorem exec_hotp {s : State} (hc : s.cfgOk = true) (hd : dlen s.cfgAlg = some s.digestLen.toNat) :
    andThen (exec .dtrunc s) (exec .modred) = .next s.withHotp := by
  rw [execDtrunc_of_digest hc hd, andThen_next]
  exact execModred_of_value (s := s.valueCleared.withValue _ _) hc rfl

@[simp] theorem length_codeText (digits m : Nat) : (codeText digits m).length = 16 := by
  simp [codeText, Config.codeBuf]

/-- CODE after `HOTP`: character `j`, and 0x00 from the digit count on (R176). -/
theorem State.codeByte_withHotp (s : State) {j : Nat} (h : j < 16) :
    s.withHotp.codeByte j = codeChar s.cfgDigits.toNat
      ((truncValue s.digestByte s.digestLen.toNat).toNat % 10 ^ s.cfgDigits.toNat) j := by
  rw [State.codeByte, State.withHotp, State.withCode_buf, Memory.read_writeBytes_of_lt _ _ _ _ (by simpa using h)]
  simp [codeText]

theorem State.codeByte_withHotp_of_digits_le (s : State) {j : Nat} (hj : j < 16) (h : s.cfgDigits.toNat ≤ j) :
    s.withHotp.codeByte j = 0x00 := by
  rw [State.codeByte_withHotp s hj, codeChar, if_neg (by omega)]

/-- The code `HOTP` leaves is the code of the digest (R5). -/
theorem State.codeBytes_withHotp {s : State} (hd : dlen s.cfgAlg = some s.digestLen.toNat)
    (h : s.cfgDigits.toNat ≤ 16) :
    s.withHotp.codeBytes =
      codeOfDigest (s.buf.readBytes Config.digestBase s.digestLen.toNat) s.cfgDigits.toNat := by
  have hlen : 20 ≤ s.digestLen.toNat := by have := dlen_cases hd; omega
  have htrunc : truncValue (fun j => (s.buf.readBytes Config.digestBase s.digestLen.toNat).getD j 0x00)
      s.digestLen.toNat = truncValue s.digestByte s.digestLen.toNat :=
    truncValue_congr hlen fun j hj => by simp [hj, State.digestByte]
  rw [codeOfDigest, Memory.length_readBytes, htrunc]
  refine List.map_congr_left fun j hj => ?_
  exact State.codeByte_withHotp s (by have : j < s.cfgDigits.toNat := List.mem_range.1 hj; omega)

theorem length_hmac {alg : Word} {n : Nat} (key msg : List Byte) (h : dlen alg = some n) :
    (hmac alg key msg).length = n := by
  simp [hmac, h]

/-- R178: the digest lengths of the algorithms CFGLOCK accepts. -/
theorem exists_dlen {alg : Word} (h : alg.toNat ≤ 2) : ∃ n, dlen alg = some n := by
  have : alg = 0 ∨ alg = 1 ∨ alg = 2 := by
    rcases (by omega : alg.toNat = 0 ∨ alg.toNat = 1 ∨ alg.toNat = 2) with e | e | e
    · exact .inl (BitVec.eq_of_toNat_eq e)
    · exact .inr (.inl (BitVec.eq_of_toNat_eq e))
    · exact .inr (.inr (BitVec.eq_of_toNat_eq e))
  rcases this with rfl | rfl | rfl
  · exact ⟨20, rfl⟩
  · exact ⟨32, rfl⟩
  · exact ⟨64, rfl⟩

/-! ## The comparator (R212) -/

/-- An OR over a list is 0 exactly when every term of it is. -/
theorem foldl_or_eq_zero_iff {α : Type} (f : α → Word) (l : List α) (a : Word) :
    l.foldl (fun acc x => acc ||| f x) a = 0 ↔ a = 0 ∧ ∀ x ∈ l, f x = 0 := by
  induction l generalizing a with
  | nil => simp
  | cons x l ih =>
    rw [List.foldl_cons, ih, List.forall_mem_cons, ← and_assoc]
    exact and_congr_left' BitVec.or_eq_zero_iff

/-- `eq` says that the lengths agree and all 16 positions agree (R212). -/
theorem State.codeEqCand_iff (s : State) :
    s.codeEqCand = true ↔ s.codeLen = s.candLen ∧ ∀ j, j < 16 → s.codeByte j = s.candByte j := by
  have hbyte : ∀ b c : Byte, (b ^^^ c).setWidth 32 = (0 : Word) ↔ b = c := by
    refine fun b c => ⟨fun h => ?_, fun h => by rw [h, BitVec.xor_self]; rfl⟩
    simpa [BitVec.xor_eq_zero_iff] using congrArg (BitVec.setWidth 8) h
  rw [State.codeEqCand, beq_iff_eq, State.compareAcc, foldl_or_eq_zero_iff]
  exact and_congr BitVec.xor_eq_zero_iff
    ⟨fun h j hj => (hbyte _ _).1 (h j (List.mem_range.2 hj)), fun h j hj => (hbyte _ _).2 (h j (List.mem_range.1 hj))⟩

/-- The host has loaded the candidate: its length in CAND_LEN, its first 16 bytes in CAND (R37, R112 LDCAND). -/
structure State.HoldsCand (cand : List Byte) (s : State) : Prop where
  length : s.candLen.toNat = cand.length
  bytes : ∀ (j : Nat) (h : j < cand.length), j < 16 → s.buf.read (Config.candBase + j) = cand[j]

/-- With a code of at most 16 characters and zeros after it in CODE, `eq` says that the candidate is the code, byte for
byte (R213). -/
theorem State.codeEqCand_eq_beq {s : State} {cand : List Byte} (hl : s.codeLen.toNat ≤ 16)
    (hz : ∀ j, s.codeLen.toNat ≤ j → j < 16 → s.codeByte j = 0x00) (hc : s.HoldsCand cand) :
    s.codeEqCand = (s.codeBytes == cand) := by
  obtain ⟨hlen, hbytes⟩ := hc
  rw [Bool.eq_iff_iff, State.codeEqCand_iff, beq_iff_eq, State.codeBytes, Memory.readBytes_eq_iff]
  constructor
  · rintro ⟨heq, hall⟩
    refine ⟨hlen.symm.trans (congrArg BitVec.toNat heq.symm), fun j hj => ?_⟩
    have hj16 : j < 16 := by rw [heq] at hl; omega
    have hbyte := hall j hj16
    rwa [State.candByte, if_pos (by omega), hbytes j hj hj16] at hbyte
  · rintro ⟨heq, hall⟩
    refine ⟨BitVec.eq_of_toNat_eq (heq.symm.trans hlen.symm), fun j hj16 => ?_⟩
    by_cases hj : j < s.candLen.toNat
    · rw [State.candByte, if_pos hj, hbytes j (by omega) hj16]
      exact hall j (by omega)
    · rw [State.candByte, if_neg hj]
      exact hz j (by omega) hj16

end Sys2Proof.Machine
end

section
/-! PROOFS. The idle engine, and the code of a digest the host has loaded. -/

namespace Sys2Proof.Machine

/-- Settles O15: a step with no operation to take is the idle step. -/
theorem idleEngineKeepsAllState : Obligations.IdleEngineKeepsAllState := fun _ => step_of_empty

/-- Settles O38, from the code `HOTP` leaves of whatever stands in DIGEST. -/
theorem hotpComputesTheCodeOfTheDigest : Obligations.HotpComputesTheCodeOfTheDigest := by
  intro s key c len hd hc _ hdig hlen hbytes
  subst hlen
  refine ⟨s.withHotp, exec_hotp hc hd, rfl, rfl, ?_⟩
  rw [State.codeBytes_withHotp hd (by omega), computeCode, ← hbytes]
  rfl

end Sys2Proof.Machine
end

section
/-! PROOFS. The host programs of R5 at the port: what each line makes of the engine, a key, a counter and the code they
give, and a program under a fault. -/

namespace Sys2Proof.Machine

/-! ## Runs up to the replies -/

/-- Whatever replies the host has had, `f` takes the state `s` to `t`, but for the replies it adds. No command looks at
the replies, so a host program is followed by the states it takes the engine through. -/
def Takes (f : State → Result) (s t : State) : Prop :=
  ∀ R, ∃ R', f { s with replies := R } = .next { t with replies := R' }

/-- The same, `l` being the last replies added. -/
def Answers (l : List Reply) (f : State → Result) (s t : State) : Prop :=
  ∀ R, ∃ R', f { s with replies := R } = .next { t with replies := R' ++ l }

/-- Sequencing, whatever the second part leaves (`v`). -/
theorem Takes.andThen_next {f g : State → Result} {s t : State} {v : List Reply → State} (hf : Takes f s t)
    (hg : ∀ R, ∃ R', g { t with replies := R } = .next (v R')) (R : List Reply) :
    ∃ R', Machine.andThen (f { s with replies := R }) g = .next (v R') := by
  obtain ⟨R1, e1⟩ := hf R
  obtain ⟨R2, e2⟩ := hg R1
  exact ⟨R2, by rw [e1, Machine.andThen_next, e2]⟩

theorem Takes.andThen {f g : State → Result} {s t u : State} (hf : Takes f s t) (hg : Takes g t u) :
    Takes (fun x => Machine.andThen (f x) g) s u :=
  hf.andThen_next hg

theorem Takes.andThen_answers {l : List Reply} {f g : State → Result} {s t u : State} (hf : Takes f s t)
    (hg : Answers l g t u) : Answers l (fun x => Machine.andThen (f x) g) s u :=
  hf.andThen_next hg

theorem Takes.nil (s : State) : Takes (askAll []) s s := fun R => ⟨R, rfl⟩

theorem Takes.cons {op : HostOp} {ops : List HostOp} {s t u : State} (h : Takes (ask op) s t)
    (hs : Takes (askAll ops) t u) : Takes (askAll (op :: ops)) s u :=
  h.andThen hs

theorem Takes.single {op : HostOp} {s t : State} (h : Takes (ask op) s t) : Takes (askAll [op]) s t :=
  h.cons (.nil t)

theorem Takes.append {a b : List HostOp} {s t u : State} (ha : Takes (askAll a) s t) (hb : Takes (askAll b) t u) :
    Takes (askAll (a ++ b)) s u := fun R => by
  rw [askAll_append]; exact ha.andThen_next hb R

theorem Takes.append_answers {l : List Reply} {a b : List HostOp} {s t u : State} (ha : Takes (askAll a) s t)
    (hb : Answers l (askAll b) t u) : Answers l (askAll (a ++ b)) s u := fun R => by
  rw [askAll_append]; exact ha.andThen_next hb R

/-- A read of a register is answered its word (R75). -/
theorem Answers.rd {r : Reg} (h : r ≠ .cmd) (s : State) : Answers [.word (s.readReg r)] (ask (HostOp.rd r)) s s :=
  fun R => ⟨R, by rw [ask_rd h]; cases r <;> rfl⟩

/-- Reads of CODE while a code is valid are answered its characters (R52, R73). -/
theorem Answers.rb_code {s : State} {n : Nat} (hv : s.codeValid = true) (hn : s.codeLen.toNat = n) (h : n ≤ 16) :
    Answers (s.codeBytes.map .byte) (askAll (HostOp.rb Config.codeBase n)) s s := fun R => by
  have hregion : ∀ j, j < n → regionOf (Config.codeBase + j) = .code := by
    intro j hj; unfold regionOf Config.codeBase; (repeat' split) <;> first | rfl | omega
  have hchars : s.codeBytes.map Reply.byte =
      (List.range n).map fun j => .byte (s.hostByte (Config.codeBase + j)) := by
    rw [map_hostByte hregion hv, State.codeBytes, hn]
  rw [hchars]
  exact ⟨R, askAll_rb (fun j hj => by rw [hregion j hj]; rfl) _⟩

/-- A command line with no fault standing is its command. -/
theorem Takes.cmd {i : Instr} {s t : State} (h : exec i s = .next t) (hi : i.WellFormed) (hf : s.fault = false) :
    Takes (ask (HostOp.cmd i)) s t := fun R =>
  ⟨_, ask_cmd_runs hf (decodeWord_encode hi) h R⟩

/-- A command line under a fault does nothing, unless it is SRESET or CLRERR (R241). -/
theorem Takes.ignored {i : Instr} {s : State} (hf : s.fault = true) (hr : i.op ≠ Instr.op .sreset)
    (hc : i.op ≠ Instr.op .clrerr) : Takes (ask (HostOp.cmd i)) s s := fun R =>
  ⟨_, ask_cmd_ignored (s := { s with replies := R }) hf (encode_sreset ▸ encode_ne_of_op_ne hr)
    (encode_clrerr ▸ encode_ne_of_op_ne hc)⟩

/-- Byte reads change nothing (R77). -/
theorem Takes.rb (a n : Nat) (s : State) : Takes (askAll (HostOp.rb a n)) s s := fun _ => ⟨_, askAll_reads a _ _⟩

/-! ## Loading (R112) -/

/-- The state `LDTEXT` leaves. -/
def State.textLoaded (text : List Byte) (s : State) : State :=
  { s with buf := s.buf.writeBytes Config.textBase text, textLen := BitVec.ofNat 32 text.length }

/-- The state `LDCAND` leaves. -/
def State.candLoaded (cand : List Byte) (s : State) : State :=
  { s with
    buf := s.buf.writeBytes Config.candBase (cand.take Config.codeBuf)
    candLen := BitVec.ofNat 32 cand.length }

/-- The state `SETTIME` leaves. -/
def State.timeLoaded (time : Dword) (s : State) : State :=
  { s with timeLo := loHalf time, timeHi := hiHalf time, tmask := 0b11 }

theorem takes_ldText {text : List Byte} (h : text.length ≤ 128) (s : State) :
    Takes (askAll (ldText text)) s (s.textLoaded text) := fun _ => ⟨_, askAll_ldText h _⟩

theorem takes_ldCand {s : State} (h : s.winActive = false) (cand : List Byte) :
    Takes (askAll (ldCand cand)) s (s.candLoaded cand) := fun R =>
  ⟨_, askAll_ldCand (s := { s with replies := R }) h cand⟩

theorem takes_setTime (time : Dword) (s : State) : Takes (askAll (setTime time)) s (s.timeLoaded time) := fun _ =>
  ⟨_, askAll_setTime time _⟩

theorem State.slice_timeLoaded (time : Dword) (s : State) : (s.timeLoaded time).slice = quotient time s.cfgPeriod := by
  have h : (s.timeLoaded time).time = time := hiHalf_append_loHalf time
  rw [State.slice, h]; rfl

theorem State.holdsCand_candLoaded (s : State) {cand : List Byte} (h : cand.length < 2 ^ 32) :
    (s.candLoaded cand).HoldsCand cand where
  length := by
    show (BitVec.ofNat 32 cand.length).toNat = _
    rw [BitVec.toNat_ofNat, Nat.mod_eq_of_lt h]
  bytes j hj h16 := by
    have ht : j < (cand.take Config.codeBuf).length := by simp [Config.codeBuf]; omega
    show (s.buf.writeBytes Config.candBase (cand.take Config.codeBuf)).read (Config.candBase + j) = _
    rw [Memory.read_writeBytes_of_lt _ _ _ _ ht, List.getElem_take]

/-- B32DEC after LDTEXT decodes the text loaded (R151). -/
theorem b32Decode_textLoaded {text : List Byte} (h : text.length ≤ 128) (s : State) :
    (s.textLoaded text).textLen.toNat = text.length ∧
      b32Decode (s.textLoaded text).strippedText = decodeSecret text := by
  have hl : (s.textLoaded text).textLen.toNat = text.length := by
    show (BitVec.ofNat 32 text.length).toNat = _
    rw [BitVec.toNat_ofNat]; omega
  exact ⟨hl, b32Decode_strippedText hl fun j hj => Memory.read_writeBytes_of_lt _ _ _ _ hj⟩

/-- `LDTEXT ; B32DEC` of an invalid secret: the fault. -/
theorem takes_invalidSecret {text : List Byte} {s : State} (hf : s.fault = false) (h : text.length ≤ 128)
    (hd : decodeSecret text = none) :
    Takes (askAll (ldText text ++ [HostOp.cmd .b32dec])) s
      ((s.textLoaded text).keyCleared.faulted .invalidSecret 0x00000010) := by
  refine (takes_ldText h s).append (Takes.single (Takes.cmd ?_ rfl hf))
  obtain ⟨hl, hdec⟩ := b32Decode_textLoaded h s
  rcases execB32dec_cases (s.textLoaded text) with ⟨h', _⟩ | ⟨_, _, e⟩ | ⟨out, _, h', _⟩
  · omega
  · exact e
  · rw [hdec, hd] at h'; cases h'

/-- `LDTEXT ; B32DEC` of a valid secret: its key. -/
theorem takes_validSecret {text key : List Byte} {s : State} (hf : s.fault = false) (h : text.length ≤ 128)
    (hd : decodeSecret text = some key) :
    Takes (askAll (ldText text ++ [HostOp.cmd .b32dec])) s ((s.textLoaded text).keyCleared.withKey key) := by
  refine (takes_ldText h s).append (Takes.single (Takes.cmd ?_ rfl hf))
  obtain ⟨hl, hdec⟩ := b32Decode_textLoaded h s
  rcases execB32dec_cases (s.textLoaded text) with ⟨h', _⟩ | ⟨_, h', _⟩ | ⟨out, _, h', e⟩
  · omega
  · rw [hdec, hd] at h'; cases h'
  · rw [hdec, hd] at h'; cases h'; exact e

/-! ## A key, a counter, a code -/

/-- `HOTP` of a digest of the right length under a frozen configuration (R112). -/
theorem takes_hotpOps {s : State} (hf : s.fault = false) (hc : s.cfgOk = true)
    (hd : dlen s.cfgAlg = some s.digestLen.toNat) : Takes (askAll hotpOps) s s.withHotp :=
  (Takes.cmd (execDtrunc_of_digest hc hd) rfl hf).cons <|
    Takes.single (Takes.cmd (execModred_of_value (s := s.valueCleared.withValue _ _) hc rfl) rfl hf)

/-- No fault stands, the configuration is legal and frozen with this algorithm and digit count, and the key is valid:
what the lines after B32DEC need (R272). -/
structure State.KeyReady (alg digits : Word) (key : List Byte) (s : State) : Prop where
  clean : s.fault = false
  frozen : s.cfgOk = true
  legal : s.cfgLegal = true
  alg : s.cfgAlg = alg
  digits : s.cfgDigits = digits
  keyValid : s.keyValid = true
  keyLen : s.keyLen.toNat ≤ 80
  keyBytes : s.keyBytes = key

/-- A valid secret makes a frozen engine ready. -/
theorem State.keyReady_withKey {s : State} {key : List Byte} (hf : s.fault = false) (hc : s.cfgOk = true)
    (hl : s.cfgLegal = true) (hk : key.length ≤ 80) : (s.withKey key).KeyReady s.cfgAlg s.cfgDigits key where
  clean := hf
  frozen := hc
  legal := hl
  alg := rfl
  digits := rfl
  keyValid := rfl
  keyLen := by rw [State.withKey_keyLen, BitVec.toNat_ofNat]; omega
  keyBytes := s.keyBytes_withKey hk

/-- `LDCAND` leaves a ready engine ready. -/
theorem State.KeyReady.candLoaded {alg digits : Word} {key : List Byte} {s : State} (h : s.KeyReady alg digits key)
    (cand : List Byte) : (s.candLoaded cand).KeyReady alg digits key where
  clean := h.clean
  frozen := h.frozen
  legal := h.legal
  alg := h.alg
  digits := h.digits
  keyValid := h.keyValid
  keyLen := h.keyLen
  keyBytes := by
    rw [← h.keyBytes]
    have hk : (s.candLoaded cand).keyLen.toNat ≤ 80 := h.keyLen
    exact Memory.readBytes_writeBytes_disjoint s.buf (.inl (by simp only [Config.keyBase, Config.candBase]; omega))

/-- The state after a slice command that computed the counter `c`, the external HMAC and `HOTP`. -/
def State.codedAt (c : Dword) (s : State) : State :=
  ((s.msgCleared.withCounter c).withDigest (hmac s.cfgAlg s.keyBytes (be64 c))).withHotp

section
variable {alg digits : Word} {key : List Byte} {s : State}

theorem State.KeyReady.digits_le (h : s.KeyReady alg digits key) : s.cfgDigits.toNat ≤ 10 :=
  ((State.cfgLegal_iff s).1 h.legal).2.1

/-- DIGEST_LEN holds the length of every digest. -/
theorem toNat_length_hmac (alg : Word) (key msg : List Byte) :
    (BitVec.ofNat 32 (hmac alg key msg).length).toNat = (hmac alg key msg).length := by
  have := length_hmac_le alg key msg
  rw [BitVec.toNat_ofNat]; omega

/-- The digest the host writes has the length DTRUNC asks for (R178). -/
theorem State.KeyReady.dlen_hmac (h : s.KeyReady alg digits key) (msg : List Byte) :
    dlen s.cfgAlg = some (BitVec.ofNat 32 (hmac s.cfgAlg s.keyBytes msg).length).toNat := by
  obtain ⟨n, hn⟩ := exists_dlen ((State.cfgLegal_iff s).1 h.legal).2.2.2
  rw [toNat_length_hmac, length_hmac _ _ hn, hn]

/-- A slice command leaves KEY alone. -/
theorem State.KeyReady.keyBytes_withCounter (h : s.KeyReady alg digits key) (c : Dword) :
    (s.msgCleared.withCounter c).keyBytes = s.keyBytes :=
  Memory.readBytes_writeBytes_disjoint _ (.inl (by have := h.keyLen; simp [Config.keyBase, Config.msgBase]; omega))

theorem State.msgBytes_withCounter (s : State) (c : Dword) : (s.withCounter c).msgBytes = be64 c := by
  have h := Memory.readBytes_writeBytes_self s.buf Config.msgBase (be64 c)
  rwa [length_be64] at h

/-- `EXTHMAC` after a slice command writes the HMAC of the key and the counter (R271). -/
theorem State.KeyReady.takes_guardedHmac (h : s.KeyReady alg digits key) (c : Dword) :
    Takes (guardedHmac alg) (s.msgCleared.withCounter c)
      ((s.msgCleared.withCounter c).withDigest (hmac s.cfgAlg s.keyBytes (be64 c))) := fun R => by
  obtain rfl := h.alg
  have e := guardedHmac_allowed s.cfgAlg (s := { s.msgCleared.withCounter c with replies := R }) h.clean h.keyValid rfl
    h.keyLen
  rw [← h.keyBytes_withCounter c, ← s.msgCleared.msgBytes_withCounter c]
  exact e

theorem State.KeyReady.takes_codedAt (h : s.KeyReady alg digits key) (c : Dword) :
    Takes (askAll hotpOps) ((s.msgCleared.withCounter c).withDigest (hmac s.cfgAlg s.keyBytes (be64 c)))
      (s.codedAt c) :=
  takes_hotpOps (s := (s.msgCleared.withCounter c).withDigest _) h.clean h.frozen (h.dlen_hmac _)

/-- The code that then stands in CODE is `computeCode` of R5. -/
theorem State.KeyReady.codeBytes_codedAt (h : s.KeyReady alg digits key) (c : Dword) :
    (s.codedAt c).codeBytes = computeCode key c alg digits.toNat := by
  rw [State.codedAt, State.codeBytes_withHotp (s := (s.msgCleared.withCounter c).withDigest _) (h.dlen_hmac _)
    (h.digits_le.trans (by omega))]
  simp only [State.withDigest_buf, State.withDigest_digestLen, toNat_length_hmac,
    Memory.readBytes_writeBytes_self]
  rw [computeCode, ← h.alg, ← h.digits, ← h.keyBytes]
  rfl

/-- A round leaves KEY and CAND, and all that is not MSG, DIGEST or CODE, alone. -/
theorem State.read_codedAt (s : State) (c : Dword) {a : Nat} (ha : a < 0x100 ∨ 0x160 ≤ a) :
    (s.codedAt c).buf.read a = s.buf.read a := by
  have hlen := length_hmac_le s.cfgAlg s.keyBytes (be64 c)
  show (((s.buf.writeBytes Config.msgBase (be64 c)).writeBytes Config.digestBase _).writeBytes Config.codeBase _).read a
    = _
  rw [Memory.read_writeBytes_outside _ _ _ _ (by simp [Config.codeBase]; omega),
    Memory.read_writeBytes_outside _ _ _ _ (by simp [Config.digestBase]; omega),
    Memory.read_writeBytes_outside _ _ _ _ (by simp [Config.msgBase]; omega)]

theorem State.KeyReady.codedAt (h : s.KeyReady alg digits key) (c : Dword) :
    (s.codedAt c).KeyReady alg digits key where
  clean := h.clean
  frozen := h.frozen
  legal := h.legal
  alg := h.alg
  digits := h.digits
  keyValid := h.keyValid
  keyLen := h.keyLen
  keyBytes := by
    rw [← h.keyBytes]
    refine List.map_congr_left fun j hj => s.read_codedAt c (.inl ?_)
    have hj' : j < s.keyLen.toNat := List.mem_range.1 hj
    have := h.keyLen
    simp only [Config.keyBase]; omega

theorem State.HoldsCand.codedAt {cand : List Byte} (hc : s.HoldsCand cand) (c : Dword) :
    (s.codedAt c).HoldsCand cand where
  length := hc.length
  bytes j hj h16 := by
    rw [s.read_codedAt c (.inr (by simp [Config.candBase]))]
    exact hc.bytes j hj h16

/-- The comparison of a round: the candidate is the code of the round's counter (R213, R5). -/
theorem State.KeyReady.codeEqCand_codedAt {cand : List Byte} (h : s.KeyReady alg digits key) (hc : s.HoldsCand cand)
    (c : Dword) : (s.codedAt c).codeEqCand = (computeCode key c alg digits.toNat == cand) := by
  have hle : (s.codedAt c).codeLen.toNat ≤ 16 := h.digits_le.trans (by omega)
  rw [State.codeEqCand_eq_beq hle (fun j hj h16 => State.codeByte_withHotp_of_digits_le _ h16 hj)
    (hc.codedAt c), h.codeBytes_codedAt c]

end

/-! ## A program under a fault (R241, R273) -/

theorem takes_guardedHmac_of_fault (alg : Word) {s : State} (h : s.fault = true) : Takes (guardedHmac alg) s s :=
  fun R => guardedHmac_refused alg (s := { s with replies := R }) h

theorem takes_hotpOps_of_fault {s : State} (h : s.fault = true) : Takes (askAll hotpOps) s s :=
  (Takes.ignored h (by decide) (by decide)).cons (Takes.single (Takes.ignored h (by decide) (by decide)))

theorem takes_verifyRound_of_fault (alg : Word) {s : State} (h : s.fault = true) : Takes (verifyRound alg) s s :=
  (Takes.ignored h (by decide) (by decide)).andThen <| (takes_guardedHmac_of_fault alg h).andThen <|
    (takes_hotpOps_of_fault h).append (Takes.single (Takes.ignored h (by decide) (by decide)))

theorem takes_verifyRepeat_of_fault (alg : Word) {s : State} (h : s.fault = true) (n : Nat) :
    Takes (verifyRepeat alg n) s s := by
  induction n with
  | zero => exact fun R => ⟨R, rfl⟩
  | succ n ih => exact (takes_verifyRound_of_fault alg h).andThen ih

end Sys2Proof.Machine
end

section
/-! PROOFS. `getCode` and `verifyCode` of R5 at the port: the rounds of a window by induction on their number, then the
programs from their first line to the last read. -/

namespace Sys2Proof.Machine

/-! ## Slices -/

/-- TIME has 64 bits, so has the slice (R10 (b)). -/
theorem quotient_lt (time : Dword) {period : Word} (h : period ≠ 0) : quotient time period < 2 ^ 64 := by
  rw [quotient_of_ne_zero time h]
  exact (Nat.div_le_self _ _).trans_lt time.isLt

theorem counterInRange_iff {c : Int} : counterInRange c = true ↔ 0 ≤ c ∧ c < 2 ^ 64 := decide_eq_true_iff

theorem State.cfgPeriod_ne_zero {s : State} (h : s.cfgLegal = true) : s.cfgPeriod ≠ 0 :=
  ((State.cfgLegal_iff s).1 h).2.2.1

/-- SLICEW in a window whose counter is in range (R198). -/
theorem execSlicew_inRange {s : State} (hw : s.winActive = true)
    (hc : counterInRange ((s.winBase.toNat : Int) + s.winI.toInt) = true) :
    exec .slicew s =
      .next (s.msgCleared.withCounter (BitVec.ofInt 64 ((s.winBase.toNat : Int) + s.winI.toInt))) := by
  have hc' := counterInRange_iff.1 hc
  rcases execSlicew_cases s with ⟨h, _⟩ | ⟨_, h, _⟩ | ⟨_, _, _, e⟩
  · rw [hw] at h; cases h
  · omega
  · exact e

/-- SLICEW in a window whose counter is out of range (R192, R198). -/
theorem execSlicew_outOfRange {s : State} (hw : s.winActive = true)
    (hc : counterInRange ((s.winBase.toNat : Int) + s.winI.toInt) = false) :
    exec .slicew s = .next (s.msgCleared.faulted .counterRange 0x00000032) := by
  rcases execSlicew_cases s with ⟨h, _⟩ | ⟨_, _, e⟩ | ⟨_, h0, h1, _⟩
  · rw [hw] at h; cases h
  · exact e
  · rw [counterInRange_iff.2 ⟨h0, h1⟩] at hc; cases hc

/-- SLICE of the current time never leaves the range (R191, R192). -/
theorem execSlice_zero {s : State} (hc : s.cfgOk = true) (ht : s.timeValid = true) (hp : s.cfgPeriod ≠ 0) :
    exec (.slice 0) s = .next (s.msgCleared.withCounter (BitVec.ofInt 64 ((s.slice : Int) + 0))) := by
  have hlt : s.slice < 2 ^ 64 := quotient_lt s.time hp
  rcases execSlice_cases 0 s with ⟨h | h, _⟩ | ⟨_, _, h, _⟩ | ⟨_, _, _, _, e⟩
  · rw [hc] at h; cases h
  · rw [ht] at h; cases h
  · omega
  · exact e

/-- VBEGIN of a discrepancy that is not negative (R195). -/
theorem execVbegin_opens {s : State} {d : Int} (hc : s.cfgOk = true) (ht : s.timeValid = true) (hd : 0 ≤ d) :
    exec (.vbegin d) s = .next (s.windowDropped.windowOpened d (BitVec.ofNat 64 s.slice)) := by
  rcases execVbegin_cases d s with ⟨h | h, _⟩ | ⟨_, _, h, _⟩ | ⟨_, _, _, e⟩
  · rw [hc] at h; cases h
  · rw [ht] at h; cases h
  · omega
  · exact e

/-- CMPW of a valid code in a window (R215). -/
theorem execCmpw_advances {s : State} (hw : s.winActive = true) (hc : s.codeValid = true) :
    exec .cmpw s = .next (s.accumulated s.codeEqCand).windowAdvanced := by
  show execCmpw s = _
  rw [execCmpw, if_neg (by simp [hw, hc])]

/-! ## One round of a window -/

/-- What one verification is about: the configuration, the key, the candidate, the discrepancy and the slice. -/
structure Verification where
  alg : Word
  digits : Word
  key : List Byte
  cand : List Byte
  d : Nat
  base : Nat

/-- Whether the candidate is the code of the counter `c` (R5). -/
def Verification.accepts (v : Verification) (c : Int) : Bool :=
  computeCode v.key (BitVec.ofInt 64 c) v.alg v.digits.toNat == v.cand

/-- The state before the round of offset `i` in the window of `v`, `m` being the OR of the comparisons so far (R199). -/
structure State.Verifying (v : Verification) (i : Int) (m : Bool) (s : State) : Prop where
  ready : s.KeyReady v.alg v.digits v.key
  cand : s.HoldsCand v.cand
  active : s.winActive = true
  base : s.winBase.toNat = v.base
  last : s.winD.toInt = v.d
  offset : s.winI.toInt = i
  acc : s.matchAcc = m
  small : v.d ≤ 32767
  low : -(v.d : Int) ≤ i
  high : i ≤ v.d

section
variable {v : Verification} {i : Int} {m : Bool} {s : State}

/-- The state after the round of the counter `c`. -/
def State.roundDone (v : Verification) (c : Int) (s : State) : State :=
  ((s.codedAt (BitVec.ofInt 64 c)).accumulated (v.accepts c)).windowAdvanced

/-- A round whose counter is out of range faults at SLICEW, and its other lines do nothing (R192, R241). -/
theorem State.Verifying.takes_verifyRound_outOfRange (h : s.Verifying v i m)
    (hc : counterInRange (v.base + i) = false) :
    Takes (verifyRound v.alg) s (s.msgCleared.faulted .counterRange 0x00000032) := by
  rw [← h.base, ← h.offset] at hc
  have hf : (s.msgCleared.faulted .counterRange 0x00000032).fault = true := rfl
  exact (Takes.cmd (execSlicew_outOfRange h.active hc) rfl h.ready.clean).andThen <|
    (takes_guardedHmac_of_fault v.alg hf).andThen <|
      (takes_hotpOps_of_fault hf).append (Takes.single (Takes.ignored hf (by decide) (by decide)))

/-- A round whose counter is in range compares the candidate with the code of the counter (R200). -/
theorem State.Verifying.takes_verifyRound_inRange (h : s.Verifying v i m)
    (hc : counterInRange (v.base + i) = true) :
    Takes (verifyRound v.alg) s (s.roundDone v (v.base + i)) := by
  rw [← h.base, ← h.offset] at hc ⊢
  have hmac := h.ready.takes_guardedHmac (BitVec.ofInt 64 ((s.winBase.toNat : Int) + s.winI.toInt))
  have hcmp := execCmpw_advances
    (s := s.codedAt (BitVec.ofInt 64 ((s.winBase.toNat : Int) + s.winI.toInt))) h.active rfl
  rw [h.ready.codeEqCand_codedAt h.cand] at hcmp
  exact (Takes.cmd (execSlicew_inRange h.active hc) rfl h.ready.clean).andThen <|
    hmac.andThen <| (h.ready.takes_codedAt _).append (Takes.single (Takes.cmd hcmp rfl h.ready.clean))

/-- The round of the last offset closes the window with a final result (R215). -/
theorem State.Verifying.roundDone_last (h : s.Verifying v i m) (hi : i = v.d) (c : Int) :
    (s.roundDone v c).fault = false ∧ (s.roundDone v c).resultValid = true ∧
      (s.roundDone v c).matchAcc = (m || v.accepts c) := by
  have hlast : s.winI = s.winD := BitVec.toInt_inj.1 (by rw [h.offset, h.last, hi])
  have e : s.roundDone v c = ((s.codedAt (BitVec.ofInt 64 c)).accumulated (v.accepts c)).windowClosed := if_pos hlast
  rw [e, ← h.acc]
  exact ⟨h.ready.clean, rfl, rfl⟩

/-- An earlier round moves the window to its next offset (R215). -/
theorem State.Verifying.roundDone_next (h : s.Verifying v i m) (hi : i < v.d) (c : Int) :
    (s.roundDone v c).Verifying v (i + 1) (m || v.accepts c) := by
  have hnot : s.winI ≠ s.winD := fun e => by
    have := congrArg BitVec.toInt e
    rw [h.offset, h.last] at this; omega
  have e : s.roundDone v c = ((s.codedAt (BitVec.ofInt 64 c)).accumulated (v.accepts c)).windowMoved := if_neg hnot
  have hready := h.ready.codedAt (BitVec.ofInt 64 c)
  have hcand := h.cand.codedAt (BitVec.ofInt 64 c)
  have hsmall := h.small
  have hlow := h.low
  rw [e]
  exact {
    ready := { hready with }
    cand := { hcand with }
    active := h.active
    base := h.base
    last := h.last
    offset := by
      show (s.winI + 1).toInt = i + 1
      rw [BitVec.toInt_add, h.offset, show (1 : Word).toInt = 1 from rfl, Int.bmod_eq_of_le] <;> omega
    acc := congrArg (· || v.accepts c) h.acc
    small := h.small
    low := by omega
    high := by omega }

/-! ## The rounds of a window -/

/-- `n` counters from `c` up. -/
def countersFrom (c : Int) (n : Nat) : List Int :=
  match n with
  | 0 => []
  | n + 1 => c :: countersFrom (c + 1) n

/-- What the rounds of the counters `cs` leave when `m` is the OR of the comparisons before them: a final result, the OR
of all, or the fault of a counter out of range. -/
def Verification.Decided (v : Verification) (cs : List Int) (m : Bool) (t : State) : Prop :=
  if cs.all counterInRange then
    t.fault = false ∧ t.resultValid = true ∧ t.matchAcc = (cs.map v.accepts).foldl (· || ·) m
  else t.fault = true ∧ t.errCode = some .counterRange ∧ t.resultValid = false

/-- The rounds left in a window evaluate every counter left, or fault at the first that is out of range (R199, R200). -/
theorem State.Verifying.takes_verifyRepeat (n : Nat) (h : s.Verifying v i m) (hn : i + n = v.d + 1) :
    ∃ t, Takes (verifyRepeat v.alg n) s t ∧ v.Decided (countersFrom (v.base + i) n) m t := by
  induction n generalizing i m s with
  | zero => have := h.high; omega
  | succ n ih =>
    cases hc : counterInRange (v.base + i) with
    | false =>
      refine ⟨_, (h.takes_verifyRound_outOfRange hc).andThen (takes_verifyRepeat_of_fault v.alg rfl n), ?_⟩
      simp [Verification.Decided, countersFrom, hc]
    | true =>
      have hround := h.takes_verifyRound_inRange hc
      by_cases hi : i = v.d
      · obtain rfl : n = 0 := by omega
        refine ⟨_, hround.andThen fun R => ⟨R, rfl⟩, ?_⟩
        simpa [Verification.Decided, countersFrom, hc] using h.roundDone_last hi (v.base + i)
      · have hnext := h.roundDone_next (lt_of_le_of_ne h.high hi) (v.base + i)
        obtain ⟨t, ht, hdec⟩ := ih hnext (by omega)
        refine ⟨t, hround.andThen ht, ?_⟩
        simpa [Verification.Decided, countersFrom, hc, Int.add_assoc] using hdec

end

/-! ## verifyCode at the port -/

theorem map_range_add_eq_countersFrom (c : Int) (n : Nat) :
    (List.range n).map (fun j : Nat => c + j) = countersFrom c n := by
  induction n generalizing c with
  | zero => rfl
  | succ n ih =>
    rw [List.range_succ_eq_map, List.map_cons, List.map_map, countersFrom, ← ih (c + 1)]
    simp only [Nat.cast_zero, Int.add_zero, List.cons.injEq, true_and]
    exact List.map_congr_left fun j _ => by simp; omega

/-- The counters `verifyCode` evaluates (R5). -/
theorem map_windowOffsets (time : Dword) (period : Word) (d : Nat) :
    (windowOffsets d).map (counterFromTime time period) =
      countersFrom ((quotient time period : Int) + -d) (2 * d + 1) := by
  rw [← map_range_add_eq_countersFrom, windowOffsets, List.map_map]
  exact List.map_congr_left fun j _ => by simp [counterFromTime]; omega

/-- `verifyCode` of a valid secret under a legal configuration. -/
theorem verifyCode_of_some {s : State} {text cand key : List Byte} {d : Nat} {time : Dword} (hl : s.cfgLegal = true)
    (hkey : decodeSecret text = some key) :
    verifyCode text cand d time s.cfgPeriod s.cfgAlg s.cfgDigits.toNat =
      let v : Verification := ⟨s.cfgAlg, s.cfgDigits, key, cand, d, quotient time s.cfgPeriod⟩
      let counters := countersFrom (v.base + -d) (2 * d + 1)
      if counters.all counterInRange then some ((counters.map v.accepts).foldl (· || ·) false)
      else none := by
  obtain ⟨n, hn⟩ := exists_dlen ((State.cfgLegal_iff s).1 hl).2.2.2
  rw [verifyCode, hkey, Option.bind_some]
  simp only [map_windowOffsets, hn, Option.isSome_some, Bool.true_and]
  rfl

/-- The invariant's frozen configuration is legal (R131). -/
theorem State.Inv.cfgLegal {s : State} (h : s.Inv) (hc : s.cfgOk = true) : s.cfgLegal = true := by
  simpa [State.cfgInv, hc] using h.cfg

/-- RESULT reads 0 until the result is final, then 3 or 2 (R47). -/
theorem State.result_eq (s : State) : s.result = if s.resultValid then (if s.matchAcc then 3 else 2) else 0 := by
  cases hr : s.resultValid <;> cases hm : s.matchAcc <;> simp [State.result, hr, hm] <;> decide

/-- The lines of the program before its rounds: LDTEXT, B32DEC, LDCAND, SETTIME, VBEGIN (R200). -/
def verifyLoad (text cand : List Byte) (d : Nat) (time : Dword) : List HostOp :=
  ldText text ++ [HostOp.cmd .b32dec] ++ ldCand cand ++ setTime time ++ [HostOp.cmd (.vbegin d)]

/-- The program from its load to the read of RESULT, by what its parts make of the engine. -/
theorem answers_verifyProgram {alg : Word} {text cand : List Byte} {d : Nat} {time : Dword} {s t u : State}
    (hload : Takes (askAll (verifyLoad text cand d time)) s t)
    (hrounds : Takes (verifyRepeat alg (2 * d + 1)) t u) :
    Answers [.word u.result] (verifyProgram alg text cand d time) s u :=
  hload.andThen_answers (hrounds.andThen_answers (.rd (r := .result) (by decide) u))

section
variable {s : State} {text cand : List Byte} {d : Nat} {time : Dword}

/-- The load of an invalid secret: the fault, and no digest written (R155, R272). -/
theorem takes_verifyLoad_of_none (hf : s.fault = false) (ht : text.length ≤ 128) (hd : decodeSecret text = none) :
    ∃ t, Takes (askAll (verifyLoad text cand d time)) s t ∧
      t.fault = true ∧ t.errCode = some .invalidSecret ∧ t.resultValid = false ∧ DigestUntouched s t := by
  set s₁ := (s.textLoaded text).keyCleared.faulted .invalidSecret 0x00000010
  have hload := ((takes_invalidSecret hf ht hd).append (takes_ldCand (s := s₁) rfl cand)).append (takes_setTime time _)
  have hvb := Takes.ignored (i := .vbegin d) (s := (s₁.candLoaded cand).timeLoaded time) rfl (by simp [Instr.op])
    (by simp [Instr.op])
  refine ⟨_, hload.append (Takes.single hvb), rfl, rfl, rfl, rfl, fun a h1 h2 => ?_⟩
  show ((s.buf.writeBytes Config.textBase text).writeBytes Config.candBase (cand.take Config.codeBuf)).read a = _
  rw [Memory.read_writeBytes_outside _ _ _ _ (by simp only [Config.candBase]; omega),
    Memory.read_writeBytes_outside _ _ _ _ (by simp only [Config.textBase]; omega)]

/-- The load of a valid secret: the window is open at its first offset (R195). -/
theorem takes_verifyLoad_of_some {key : List Byte} (hf : s.fault = false) (hc : s.cfgOk = true)
    (hl : s.cfgLegal = true) (hw : s.winActive = false) (ht : text.length ≤ 128) (hcand : cand.length < 2 ^ 32)
    (hd : d ≤ 32767) (hkey : decodeSecret text = some key) :
    ∃ t, Takes (askAll (verifyLoad text cand d time)) s t ∧
      t.Verifying ⟨s.cfgAlg, s.cfgDigits, key, cand, d, quotient time s.cfgPeriod⟩ (-d) false := by
  have hlen := length_decodeSecret_le hkey ht
  set s₁ := (s.textLoaded text).keyCleared.withKey key
  have hready : (s₁.candLoaded cand).KeyReady s.cfgAlg s.cfgDigits key :=
    (State.keyReady_withKey (s := (s.textLoaded text).keyCleared) hf hc hl hlen).candLoaded cand
  have hholds := s₁.holdsCand_candLoaded hcand
  set s₂ := (s₁.candLoaded cand).timeLoaded time
  have hslice : s₂.slice = quotient time s.cfgPeriod := State.slice_timeLoaded time _
  have hvb := execVbegin_opens (s := s₂) (d := d) hc rfl (by omega)
  have hwf : (Instr.vbegin d).WellFormed := by simp [Instr.WellFormed, Instr.wf]; omega
  have hload := ((takes_validSecret hf ht hkey).append (takes_ldCand (s := s₁) hw cand)).append (takes_setTime time _)
  refine ⟨_, hload.append (Takes.single (Takes.cmd hvb hwf hf)), ?_⟩
  rw [hslice]
  exact {
    ready := { hready with }
    cand := { hholds with }
    active := rfl
    base := by
      show (hiHalf _ ++ loHalf _).toNat = _
      rw [hiHalf_append_loHalf, BitVec.toNat_ofNat, Nat.mod_eq_of_lt (quotient_lt time (State.cfgPeriod_ne_zero hl))]
    last := BitVec.toInt_ofInt_eq_self (by omega) (by omega) (by omega)
    offset := BitVec.toInt_ofInt_eq_self (by omega) (by omega) (by omega)
    acc := rfl
    small := hd
    low := Int.le_refl _
    high := by omega }

/-- The host program of R200 computes `verifyCode` under any legal frozen configuration. -/
theorem verifyProgram_answers (hf : s.fault = false) (hc : s.cfgOk = true) (hl : s.cfgLegal = true)
    (hw : s.winActive = false) (ht : text.length ≤ 128) (hcand : cand.length < 2 ^ 32) (hd : d ≤ 32767) :
    ∃ t, verifyProgram s.cfgAlg text cand d time s = .next t ∧ VerifyAnswered text cand d time s t := by
  cases hkey : decodeSecret text with
  | none =>
    obtain ⟨u, hload, hfu, heu, hru, hdu⟩ := takes_verifyLoad_of_none (cand := cand) (d := d) (time := time) hf ht hkey
    obtain ⟨R, e⟩ := answers_verifyProgram hload (takes_verifyRepeat_of_fault s.cfgAlg hfu _) s.replies
    refine ⟨_, e, ?_⟩
    have hnone : verifyCode text cand d time s.cfgPeriod s.cfgAlg s.cfgDigits.toNat = none := by
      rw [verifyCode, hkey, Option.bind_none]
    rw [VerifyAnswered, hnone]
    refine ⟨hfu, ?_, fun _ => ⟨heu, hdu⟩, fun h => absurd hkey h⟩
    simp [State.result_eq, hru]
  | some key =>
    obtain ⟨u, hload, hver⟩ := takes_verifyLoad_of_some (time := time) hf hc hl hw ht hcand hd hkey
    obtain ⟨t, hrounds, hdec⟩ := hver.takes_verifyRepeat (2 * d + 1) (by push_cast; omega)
    obtain ⟨R, e⟩ := answers_verifyProgram hload hrounds s.replies
    refine ⟨_, e, ?_⟩
    rw [VerifyAnswered, verifyCode_of_some hl hkey]
    unfold Verification.Decided at hdec
    split at hdec
    · next hall =>
      obtain ⟨hft, hrt, hmt⟩ := hdec
      rw [if_pos hall]
      refine ⟨hft, ?_⟩
      simp only [List.getLast?_concat, State.result_eq, hrt, hmt, if_true]
    · next hall =>
      obtain ⟨hft, het, hrt⟩ := hdec
      rw [if_neg hall]
      exact ⟨hft, by simp [State.result_eq, hrt], fun h => absurd (h.symm.trans hkey) nofun, fun _ => het⟩

end

/-- Settles O51: the invariant gives a legal configuration, which is all the program asks of the state it starts in. -/
theorem verifyProgramComputesVerifyCode : Obligations.VerifyProgramComputesVerifyCode := by
  intro s text cand d time hinv hf hc hw ht hcand hd
  exact verifyProgram_answers hf hc (hinv.cfgLegal hc) hw ht hcand hd

/-- Settles O52: CFGLOCK freezes the legal configuration and changes nothing else, and the program goes on from
there. -/
theorem programP2ComputesVerifyCode : Obligations.ProgramP2ComputesVerifyCode := by
  intro s text cand d time _ hf hc hd1 hd10 hp ha hw ht hcand hd
  have hl : s.cfgLegal = true := (State.cfgLegal_iff s).2 ⟨hd1, hd10, hp, ha⟩
  have hlock : exec .cfglock s = .next s.frozen := by
    rcases execCfglock_cases s with ⟨h, _⟩ | ⟨_, h, _⟩ | ⟨_, _, e⟩
    · rw [hc] at h; cases h
    · rw [hl] at h; cases h
    · exact e
  obtain ⟨R, e⟩ := Takes.cmd hlock rfl hf s.replies
  obtain ⟨t, et, hans⟩ := verifyProgram_answers (s := { s.frozen with replies := R }) (time := time) hf rfl hl hw ht
    hcand hd
  exact ⟨t, (congrArg (andThen · _) e).trans et, hans⟩

/-! ## getCode at the port -/

/-- `getCode` of a valid secret has a value: the slice of a 64-bit time is in range (R192). -/
theorem getCode_of_some {s : State} {text key : List Byte} {time : Dword} (hl : s.cfgLegal = true)
    (hkey : decodeSecret text = some key) :
    getCode text time s.cfgPeriod s.cfgAlg s.cfgDigits.toNat =
      some (computeCode key (BitVec.ofInt 64 ((quotient time s.cfgPeriod : Int) + 0)) s.cfgAlg s.cfgDigits.toNat) := by
  obtain ⟨n, hn⟩ := exists_dlen ((State.cfgLegal_iff s).1 hl).2.2.2
  have hlt := quotient_lt time (State.cfgPeriod_ne_zero hl)
  have hrange : counterInRange ((quotient time s.cfgPeriod : Int) + 0) = true := counterInRange_iff.2 (by omega)
  rw [getCode, hkey, Option.bind_some]
  simp only [counterFromTime, hn, hrange, Option.isSome_some, Bool.and_self, if_true]

section
variable {s : State} {text : List Byte} {time : Dword}

/-- The program of `getCode` with an invalid secret: the fault, and no digest written (R155, R272). -/
theorem takes_getCodeProgram_of_none (hf : s.fault = false) (ht : text.length ≤ 128)
    (hkey : decodeSecret text = none) (alg : Word) (n : Nat) :
    Takes (getCodeProgram alg n text time) s
      (((s.textLoaded text).keyCleared.faulted .invalidSecret 0x00000010).timeLoaded time) := by
  have hload := ((takes_invalidSecret hf ht hkey).append (takes_setTime time _)).append
    (Takes.single (Takes.ignored (i := .slice 0) rfl (by decide) (by decide)))
  exact hload.andThen <| (takes_guardedHmac_of_fault alg rfl).andThen <| (takes_hotpOps_of_fault rfl).append (.rb _ _ _)

/-- The program of `getCode` with a valid secret: the code of the current slice is read back. -/
theorem answers_getCodeProgram_of_some {key : List Byte} (hf : s.fault = false) (hc : s.cfgOk = true)
    (hl : s.cfgLegal = true) (ht : text.length ≤ 128) (hkey : decodeSecret text = some key) :
    ∃ t, t.fault = false ∧
      Answers ((computeCode key (BitVec.ofInt 64 ((quotient time s.cfgPeriod : Int) + 0)) s.cfgAlg
        s.cfgDigits.toNat).map .byte) (getCodeProgram s.cfgAlg s.cfgDigits.toNat text time) s t := by
  have hready := State.keyReady_withKey (s := (s.textLoaded text).keyCleared) hf hc hl (length_decodeSecret_le hkey ht)
  set u := ((s.textLoaded text).keyCleared.withKey key).timeLoaded time
  set c := BitVec.ofInt 64 ((quotient time s.cfgPeriod : Int) + 0)
  have hu : u.KeyReady s.cfgAlg s.cfgDigits key := { hready with }
  have hslice := execSlice_zero (s := u) hc rfl (State.cfgPeriod_ne_zero hl)
  rw [show u.slice = quotient time s.cfgPeriod from State.slice_timeLoaded time _] at hslice
  have hload := ((takes_validSecret hf ht hkey).append (takes_setTime time _)).append
    (Takes.single (Takes.cmd hslice rfl hf))
  have hread := Answers.rb_code (s := u.codedAt c) rfl rfl (hu.digits_le.trans (by omega))
  rw [hu.codeBytes_codedAt c] at hread
  exact ⟨u.codedAt c, hf, hload.andThen_answers <| (hu.takes_guardedHmac c).andThen_answers <|
    (hu.takes_codedAt c).append_answers hread⟩

end

/-- Settles O53: the load and the one HMAC leave the code of the current slice in CODE, which the reads answer; an
invalid secret faults before any HMAC. -/
theorem getCodeProgramComputesGetCode : Obligations.GetCodeProgramComputesGetCode := by
  intro s text time hinv hf hc ht
  have hl := hinv.cfgLegal hc
  cases hkey : decodeSecret text with
  | none =>
    obtain ⟨R, e⟩ := takes_getCodeProgram_of_none (time := time) hf ht hkey s.cfgAlg s.cfgDigits.toNat s.replies
    have hnone : getCode text time s.cfgPeriod s.cfgAlg s.cfgDigits.toNat = none := by
      rw [getCode, hkey, Option.bind_none]
    refine ⟨_, e, ?_⟩
    rw [CodeAnswered, hnone]
    refine ⟨rfl, rfl, rfl, fun a h1 h2 => ?_⟩
    exact Memory.read_writeBytes_outside _ _ _ _ (by simp only [Config.textBase]; omega)
  | some key =>
    obtain ⟨t, hft, hans⟩ := answers_getCodeProgram_of_some (time := time) hf hc hl ht hkey
    obtain ⟨R, e⟩ := hans s.replies
    refine ⟨_, e, ?_⟩
    rw [CodeAnswered, getCode_of_some hl hkey]
    exact ⟨hft, R, rfl⟩

end Sys2Proof.Machine
end

section
/-! PROOFS. MATCH stays hidden (R51): the block with another MATCH, what looks at it, and a run of it. -/

namespace Sys2Proof.Machine

/-! ## The same state with another MATCH -/

/-- The state with MATCH put to `b`. -/
def State.withMatch (b : Bool) (s : State) : State := { s with matchAcc := b }

section
variable (s : State) (b : Bool)

@[simp] theorem State.withMatch_winD : (s.withMatch b).winD = s.winD := rfl
@[simp] theorem State.withMatch_winI : (s.withMatch b).winI = s.winI := rfl
@[simp] theorem State.withMatch_strippedText : (s.withMatch b).strippedText = s.strippedText := rfl
@[simp] theorem State.withMatch_cfgAlg : (s.withMatch b).cfgAlg = s.cfgAlg := rfl
@[simp] theorem State.withMatch_taken : (s.withMatch b).taken = s.taken.withMatch b := rfl

/-- The access rights do not look at MATCH (R76). -/
@[simp] theorem busReject_withMatch (wr : Bool) (a n : Nat) :
    busReject (s.withMatch b) wr a n = busReject s wr a n := rfl

variable {s}

/-- RESULT shows MATCH only when it is final (R47). -/
theorem State.result_withMatch (h : s.resultValid = false) : (s.withMatch b).result = s.result := by
  rw [State.result_eq, State.result_eq, State.withMatch, h, if_neg Bool.false_ne_true, if_neg Bool.false_ne_true]

/-- No register shows MATCH before the result is final. -/
theorem State.readReg_withMatch (h : s.resultValid = false) (r : Reg) :
    (s.withMatch b).readReg r = s.readReg r := by
  cases r with
  | result => exact State.result_withMatch b h
  | cmd | status | errcode | errcmd | cfgDigits | cfgPeriod | cfgAlg | timeLo | timeHi | textLen | digestLen | candLen
  | keyLen | counterLo | counterHi | offset | value | codeval | codeLen | winD | winI | winBaseLo | winBaseHi => rfl

/-- No read transaction shows MATCH before the result is final. -/
theorem State.hostRead_withMatch (h : s.resultValid = false) (a n : Nat) :
    (s.withMatch b).hostRead a n = s.hostRead a n := by
  have hbyte : (s.withMatch b).hostByte a = s.hostByte a := by
    unfold State.hostByte; cases regionOf a <;> rfl
  simp only [State.hostRead, busReject_withMatch, hbyte, State.readReg_withMatch b h]

end

/-! ## Outcomes that differ in MATCH only -/

/-- Two results are next states that are the same but for MATCH. -/
def AlikeButMatch (r r' : Result) : Prop := ∃ t c, r = .next t ∧ r' = .next (t.withMatch c)

theorem AlikeButMatch.next (t : State) (c : Bool) : AlikeButMatch (.next t) (.next (t.withMatch c)) := ⟨t, c, rfl, rfl⟩

/-- A fault drops MATCH (R240). -/
theorem AlikeButMatch.raise (k : FaultKind) (w : Word) (s : State) (b : Bool) :
    AlikeButMatch (raise k w s) (raise k w (s.withMatch b)) := ⟨_, false, rfl, rfl⟩

/-- The guards of a command do not look at MATCH, so both runs take one branch. -/
theorem AlikeButMatch.ite {p : Prop} [Decidable p] {r₁ r₁' r₂ r₂' : Result} (h₁ : AlikeButMatch r₁ r₁')
    (h₂ : AlikeButMatch r₂ r₂') : AlikeButMatch (if p then r₁ else r₂) (if p then r₁' else r₂') := by
  split
  · exact h₁
  · exact h₂

section
variable (s : State) (b : Bool)

theorem storeCounter_alike (c : Int) (w : Word) :
    AlikeButMatch (storeCounter c w s) (storeCounter c w (s.withMatch b)) :=
  .ite (.next (s.withCounter _) b) (.raise ..)

theorem execB32dec_alike : AlikeButMatch (execB32dec s) (execB32dec (s.withMatch b)) := by
  refine .ite (.raise _ _ s.keyCleared b) ?_
  rw [State.withMatch_strippedText]
  cases b32Decode s.strippedText with
  | none => exact .raise _ _ s.keyCleared b
  | some out => exact .next (s.keyCleared.withKey out) b

theorem execDtrunc_alike : AlikeButMatch (execDtrunc s) (execDtrunc (s.withMatch b)) := by
  refine .ite (.raise _ _ s.valueCleared b) ?_
  rw [State.withMatch_cfgAlg]
  cases dlen s.cfgAlg with
  | none => exact .raise _ _ s.valueCleared b
  | some len => exact .ite (.raise _ _ s.valueCleared b) (.next (s.valueCleared.withValue _ _) b)

/-- The end of a CMPW looks at the offset and not at MATCH (R215). -/
theorem windowAdvanced_alike : AlikeButMatch (.next s.windowAdvanced) (.next (s.withMatch b).windowAdvanced) := by
  unfold State.windowAdvanced
  rw [State.withMatch_winI, State.withMatch_winD]
  split
  · exact .next s.windowClosed b
  · exact .next s.windowMoved b

/-- No command looks at MATCH, but for CMPW, which ORs into it (R211, R215). -/
theorem exec_alike (i : Instr) : AlikeButMatch (exec i s) (exec i (s.withMatch b)) := by
  cases i with
  | cfglock => exact .ite (.raise ..) (.ite (.next s.frozen b) (.raise ..))
  | clrerr => exact .next s.clearFault b
  | sreset => exact .next s.resetBlock false
  | b32dec => exact execB32dec_alike s b
  | dtrunc => exact execDtrunc_alike s b
  | modred => exact .ite (.raise _ _ s.codeCleared b) (.next (s.codeCleared.withCode _ _) b)
  | slice k => exact .ite (.raise _ _ s.msgCleared b) (storeCounter_alike s.msgCleared b _ _)
  | vbegin d =>
    exact .ite (.raise _ _ s.windowDropped false)
      (.ite (.raise _ _ s.windowDropped false) (.next (s.windowDropped.windowOpened d _) false))
  | slicew => exact .ite (.raise _ _ s.msgCleared b) (storeCounter_alike s.msgCleared b _ _)
  | cmp => exact .ite (.raise _ _ s.resultDropped false) (.next (s.resultDropped.withResult _) s.codeEqCand)
  | cmpw => exact .ite (.raise ..) (windowAdvanced_alike (s.accumulated s.codeEqCand) (b || s.codeEqCand))

/-! ## The port, a step and a run -/

theorem submit_alike (w : Word) : AlikeButMatch (submit w s) (submit w (s.withMatch b)) := by
  refine .ite (exec_alike s b _) (.ite (.ite (exec_alike s b _) (.next s b)) ?_)
  cases decodeWord w with
  | error => exact .raise ..
  | ok i => exact exec_alike s b i

theorem hostWrite_alike (a n : Nat) (d : Word) :
    AlikeButMatch (hostWrite a n d s) (hostWrite a n d (s.withMatch b)) := by
  unfold hostWrite
  rw [busReject_withMatch]
  cases busReject s true a n with
  | some => exact .next (s.answer _) b
  | none =>
    refine .ite (.next ((s.writeByte a _).answer _) b) ?_
    cases regAt a with
    | none => exact .next (s.answer _) b
    | some r =>
      cases r with
      | cmd => exact submit_alike (s.answer .ok) b d
      | status | errcode | errcmd | cfgDigits | cfgPeriod | cfgAlg | timeLo | timeHi | textLen | digestLen | candLen
      | keyLen | counterLo | counterHi | offset | value | codeval | codeLen | winD | winI | winBaseLo | winBaseHi
      | result => exact ⟨_, b, rfl, rfl⟩

/-- Before the result is final a step shows MATCH to nobody: a read of RESULT is the only operation that would. -/
theorem step_alike (h : s.resultValid = false) : AlikeButMatch (step s) (step (s.withMatch b)) := by
  cases hp : s.pending with
  | nil =>
    rw [step_of_empty hp, step_of_empty (by exact hp)]
    exact .next s b
  | cons op rest =>
    rw [step_of_pending hp, step_of_pending (s := s.withMatch b) hp, State.withMatch_taken]
    cases op with
    | read a n =>
      rw [perform_read, perform_read, State.hostRead_withMatch b (by exact h)]
      exact .next (s.taken.answer _) b
    | write a n d => exact hostWrite_alike s.taken b a n d
    | reset => exact .next s.taken.resetBlock false

end

/-- A run whose first step answers `u` is the run from `u` (Host/Core.lean). -/
theorem run_succ_of_step {s u : State} (h : step s = .next u) (n : Nat) :
    Host.Core.run Sys2Proof.core (n + 1) s = Host.Core.run Sys2Proof.core n u := by
  have hcore : Sys2Proof.core.step s = .next u := h
  simp only [Host.Core.run, hcore]

/-- Settles O48, by induction on the steps: each leaves the two runs alike but for MATCH, and every state before the
last shows no final result. -/
theorem matchStaysHidden : Obligations.MatchStaysHidden := by
  intro n
  induction n with
  | zero => intro s t b _ h; cases h; exact ⟨b, rfl⟩
  | succ n ih =>
    intro s t b ⟨hs, hnext⟩ h
    obtain ⟨u, c, hu, hu'⟩ := step_alike s b hs
    rw [run_succ_of_step hu] at h
    obtain ⟨c', h'⟩ := ih u t c (hnext u hu) h
    exact ⟨c', (run_succ_of_step hu' n).trans h'⟩

end Sys2Proof.Machine
end

section
/-! PROOFS. What a step can do, said once as a case list: what a command leaves when it completes and when it faults,
and the effect of each operation of the host. -/

namespace Sys2Proof.Machine

/-! ## A command -/

/-- R102 to R104: a word that decodes is the word of its command. -/
theorem encode_of_decodeWord {w : Word} {i : Instr} (h : decodeWord w = .ok i) : encode i = w := by
  unfold decodeWord at h
  split at h
  · cases h
  · next hrsv =>
    have hrsv : rsvField (encode i) = rsvField w := (rsvField_encode i).trans (not_ne_iff.1 hrsv).symm
    split at h
    · cases h
    · next j hrow =>
      split at h
      · cases h
      · next himm =>
        cases h
        obtain ⟨hop, ⟨_, hi, _⟩ | ⟨hf, _⟩⟩ := opcodeRow_cases hrow
        · exact word_ext hrsv ((immField_encode i).trans (hi.trans (not_ne_iff.1 himm).symm))
            ((opField_encode i).trans hop.symm)
        · cases hf
    · next j hrow =>
      cases h
      obtain ⟨hop, ⟨hf, _⟩ | ⟨_, rfl | rfl⟩⟩ := opcodeRow_cases hrow
      · cases hf
      · exact word_ext hrsv ((immField_encode _).trans (ofInt_sext16 _)) ((opField_encode _).trans hop.symm)
      · exact word_ext hrsv ((immField_encode _).trans (ofInt_sext16 _)) ((opField_encode _).trans hop.symm)

/-- The state after the first line of a command, which clears its destination valid flags (R240). -/
def State.afterFirstLine (i : Instr) (s : State) : State :=
  match i with
  | .b32dec => s.keyCleared
  | .dtrunc => s.valueCleared
  | .modred => s.codeCleared
  | .slice _ | .slicew => s.msgCleared
  | .vbegin _ => s.windowDropped
  | .cmp => s.resultDropped
  | .cfglock | .clrerr | .sreset | .cmpw => s

/-- What each command leaves when it ends without a fault, and when it does. -/
inductive Completes (s : State) : Instr → State → Prop
  | cfglock : s.cfgOk = false → s.cfgLegal = true → Completes s .cfglock s.frozen
  | clrerr : Completes s .clrerr s.clearFault
  | sreset : Completes s .sreset s.resetBlock
  | b32dec {out : List Byte} : s.textLen.toNat ≤ 128 → b32Decode s.strippedText = some out →
      Completes s .b32dec (s.keyCleared.withKey out)
  | dtrunc : s.cfgOk = true → dlen s.cfgAlg = some s.digestLen.toNat →
      Completes s .dtrunc (s.valueCleared.withValue ((truncOffset s.digestByte s.digestLen.toNat).setWidth 4)
        (truncValue s.digestByte s.digestLen.toNat))
  | modred : s.cfgOk = true → s.valueValid = true →
      Completes s .modred (s.codeCleared.withCode s.cfgDigits (s.value.toNat % 10 ^ s.cfgDigits.toNat))
  | slice {k : Int} : s.cfgOk = true → s.timeValid = true → 0 ≤ (s.slice : Int) + k → (s.slice : Int) + k < 2 ^ 64 →
      Completes s (.slice k) (s.msgCleared.withCounter (BitVec.ofInt 64 ((s.slice : Int) + k)))
  | vbegin {d : Int} : s.cfgOk = true → s.timeValid = true → 0 ≤ d →
      Completes s (.vbegin d) (s.windowDropped.windowOpened d (BitVec.ofNat 64 s.slice))
  | slicew : s.winActive = true → 0 ≤ (s.winBase.toNat : Int) + s.winI.toInt →
      (s.winBase.toNat : Int) + s.winI.toInt < 2 ^ 64 →
      Completes s .slicew (s.msgCleared.withCounter (BitVec.ofInt 64 ((s.winBase.toNat : Int) + s.winI.toInt)))
  | cmp : s.cfgOk = true → s.codeValid = true → s.winActive = false →
      Completes s .cmp (s.resultDropped.withResult s.codeEqCand)
  | cmpwCloses : s.winActive = true → s.codeValid = true → s.winI = s.winD →
      Completes s .cmpw (s.accumulated s.codeEqCand).windowClosed
  | cmpwMoves : s.winActive = true → s.codeValid = true → s.winI ≠ s.winD →
      Completes s .cmpw (s.accumulated s.codeEqCand).windowMoved

/-- A command completes, or its first line is followed by a fault that records its word (R240). -/
theorem exec_completes_or_faults {i : Instr} {s t : State} (h : exec i s = .next t) :
    Completes s i t ∨ ∃ k, t = (s.afterFirstLine i).faulted k (encode i) := by
  cases i with
  | cfglock =>
    rcases execCfglock_cases s with ⟨_, e⟩ | ⟨_, _, e⟩ | ⟨hc, hl, e⟩ <;> cases e.symm.trans h
    · exact .inr ⟨_, rfl⟩
    · exact .inr ⟨_, rfl⟩
    · exact .inl (.cfglock hc hl)
  | clrerr => cases h; exact .inl .clrerr
  | sreset => cases h; exact .inl .sreset
  | b32dec =>
    rcases execB32dec_cases s with ⟨_, e⟩ | ⟨_, _, e⟩ | ⟨out, hl, hd, e⟩ <;> cases e.symm.trans h
    · exact .inr ⟨_, rfl⟩
    · exact .inr ⟨_, rfl⟩
    · exact .inl (.b32dec hl hd)
  | dtrunc =>
    rcases execDtrunc_cases s with ⟨_, e⟩ | ⟨_, _, e⟩ | ⟨hc, hd, e⟩ <;> cases e.symm.trans h
    · exact .inr ⟨_, rfl⟩
    · exact .inr ⟨_, rfl⟩
    · exact .inl (.dtrunc hc hd)
  | modred =>
    rcases execModred_cases s with ⟨_, e⟩ | ⟨hc, hv, e⟩ <;> cases e.symm.trans h
    · exact .inr ⟨_, rfl⟩
    · exact .inl (.modred hc hv)
  | slice k =>
    rcases execSlice_cases k s with ⟨_, e⟩ | ⟨_, _, _, e⟩ | ⟨hc, ht, h0, h1, e⟩ <;> cases e.symm.trans h
    · exact .inr ⟨_, rfl⟩
    · exact .inr ⟨_, rfl⟩
    · exact .inl (.slice hc ht h0 h1)
  | vbegin d =>
    rcases execVbegin_cases d s with ⟨_, e⟩ | ⟨_, _, _, e⟩ | ⟨hc, ht, hd, e⟩ <;> cases e.symm.trans h
    · exact .inr ⟨_, rfl⟩
    · exact .inr ⟨_, rfl⟩
    · exact .inl (.vbegin hc ht hd)
  | slicew =>
    rcases execSlicew_cases s with ⟨_, e⟩ | ⟨_, _, e⟩ | ⟨hw, h0, h1, e⟩ <;> cases e.symm.trans h
    · exact .inr ⟨_, rfl⟩
    · exact .inr ⟨_, rfl⟩
    · exact .inl (.slicew hw h0 h1)
  | cmp =>
    rcases execCmp_cases s with ⟨_, e⟩ | ⟨hc, hv, hw, e⟩ <;> cases e.symm.trans h
    · exact .inr ⟨_, rfl⟩
    · exact .inl (.cmp hc hv hw)
  | cmpw =>
    rcases execCmpw_cases s with ⟨_, e⟩ | ⟨hw, hv, hi, e⟩ | ⟨hw, hv, hi, e⟩ <;> cases e.symm.trans h
    · exact .inr ⟨_, rfl⟩
    · exact .inl (.cmpwCloses hw hv hi)
    · exact .inl (.cmpwMoves hw hv hi)

/-! ## A step -/

/-- The state a command runs in: its operation is taken and answered Ok (R230). -/
def State.accepted (s : State) : State := s.taken.answer .ok

/-- What the host's next operation does to the block. -/
inductive StepEffect (s : State) : State → Prop
  /-- There is no operation (R251). -/
  | idle : s.pending = [] → StepEffect s s
  /-- A read, a rejected write, or a command word ignored under a fault: an answer only (R72, R77, R241). -/
  | answered {op : HostOp} {rest : List HostOp} (r : Reply) : s.pending = op :: rest → StepEffect s (s.taken.answer r)
  /-- The reset input or the word of SRESET (R138, R260). -/
  | reset (u : State) : s.resets → u = s.taken ∨ u = s.accepted → StepEffect s u.resetBlock
  /-- An accepted byte write (R73). -/
  | byte {a : Nat} {d : Word} {rest : List HostOp} : s.pending = .write a 1 d :: rest → (regionOf a).isBuf = true →
      rightReject s true (regionOf a).access = none → StepEffect s ((s.taken.writeByte a (d.setWidth 8)).answer .ok)
  /-- An accepted register write (R75). -/
  | register {a : Nat} {d : Word} {r : Reg} {rest : List HostOp} : s.pending = .write a 4 d :: rest →
      regAt a = some r → r ≠ .cmd → rightReject s true r.access = none →
      StepEffect s ((s.taken.writeReg r d).answer .ok)
  /-- The return from a fault (R242). -/
  | returns {rest : List HostOp} : s.fault = true → s.pending = commandOp 0x00000002 :: rest →
      StepEffect s s.accepted.clearFault
  /-- A word that is no command (R235). -/
  | illegal {w : Word} {rest : List HostOp} : s.fault = false → s.pending = commandOp w :: rest →
      StepEffect s (s.accepted.faulted .illegalCommand w)
  /-- A command other than SRESET faults (R240). -/
  | faults {i : Instr} (k : FaultKind) : s.issues i → i ≠ .sreset →
      StepEffect s ((s.accepted.afterFirstLine i).faulted k (encode i))
  /-- A command other than SRESET completes. -/
  | completes {i : Instr} {t : State} : s.issues i → i ≠ .sreset → Completes s.accepted i t → StepEffect s t

/-- Every step has one of these effects. -/
theorem step_effect {s t : State} (h : step s = .next t) : StepEffect s t := by
  rcases step_cases h with ⟨hp, rfl⟩ | ⟨op, rest, hp, ⟨r, _, rfl⟩ | ⟨rfl, rfl⟩ | ⟨a, d, rfl, hb, hr, rfl⟩ |
    ⟨a, d, r, rfl, ha, hc, hr, rfl⟩ | ⟨w, rfl, e⟩⟩
  · exact .idle hp
  · exact .answered r hp
  · exact .reset _ ⟨rest, .inl hp⟩ (.inl rfl)
  · exact .byte hp hb hr
  · exact .register hp ha hc hr
  · rcases submit_cases w (s.taken.answer .ok) with ⟨rfl, e'⟩ | ⟨hf, rfl, e'⟩ | ⟨_, _, _, e'⟩ | ⟨hf, _, _, e'⟩ |
      ⟨hf, h3, i, hd, e'⟩ <;> have e := e'.symm.trans e
    · cases e; exact .reset _ ⟨rest, .inr hp⟩ (.inr rfl)
    · cases e; exact .returns hf hp
    · cases e; exact .answered _ hp
    · cases e; exact .illegal hf hp
    · have hissue : s.issues i := ⟨hf, w, rest, hp, hd⟩
      have hi : i ≠ .sreset := by
        rintro rfl
        exact h3 ((encode_of_decodeWord hd).symm.trans encode_sreset)
      rcases exec_completes_or_faults e with hdone | ⟨k, rfl⟩
      · exact .completes hissue hi hdone
      · exact .faults k hissue hi

end Sys2Proof.Machine
end

section
/-! PROOFS. The flags of STATUS (R24): which a command sets and clears, and what a step does to each. -/

namespace Sys2Proof.Machine

/-! ## The nine flags -/

/-- The flags of R24, in the order of their bits. -/
inductive Flag where
  | cfgOk
  | timeValid
  | keyValid
  | msgValid
  | valueValid
  | codeValid
  | winActive
  | resultValid
  | fault

/-- The flag in a state. -/
def State.flag (s : State) (f : Flag) : Bool :=
  match f with
  | .cfgOk => s.cfgOk
  | .timeValid => s.timeValid
  | .keyValid => s.keyValid
  | .msgValid => s.msgValid
  | .valueValid => s.valueValid
  | .codeValid => s.codeValid
  | .winActive => s.winActive
  | .resultValid => s.resultValid
  | .fault => s.fault

/-- R24, the column "set by", for the commands. -/
def flagSetBy (i : Instr) : Option Flag :=
  match i with
  | .cfglock => some .cfgOk
  | .b32dec => some .keyValid
  | .dtrunc => some .valueValid
  | .modred => some .codeValid
  | .slice _ | .slicew => some .msgValid
  | .vbegin _ => some .winActive
  | .cmp | .cmpw => some .resultValid
  | .clrerr | .sreset => none

/-- Whether a command's first line clears the flag (R240). -/
def firstLineClears (i : Instr) (f : Flag) : Bool :=
  match i, f with
  | .b32dec, .keyValid | .dtrunc, .valueValid | .dtrunc, .codeValid | .modred, .codeValid | .slice _, .msgValid
  | .slicew, .msgValid | .vbegin _, .winActive | .vbegin _, .resultValid | .cmp, .resultValid => true
  | _, _ => false

/-- Whether the flag may be clear after a command other than SRESET has completed though it was set before: the code of
an earlier value, the result before a new window, what CMPW consumes, the fault CLRERR clears (R24). -/
def completionClears (i : Instr) (f : Flag) : Bool :=
  match i, f with
  | .clrerr, .fault | .dtrunc, .codeValid | .vbegin _, .resultValid | .cmpw, .valueValid | .cmpw, .codeValid
  | .cmpw, .winActive => true
  | _, _ => false

section
variable {s t : State} {i : Instr} {f : Flag}

@[simp] theorem State.flag_taken (s : State) (f : Flag) : s.taken.flag f = s.flag f := by cases f <;> rfl

@[simp] theorem State.flag_answer (s : State) (r : Reply) (f : Flag) : (s.answer r).flag f = s.flag f := by
  cases f <;> rfl

@[simp] theorem State.flag_accepted (s : State) (f : Flag) : s.accepted.flag f = s.flag f := by cases f <;> rfl

@[simp] theorem State.flag_writeByte (s : State) (a : Nat) (b : Byte) (f : Flag) :
    (s.writeByte a b).flag f = s.flag f := by
  cases f <;> rfl

theorem State.flag_resetBlock (s : State) (f : Flag) : s.resetBlock.flag f = false := by cases f <;> rfl

/-- CLRERR clears FAULT and no other flag (R135). -/
theorem State.flag_clearFault (s : State) (h : f ≠ .fault) : s.clearFault.flag f = s.flag f := by
  cases f with
  | fault => exact absurd rfl h
  | cfgOk | timeValid | keyValid | msgValid | valueValid | codeValid | winActive | resultValid => rfl

/-- A fault sets FAULT and no other flag (R240). -/
theorem State.flag_of_faulted {k : FaultKind} {w : Word} (hf : f ≠ .fault) (h : (s.faulted k w).flag f = true) :
    s.flag f = true := by
  cases f with
  | fault => exact absurd rfl hf
  | winActive | resultValid => cases h
  | cfgOk | timeValid | keyValid | msgValid | valueValid | codeValid => exact h

/-- A fault drops the window and the result and clears no other flag (R240). -/
theorem State.flag_faulted_of {k : FaultKind} {w : Word} (hf : f ≠ .winActive ∧ f ≠ .resultValid)
    (h : s.flag f = true) : (s.faulted k w).flag f = true := by
  cases f with
  | fault => rfl
  | winActive => exact absurd rfl hf.1
  | resultValid => exact absurd rfl hf.2
  | cfgOk | timeValid | keyValid | msgValid | valueValid | codeValid => exact h

/-- A first line sets no flag: it keeps each or clears it. -/
theorem State.flag_of_afterFirstLine (h : (s.afterFirstLine i).flag f = true) : s.flag f = true := by
  cases i <;> cases f <;> first | exact h | cases h

/-- A first line clears its flags and no other. -/
theorem State.flag_afterFirstLine_of (hf : firstLineClears i f = false) (h : s.flag f = true) :
    (s.afterFirstLine i).flag f = true := by
  cases i <;> cases f <;> first | exact h | cases hf

/-- Only the two halves of TIME change a flag by being written (R34). -/
theorem State.flag_writeReg {r : Reg} (h : f ≠ .timeValid ∨ (r ≠ .timeLo ∧ r ≠ .timeHi)) (s : State) (w : Word) :
    (s.writeReg r w).flag f = s.flag f := by
  cases r with
  | timeLo | timeHi => cases f <;> first | rfl | simp at h
  | _ => cases f <;> rfl

/-- A register write keeps the TMASK bits set before (R34). -/
theorem State.tmask_writeReg (s : State) (r : Reg) (w : Word) : (s.writeReg r w).tmask &&& s.tmask = s.tmask := by
  have hlo : ∀ m : BitVec 2, (m ||| 0b01) &&& m = m := by decide
  have hhi : ∀ m : BitVec 2, (m ||| 0b10) &&& m = m := by decide
  cases r with
  | timeLo => exact hlo _
  | timeHi => exact hhi _
  | _ => exact BitVec.and_self

/-- TIME_VALID is kept where the TMASK bits are. -/
theorem State.timeValid_of_tmask (h : t.tmask &&& s.tmask = s.tmask) (hs : s.timeValid = true) :
    t.timeValid = true := by
  have hm : ∀ m : BitVec 2, m &&& 0b11 = 0b11 → m = 0b11 := by decide
  simp only [State.timeValid, beq_iff_eq] at hs ⊢
  exact hm _ (by rwa [hs] at h)

/-- A command that completes sets no flag but the one of its row (R24): row by row, every other flag is kept or
cleared. -/
theorem Completes.flagSetBy_eq (h : Completes s i t) (h0 : s.flag f = false) (h1 : t.flag f = true) :
    flagSetBy i = some f := by
  cases h <;> cases f <;> first | rfl | exact absurd (h0.symm.trans h1) (by decide) | cases h1

/-- A command other than SRESET that completes clears no flag but those it consumes. -/
theorem Completes.flag_of_flag (h : Completes s i t) (hi : i ≠ .sreset) (hf : completionClears i f = false)
    (h0 : s.flag f = true) : t.flag f = true := by
  cases h <;> cases f <;> first | exact h0 | rfl | exact absurd rfl hi | cases hf

/-- A command that completes raises no FAULT. -/
theorem Completes.fault_eq (h : Completes s i t) (h0 : s.fault = false) : t.fault = false := by
  cases h <;> first | exact h0 | rfl

end

/-! ## What a step does to a flag -/

/-- The register at an address is the register of that number (R21). -/
theorem eq_of_regAt {a : Nat} {r : Reg} (h : regAt a = some r) : a = Config.regBase + 4 * r.number := by
  unfold regAt at h
  split at h
  · next hb =>
    have hn : (a - Config.regBase) / 4 = r.number := by
      unfold regOfNumber at h
      split at h <;> cases h <;> assumption
    simp only [Config.regBase] at hb hn ⊢
    omega
  · cases h

section
variable {s t : State} {f : Flag}

/-- The next operation writes a half of TIME (R34). -/
def State.writesTime (s : State) : Prop :=
  ∃ d rest, s.pending = .write 0x21C 4 d :: rest ∨ s.pending = .write 0x220 4 d :: rest

/-- R24, the column "set by". -/
theorem StepEffect.sets_flag (h : StepEffect s t) (h0 : s.flag f = false) (h1 : t.flag f = true) :
    (∃ i, s.issues i ∧ flagSetBy i = some f ∧ Completes s.accepted i t) ∨ (f = .timeValid ∧ s.writesTime) ∨
      (f = .fault ∧ ∃ w rest, s.pending = commandOp w :: rest) := by
  have hkept : t.flag f ≠ s.flag f := by rw [h0, h1]; decide
  cases h with
  | idle => exact absurd rfl hkept
  | answered => exact absurd (by simp) hkept
  | reset u => rw [State.flag_resetBlock] at h1; cases h1
  | byte => exact absurd (by simp) hkept
  | @register _ d r rest hp ha =>
    obtain rfl := eq_of_regAt ha
    by_cases hf : f = .timeValid
    · cases r with
      | timeLo => exact .inr (.inl ⟨hf, d, rest, .inl hp⟩)
      | timeHi => exact .inr (.inl ⟨hf, d, rest, .inr hp⟩)
      | _ => exact absurd (by simp [State.flag_writeReg]) hkept
    · exact absurd (by simp [State.flag_writeReg (.inl hf)]) hkept
  | returns =>
    by_cases hf : f = .fault
    · subst hf; cases h1
    · exact absurd (by rw [State.flag_clearFault _ hf, State.flag_accepted]) hkept
  | @illegal w rest _ hp =>
    by_cases hf : f = .fault
    · exact .inr (.inr ⟨hf, w, rest, hp⟩)
    · exact absurd ((State.flag_accepted s f).symm.trans (State.flag_of_faulted hf h1)) (by simp [h0])
  | @faults i k hissue =>
    by_cases hf : f = .fault
    · obtain ⟨_, w, rest, hp, _⟩ := hissue
      exact .inr (.inr ⟨hf, w, rest, hp⟩)
    · have hset := State.flag_of_afterFirstLine (State.flag_of_faulted hf h1)
      rw [State.flag_accepted, h0] at hset; cases hset
  | completes hissue _ hdone =>
    exact .inl ⟨_, hissue, hdone.flagSetBy_eq ((State.flag_accepted s f).trans h0) h1, hdone⟩

/-- R24, the column "cleared by". -/
theorem StepEffect.clears_flag (h : StepEffect s t) (h0 : s.flag f = true) (h1 : t.flag f = false) :
    s.resets ∨
      (∃ i, s.issues i ∧ firstLineClears i f = true ∧ t.fault = true) ∨
      (∃ i, s.issues i ∧ completionClears i f = true ∧ Completes s.accepted i t) ∨
      ((f = .winActive ∨ f = .resultValid) ∧ s.fault = false ∧ t.fault = true) ∨
      (f = .fault ∧ ∃ rest, s.pending = commandOp 0x00000002 :: rest) := by
  have hkept : t.flag f ≠ s.flag f := by rw [h0, h1]; decide
  have hacc : s.accepted.flag f = true := (State.flag_accepted s f).trans h0
  cases h with
  | idle => exact absurd rfl hkept
  | answered => exact absurd (by simp) hkept
  | reset u hr => exact .inl hr
  | byte => exact absurd (by simp) hkept
  | @register _ d r =>
    by_cases hf : f = .timeValid
    · subst hf
      have htime : (s.taken.writeReg r d).timeValid = true := State.timeValid_of_tmask (State.tmask_writeReg _ _ _) h0
      exact absurd (htime.symm.trans h1) (by decide)
    · exact absurd (by simp [State.flag_writeReg (.inl hf)]) hkept
  | returns _ hp =>
    by_cases hf : f = .fault
    · exact .inr (.inr (.inr (.inr ⟨hf, _, hp⟩)))
    · exact absurd (by rw [State.flag_clearFault _ hf, State.flag_accepted]) hkept
  | illegal hclean =>
    by_cases hf : f = .winActive ∨ f = .resultValid
    · exact .inr (.inr (.inr (.inl ⟨hf, hclean, rfl⟩)))
    · rw [State.flag_faulted_of (not_or.1 hf) hacc] at h1; cases h1
  | @faults i k hissue =>
    by_cases hf : f = .winActive ∨ f = .resultValid
    · exact .inr (.inr (.inr (.inl ⟨hf, hissue.1, rfl⟩)))
    · refine .inr (.inl ⟨i, hissue, eq_true_of_ne_false fun hfl => ?_, rfl⟩)
      rw [State.flag_faulted_of (not_or.1 hf) (State.flag_afterFirstLine_of hfl hacc)] at h1; cases h1
  | @completes i _ hissue hi hdone =>
    refine .inr (.inr (.inl ⟨i, hissue, eq_true_of_ne_false fun hfl => ?_, hdone⟩))
    rw [hdone.flag_of_flag hi hfl hacc] at h1; cases h1

/-- The same for the flags that a fault of another command keeps: besides a reset, only a command's own fault or its
completion clears them. -/
theorem StepEffect.clears_kept_flag (h : StepEffect s t) (hf : f ≠ .winActive ∧ f ≠ .resultValid ∧ f ≠ .fault)
    (h0 : s.flag f = true) (h1 : t.flag f = false) :
    s.resets ∨ ∃ i, s.issues i ∧
      (firstLineClears i f = true ∧ t.fault = true ∨ completionClears i f = true ∧ t.fault = false) := by
  obtain ⟨hw, hr, hfault⟩ := hf
  rcases h.clears_flag h0 h1 with hr | ⟨i, hi, hfl, ht⟩ | ⟨i, hi, hfl, hdone⟩ | ⟨hf | hf, _⟩ | ⟨hf, _⟩
  · exact .inl hr
  · exact .inr ⟨i, hi, .inl ⟨hfl, ht⟩⟩
  · exact .inr ⟨i, hi, .inr ⟨hfl, hdone.fault_eq hi.1⟩⟩
  · exact absurd hf hw
  · exact absurd hf hr
  · exact absurd hf hfault

end

/-! ## The obligations -/

/-- Settles O25: each clause looks its flag up in the table of the commands. -/
theorem flagsAreSetOnlyAsListed : Obligations.FlagsAreSetOnlyAsListed := by
  intro s t h
  have hset := fun f h0 h1 => (step_effect h).sets_flag (f := f) h0 h1
  refine ⟨fun h0 h1 => ?_, fun h0 h1 => ?_, fun h0 h1 => ?_, fun h0 h1 => ?_, fun h0 h1 => ?_, fun h0 h1 => ?_,
    fun h0 h1 => ?_, fun h0 h1 => ?_, fun h0 h1 => ?_⟩
  · obtain ⟨i, hi, hf, _⟩ | ⟨⟨⟩, _⟩ | ⟨⟨⟩, _⟩ := hset .cfgOk h0 h1
    cases i <;> cases hf; exact hi
  · obtain ⟨i, _, hf, _⟩ | ⟨_, htime⟩ | ⟨⟨⟩, _⟩ := hset .timeValid h0 h1
    · cases i <;> cases hf
    · exact htime
  · obtain ⟨i, hi, hf, _⟩ | ⟨⟨⟩, _⟩ | ⟨⟨⟩, _⟩ := hset .keyValid h0 h1
    cases i <;> cases hf; exact hi
  · obtain ⟨i, hi, hf, _⟩ | ⟨⟨⟩, _⟩ | ⟨⟨⟩, _⟩ := hset .msgValid h0 h1
    cases i <;> cases hf
    · exact .inr ⟨_, hi⟩
    · exact .inl hi
  · obtain ⟨i, hi, hf, _⟩ | ⟨⟨⟩, _⟩ | ⟨⟨⟩, _⟩ := hset .valueValid h0 h1
    cases i <;> cases hf; exact hi
  · obtain ⟨i, hi, hf, _⟩ | ⟨⟨⟩, _⟩ | ⟨⟨⟩, _⟩ := hset .codeValid h0 h1
    cases i <;> cases hf; exact hi
  · obtain ⟨i, hi, hf, _⟩ | ⟨⟨⟩, _⟩ | ⟨⟨⟩, _⟩ := hset .winActive h0 h1
    cases i <;> cases hf; exact ⟨_, hi⟩
  · obtain ⟨i, hi, hf, hdone⟩ | ⟨⟨⟩, _⟩ | ⟨⟨⟩, _⟩ := hset .resultValid h0 h1
    cases i <;> cases hf
    · exact .inl hi
    · cases hdone with
      | cmpwCloses hw _ hlast => exact .inr ⟨hi, hw, hlast⟩
      | cmpwMoves => exact absurd (h0.symm.trans h1) (by decide)
  · obtain ⟨i, _, hf, _⟩ | ⟨⟨⟩, _⟩ | ⟨_, hcmd⟩ := hset .fault h0 h1
    · cases i <;> cases hf
    · exact hcmd

/-- Settles O26: each clause looks its flag up in the tables of the commands. -/
theorem flagsAreClearedOnlyAsListed : Obligations.FlagsAreClearedOnlyAsListed := by
  intro s t h
  have hclear := fun f h0 h1 => (step_effect h).clears_flag (f := f) h0 h1
  have hkept := fun f hf h0 h1 => (step_effect h).clears_kept_flag (f := f) hf h0 h1
  refine ⟨fun h0 h1 => ?_, fun h0 h1 => ?_, fun h0 h1 => ?_, fun h0 h1 => ?_, fun h0 h1 => ?_, fun h0 h1 => ?_,
    fun h0 h1 => ?_, fun h0 h1 => ?_, fun h0 h1 => ?_⟩
  · obtain hr | ⟨i, _, ⟨hf, _⟩ | ⟨hf, _⟩⟩ := hkept .cfgOk ⟨nofun, nofun, nofun⟩ h0 h1
    · exact hr
    · cases i <;> cases hf
    · cases i <;> cases hf
  · obtain hr | ⟨i, _, ⟨hf, _⟩ | ⟨hf, _⟩⟩ := hkept .timeValid ⟨nofun, nofun, nofun⟩ h0 h1
    · exact hr
    · cases i <;> cases hf
    · cases i <;> cases hf
  · obtain hr | ⟨i, hi, ⟨hf, ht⟩ | ⟨hf, _⟩⟩ := hkept .keyValid ⟨nofun, nofun, nofun⟩ h0 h1
    · exact .inl hr
    · cases i <;> cases hf; exact .inr ⟨hi, ht⟩
    · cases i <;> cases hf
  · obtain hr | ⟨i, hi, ⟨hf, ht⟩ | ⟨hf, _⟩⟩ := hkept .msgValid ⟨nofun, nofun, nofun⟩ h0 h1
    · exact .inl hr
    · cases i <;> cases hf
      · exact .inr ⟨.inr ⟨_, hi⟩, ht⟩
      · exact .inr ⟨.inl hi, ht⟩
    · cases i <;> cases hf
  · obtain hr | ⟨i, hi, ⟨hf, ht⟩ | ⟨hf, ht⟩⟩ := hkept .valueValid ⟨nofun, nofun, nofun⟩ h0 h1
    · exact .inl hr
    · cases i <;> cases hf; exact .inr (.inl ⟨hi, ht⟩)
    · cases i <;> cases hf; exact .inr (.inr ⟨hi, ht⟩)
  · obtain hr | ⟨i, hi, ⟨hf, ht⟩ | ⟨hf, ht⟩⟩ := hkept .codeValid ⟨nofun, nofun, nofun⟩ h0 h1
    · exact .inl hr
    · cases i <;> cases hf
      · exact .inr (.inl hi)
      · exact .inr (.inr (.inl ⟨hi, ht⟩))
    · cases i <;> cases hf
      · exact .inr (.inl hi)
      · exact .inr (.inr (.inr ⟨hi, ht⟩))
  · obtain hr | ⟨i, hi, _, ht⟩ | ⟨i, hi, hf, hdone⟩ | ⟨_, hclean, ht⟩ | ⟨⟨⟩, _⟩ := hclear .winActive h0 h1
    · exact .inl hr
    · exact .inr (.inr ⟨hi.1, ht⟩)
    · cases i <;> cases hf
      cases hdone with
      | cmpwCloses _ _ hlast => exact .inr (.inl ⟨hi, hlast⟩)
      | cmpwMoves => exact absurd (h0.symm.trans h1) (by decide)
    · exact .inr (.inr ⟨hclean, ht⟩)
  · obtain hr | ⟨i, hi, _, ht⟩ | ⟨i, hi, hf, _⟩ | ⟨_, hclean, ht⟩ | ⟨⟨⟩, _⟩ := hclear .resultValid h0 h1
    · exact .inl hr
    · exact .inr (.inr ⟨hi.1, ht⟩)
    · cases i <;> cases hf; exact .inr (.inl ⟨_, hi⟩)
    · exact .inr (.inr ⟨hclean, ht⟩)
  · obtain hr | ⟨i, hi, _⟩ | ⟨i, hi, _⟩ | ⟨⟨⟨⟩⟩ | ⟨⟨⟩⟩, _⟩ | ⟨_, hcmd⟩ := hclear .fault h0 h1
    · exact .inl hr
    · exact absurd (hi.1.symm.trans h0) (by decide)
    · exact absurd (hi.1.symm.trans h0) (by decide)
    · exact .inr hcmd

end Sys2Proof.Machine
end

section
/-! PROOFS. What the host reads (R24, R47, R52, R75), and the state after reset (R60). -/

namespace Sys2Proof.Machine

/-! ## Reads -/

/-- R71: the first and the last address of each region, an empty range for the reserved rows, which are several. -/
def regionRange (g : Region) : Nat × Nat :=
  match g with
  | .text => (0x000, 0x07F)
  | .key => (0x080, 0x0CF)
  | .digest => (0x100, 0x13F)
  | .msg => (0x140, 0x147)
  | .code => (0x150, 0x15F)
  | .cand => (0x160, 0x16F)
  | .reg => (0x200, 0x25F)
  | .reserved => (1, 0)

/-- An address between them is of the region. -/
theorem regionOf_of_range {g : Region} {a : Nat} (h0 : (regionRange g).1 ≤ a) (h1 : a ≤ (regionRange g).2) :
    regionOf a = g := by
  cases g <;> simp only [regionRange] at h0 h1 <;> grind [regionOf]

/-- A word read of a register answers its word (R75). -/
theorem hostRead_number {r : Reg} (h : r ≠ .cmd) (s : State) :
    s.hostRead (Config.regBase + 4 * r.number) 4 = .word (s.readReg r) := by
  cases r with
  | cmd => exact absurd rfl h
  | _ => rfl

/-- A byte read of a region of BUF, gated by the flag of the region (R52, R73). -/
theorem hostRead_region {a : Nat} {g : Region} (hb : g.isBuf = true) (h0 : (regionRange g).1 ≤ a)
    (h1 : a ≤ (regionRange g).2) (s : State) :
    s.hostRead a 1 = .byte (if s.regionFlag g then s.buf.read a else 0x00) := by
  obtain rfl := regionOf_of_range h0 h1
  exact hostRead_byte hb s

/-- Bit `k` of STATUS (R24). -/
theorem State.getLsbD_status (s : State) (k : Nat) :
    s.status.getLsbD k =
      (s.cfgOk && decide (k = 0) || s.timeValid && decide (k = 1) || s.keyValid && decide (k = 2) ||
        s.msgValid && decide (k = 3) || s.valueValid && decide (k = 4) || s.codeValid && decide (k = 5) ||
        s.winActive && decide (k = 6) || s.resultValid && decide (k = 7) || s.fault && decide (k = 8)) := by
  simp [State.status, BitVec.getLsbD_or, flagBit_getLsbD]

/-- Settles O21, region by region and register by register. -/
theorem gatedOutputsRead : Obligations.GatedOutputsRead := by
  intro s a
  refine ⟨fun h => ?_, fun h h' => ?_, fun h h' => ?_, fun h h' => ?_, fun h h' => ?_, fun h h' => ?_, ?_⟩
  · exact hostRead_region (g := .text) rfl (Nat.zero_le a) h s
  · exact hostRead_region (g := .key) rfl h h' s
  · exact hostRead_region (g := .digest) rfl h h' s
  · exact hostRead_region (g := .msg) rfl h h' s
  · exact hostRead_region (g := .code) rfl h h' s
  · exact hostRead_region (g := .cand) rfl h h' s
  · exact ⟨hostRead_number (r := .keyLen) nofun s, hostRead_number (r := .counterLo) nofun s,
      hostRead_number (r := .counterHi) nofun s, hostRead_number (r := .offset) nofun s,
      hostRead_number (r := .value) nofun s, hostRead_number (r := .codeval) nofun s,
      hostRead_number (r := .codeLen) nofun s⟩

/-- Settles O22, register by register. -/
theorem ungatedRegistersRead : Obligations.UngatedRegistersRead := by
  intro s
  exact ⟨hostRead_number (r := .errcode) nofun s, hostRead_number (r := .errcmd) nofun s,
    hostRead_number (r := .cfgDigits) nofun s, hostRead_number (r := .cfgPeriod) nofun s,
    hostRead_number (r := .cfgAlg) nofun s, hostRead_number (r := .timeLo) nofun s,
    hostRead_number (r := .timeHi) nofun s, hostRead_number (r := .textLen) nofun s,
    hostRead_number (r := .digestLen) nofun s, hostRead_number (r := .candLen) nofun s,
    hostRead_number (r := .winD) nofun s, hostRead_number (r := .winI) nofun s,
    hostRead_number (r := .winBaseLo) nofun s, hostRead_number (r := .winBaseHi) nofun s⟩

/-- Settles O23, by the bits of STATUS. -/
theorem statusBits : Obligations.StatusBits := by
  intro s
  refine ⟨s.status, hostRead_number (r := .status) nofun s, ?_⟩
  simp only [State.getLsbD_status]
  refine ⟨by simp, by simp [State.timeValid], by simp, by simp, by simp, by simp, by simp, by simp, by simp,
    fun n hn => ?_⟩
  have hne : ∀ k, k < 9 → n ≠ k := fun k hk => by omega
  simp [hne]

/-- Settles O24, by the three readings of RESULT. -/
theorem resultRegister : Obligations.ResultRegister := by
  refine ⟨fun s => ⟨s.result, hostRead_number (r := .result) nofun s, ?_⟩, hostRead_number (r := .result) nofun _⟩
  rw [State.result_eq]
  refine ⟨fun h => by simp [h], fun h hm => by simp [h, hm], fun h hm => by simp [h, hm], ?_⟩
  split
  · split <;> decide
  · decide

/-! ## After reset -/

/-- Settles O1: each element by the reset table; no byte of BUF is listed. -/
theorem resetValues : Obligations.ResetValues :=
  ⟨by decide, rfl, rfl, rfl, rfl, rfl, rfl, rfl, rfl, rfl, rfl, rfl, rfl, rfl, rfl, rfl, rfl, rfl, rfl, rfl, rfl, rfl,
    rfl, rfl, by decide, Memory.read_nil⟩

/-- Settles O46: each part of the invariant by evaluation of the one state. -/
theorem resetMeetsTheInvariant : Obligations.ResetMeetsTheInvariant where
  buf := by decide
  cfg := by decide
  fault := by decide
  key := by decide
  msg := by decide
  code := by decide
  window := by decide

end Sys2Proof.Machine
end

section
/-! PROOFS. What stands still: the recorded fault, a frozen configuration, the candidate of a window, TMASK. -/

namespace Sys2Proof.Machine

/-! ## What no command writes -/

/-- The registers the host writes, and TMASK, are the same in both states. -/
structure SameHostRegs (s t : State) : Prop where
  cfgDigits : t.cfgDigits = s.cfgDigits
  cfgPeriod : t.cfgPeriod = s.cfgPeriod
  cfgAlg : t.cfgAlg = s.cfgAlg
  timeLo : t.timeLo = s.timeLo
  timeHi : t.timeHi = s.timeHi
  tmask : t.tmask = s.tmask
  textLen : t.textLen = s.textLen
  digestLen : t.digestLen = s.digestLen
  candLen : t.candLen = s.candLen

section
variable {s t : State} {i : Instr}

/-- A command other than SRESET that completes writes no register of the host. -/
theorem Completes.sameHostRegs (h : Completes s i t) (hi : i ≠ .sreset) : SameHostRegs s t := by
  cases h with
  | sreset => exact absurd rfl hi
  | cfglock | clrerr | b32dec | dtrunc | modred | slice | vbegin | slicew | cmp | cmpwCloses | cmpwMoves =>
    exact ⟨rfl, rfl, rfl, rfl, rfl, rfl, rfl, rfl, rfl⟩

/-- Nor does one that faults (R240). -/
theorem sameHostRegs_faulted_afterFirstLine (s : State) (i : Instr) (k : FaultKind) (w : Word) :
    SameHostRegs s ((s.afterFirstLine i).faulted k w) := by
  cases i <;> exact ⟨rfl, rfl, rfl, rfl, rfl, rfl, rfl, rfl, rfl⟩

/-- A command that faults writes no byte of BUF (R240). -/
theorem buf_faulted_afterFirstLine (s : State) (i : Instr) (k : FaultKind) (w : Word) :
    ((s.afterFirstLine i).faulted k w).buf = s.buf := by
  cases i <;> rfl

/-- R154: B32DEC never decodes more than KEY holds. -/
theorem length_b32Decode_strippedText_le {out : List Byte} (hl : s.textLen.toNat ≤ 128)
    (hd : b32Decode s.strippedText = some out) : out.length ≤ Config.keyMax := by
  have hbits := length_b32Decode_le hd
  have hlen := strippedLen_le s.textByte s.textLen.toNat
  rw [State.strippedText, List.length_map, List.length_range] at hbits
  simp only [Config.keyMax]
  omega

/-- A command other than SRESET writes KEY, MSG and CODE only: TEXT, DIGEST and CAND are the host's (R53). -/
theorem Completes.read_of_host (h : Completes s i t) (hi : i ≠ .sreset) {a : Nat}
    (ha : a < 0x080 ∨ 0x100 ≤ a ∧ a < 0x140 ∨ 0x160 ≤ a) : t.buf.read a = s.buf.read a := by
  cases h with
  | sreset => exact absurd rfl hi
  | cfglock | clrerr | dtrunc | vbegin | cmp | cmpwCloses | cmpwMoves => rfl
  | b32dec hl hd =>
    have hlen := length_b32Decode_strippedText_le hl hd
    refine Memory.read_writeBytes_outside _ _ _ _ ?_
    rw [length_zeroFill]
    simp only [Config.keyMax, Config.keyBase] at hlen ⊢
    omega
  | modred =>
    refine Memory.read_writeBytes_outside _ _ _ _ ?_
    rw [length_codeText]
    simp only [Config.codeBase]
    omega
  | slice | slicew =>
    refine Memory.read_writeBytes_outside _ _ _ _ ?_
    rw [length_be64]
    simp only [Config.msgBase]
    omega

/-! ## The locks of the port (R76) -/

/-- An accepted write is not one to a configuration register of a frozen block (R76 case 8). -/
theorem ne_cfgLocked_of_accepted {acc : Access} (hc : s.cfgOk = true) (h : rightReject s true acc = none) :
    acc ≠ .cfgLocked := by
  rintro rfl
  simp [rightReject, hc] at h

/-- An accepted write is not one to the candidate of an open window (R76 case 9). -/
theorem ne_winLocked_of_accepted {acc : Access} (hw : s.winActive = true) (h : rightReject s true acc = none) :
    acc ≠ .winLocked := by
  rintro rfl
  simp [rightReject, hw] at h

/-- The configuration registers are the locked ones (R21, R33). -/
theorem State.config_writeReg {r : Reg} (h : r.access ≠ .cfgLocked) (s : State) (w : Word) :
    (s.writeReg r w).cfgDigits = s.cfgDigits ∧ (s.writeReg r w).cfgPeriod = s.cfgPeriod ∧
      (s.writeReg r w).cfgAlg = s.cfgAlg := by
  cases r with
  | cfgDigits | cfgPeriod | cfgAlg => exact absurd rfl h
  | _ => exact ⟨rfl, rfl, rfl⟩

/-- CAND_LEN is locked (R21, R37). -/
theorem State.candLen_writeReg {r : Reg} (h : r.access ≠ .winLocked) (s : State) (w : Word) :
    (s.writeReg r w).candLen = s.candLen := by
  cases r with
  | candLen => exact absurd rfl h
  | _ => rfl

/-- A register write writes no byte of BUF. -/
theorem State.buf_writeReg (s : State) (r : Reg) (w : Word) : (s.writeReg r w).buf = s.buf := by cases r <;> rfl

/-- ERRCODE and ERRCMD are read only (R21). -/
theorem State.errors_writeReg (s : State) (r : Reg) (w : Word) :
    (s.writeReg r w).errCode = s.errCode ∧ (s.writeReg r w).errCmd = s.errCmd := by
  cases r <;> exact ⟨rfl, rfl⟩

end

/-! ## The obligations -/

/-- Settles O10: with FAULT = 1 no command runs but the two that clear FAULT. -/
theorem firstFaultIsKept : Obligations.FirstFaultIsKept := by
  intro s t hs h ht
  cases step_effect h with
  | idle | answered | byte => simp
  | @register _ d r => exact s.taken.errors_writeReg r d
  | reset | returns => cases ht
  | illegal hf => exact absurd (hs.symm.trans hf) (by decide)
  | faults _ hissue | completes hissue => exact absurd (hs.symm.trans hissue.1) (by decide)

/-- Settles O27: the port refuses the writes, no command writes the configuration, and only a reset clears CFG_OK. -/
theorem frozenConfigurationStays : Obligations.FrozenConfigurationStays := by
  intro s t hs h hr
  have hcfgOk : t.cfgOk = true := eq_true_of_ne_false fun ht => hr ((flagsAreClearedOnlyAsListed s t h).1 hs ht)
  refine ⟨hcfgOk, ?_⟩
  cases step_effect h with
  | idle | answered | byte | returns | illegal => simp [State.accepted]
  | reset _ h' => exact absurd h' hr
  | @register _ d _ _ _ _ _ hright => exact State.config_writeReg (ne_cfgLocked_of_accepted hs hright) s.taken d
  | @faults i k =>
    have hsame := sameHostRegs_faulted_afterFirstLine s.accepted i k (encode i)
    exact ⟨hsame.cfgDigits, hsame.cfgPeriod, hsame.cfgAlg⟩
  | completes _ hi hdone =>
    have hsame := hdone.sameHostRegs hi
    exact ⟨hsame.cfgDigits, hsame.cfgPeriod, hsame.cfgAlg⟩

/-- Settles O28: the port refuses the writes, and no command writes CAND or CAND_LEN. -/
theorem candidateStaysInWindow : Obligations.CandidateStaysInWindow := by
  intro s t hs h hr
  cases step_effect h with
  | idle | answered | returns | illegal => simp [State.accepted]
  | reset _ h' => exact absurd h' hr
  | @byte b d _ _ _ hright =>
    refine ⟨rfl, fun a h0 h1 => Memory.read_write_ne _ _ ?_⟩
    rintro rfl
    rw [regionOf_of_range (g := .cand) h0 h1] at hright
    exact ne_winLocked_of_accepted hs hright rfl
  | @register _ d r _ _ _ _ hright =>
    exact ⟨State.candLen_writeReg (ne_winLocked_of_accepted hs hright) s.taken d, fun a _ _ =>
      congrArg (Memory.read · a) (State.buf_writeReg s.taken r d)⟩
  | @faults i k =>
    exact ⟨(sameHostRegs_faulted_afterFirstLine s.accepted i k (encode i)).candLen, fun a _ _ =>
      congrArg (Memory.read · a) (buf_faulted_afterFirstLine s.accepted i k (encode i))⟩
  | completes _ hi hdone =>
    exact ⟨(hdone.sameHostRegs hi).candLen, fun a h0 _ => hdone.read_of_host hi (.inr (.inr h0))⟩

/-- Settles O29: the writes of TIME only add bits, and no command writes TMASK. -/
theorem tmaskOnlyGrows : Obligations.TmaskOnlyGrows := by
  intro s t h hr
  have hsame : ∀ {u : State}, u.tmask = s.tmask → u.tmask &&& s.tmask = s.tmask := fun e => by rw [e, BitVec.and_self]
  cases step_effect h with
  | idle | answered | byte | returns | illegal => exact hsame (by simp [State.accepted])
  | reset _ h' => exact absurd h' hr
  | @register _ d r => exact s.taken.tmask_writeReg r d
  | @faults i k => exact hsame (sameHostRegs_faulted_afterFirstLine s.accepted i k (encode i)).tmask
  | completes _ hi hdone => exact hsame (hdone.sameHostRegs hi).tmask

end Sys2Proof.Machine
end

section
/-! PROOFS. The transactions of the host (R72 to R77): which are accepted, what the port answers, what an accepted write
stores. -/

namespace Sys2Proof.Machine

section
variable {s : State} {wr : Bool} {a n : Nat}

/-! ## Which transactions are accepted (R76) -/

/-- The configuration can be written until it is frozen (R76 case 8). -/
theorem rightReject_cfgLocked (h : s.cfgOk = false) : rightReject s true .cfgLocked = none := by
  simp [rightReject, h]

/-- The candidate can be written outside a window (R76 case 9). -/
theorem rightReject_winLocked (h : s.winActive = false) : rightReject s true .winLocked = none := by
  simp [rightReject, h]

/-- An address of a region lies between its ends (R71). -/
theorem range_of_regionOf {g : Region} (h : regionOf a = g) (hg : g ≠ .reserved) :
    (regionRange g).1 ≤ a ∧ a ≤ (regionRange g).2 := by
  subst h
  unfold regionOf at hg ⊢
  (repeat' split) <;> simp_all [regionRange] <;> omega

/-- The registers stand at the aligned addresses of their region (R21). -/
theorem exists_regAt_iff : (∃ r, regAt a = some r) ↔ 0x200 ≤ a ∧ a ≤ 0x25F ∧ a % 4 = 0 := by
  constructor
  · rintro ⟨r, h⟩
    have hn : r.number < 24 := by cases r <;> decide
    rw [eq_of_regAt h, Config.regBase]
    omega
  · rintro ⟨h0, h1, h4⟩
    have hsome : ∀ k < 24, (regOfNumber k).isSome = true := by decide
    rw [regAt, if_pos ⟨h0, h4⟩]
    exact Option.isSome_iff_exists.1 (hsome _ (by rw [Config.regBase]; omega))

/-- A byte access is accepted at a place of BUF with the right to it. -/
theorem busReject_byte_eq_none_iff :
    busReject s wr a 1 = none ↔ (regionOf a).isBuf = true ∧ rightReject s wr (regionOf a).access = none := by
  refine ⟨busReject_byte, fun ⟨hb, hr⟩ => ?_⟩
  have hlt := isBuf_lt hb
  have hres : regionOf a ≠ .reserved := by intro e; rw [e] at hb; cases hb
  simp [busReject, show ¬ 0x3FF < a by omega, hres, hb, hr]

/-- A word access is accepted at a register with the right to it. -/
theorem busReject_word_eq_none_iff :
    busReject s wr a 4 = none ↔ ∃ r, regAt a = some r ∧ rightReject s wr r.access = none := by
  refine ⟨busReject_word (by decide), fun ⟨r, ha, hr⟩ => ?_⟩
  rw [eq_of_regAt ha]
  revert hr
  cases r <;> exact id

/-- Every byte of BUF can be read (R71). -/
theorem byteRead_accepted_iff :
    busReject s false a 1 = none ↔ a ≤ 0x0CF ∨ (0x100 ≤ a ∧ a ≤ 0x147) ∨ (0x150 ≤ a ∧ a ≤ 0x16F) := by
  rw [busReject_byte_eq_none_iff]
  have hright : ∀ g : Region, rightReject s false g.access = none := by intro g; cases g <;> rfl
  simp only [hright, and_true]
  unfold regionOf
  (repeat' split) <;> simp [Region.isBuf] <;> omega

/-- The host writes TEXT, DIGEST, and CAND outside a window (R71). -/
theorem byteWrite_accepted_iff :
    busReject s true a 1 = none ↔
      a ≤ 0x07F ∨ (0x100 ≤ a ∧ a ≤ 0x13F) ∨ (0x160 ≤ a ∧ a ≤ 0x16F ∧ s.winActive = false) := by
  rw [busReject_byte_eq_none_iff]
  constructor
  · rintro ⟨hb, hr⟩
    cases hg : regionOf a with rw [hg] at hb hr
    | text => exact .inl (range_of_regionOf hg nofun).2
    | digest => exact .inr (.inl (range_of_regionOf hg nofun))
    | cand =>
      obtain ⟨h0, h1⟩ := range_of_regionOf hg nofun
      exact .inr (.inr ⟨h0, h1, by simpa [Region.access, rightReject] using hr⟩)
    | key | msg | code => exact absurd hr nofun
    | reg | reserved => exact absurd hb nofun
  · rintro (h | ⟨h0, h1⟩ | ⟨h0, h1, hw⟩)
    · rw [regionOf_of_range (g := .text) (Nat.zero_le a) h]
      exact ⟨rfl, rfl⟩
    · rw [regionOf_of_range (g := .digest) h0 h1]
      exact ⟨rfl, rfl⟩
    · rw [regionOf_of_range (g := .cand) h0 h1]
      exact ⟨rfl, rightReject_winLocked hw⟩

/-- Every register but CMD can be read (R21). -/
theorem wordRead_accepted_iff : busReject s false a 4 = none ↔ 0x204 ≤ a ∧ a ≤ 0x25F ∧ a % 4 = 0 := by
  have hright : ∀ r : Reg, rightReject s false r.access = none ↔ 1 ≤ r.number := by
    intro r; cases r <;> simp [rightReject, Reg.access, Reg.number]
  simp only [busReject_word_eq_none_iff, hright]
  constructor
  · rintro ⟨r, ha, hr⟩
    have hplace := exists_regAt_iff.1 ⟨r, ha⟩
    have haddr := eq_of_regAt ha
    rw [Config.regBase] at haddr
    omega
  · rintro ⟨h0, h1, h4⟩
    obtain ⟨r, ha⟩ := exists_regAt_iff.2 ⟨by omega, h1, h4⟩
    have haddr := eq_of_regAt ha
    rw [Config.regBase] at haddr
    exact ⟨r, ha, by omega⟩

/-- The host writes CMD, TIME, TEXT_LEN and DIGEST_LEN, the configuration until it is frozen, and CAND_LEN outside a
window (R21). -/
theorem wordWrite_accepted_iff :
    busReject s true a 4 = none ↔
      a ∈ [0x200, 0x21C, 0x220, 0x224, 0x228] ∨ (s.cfgOk = false ∧ a ∈ [0x210, 0x214, 0x218]) ∨
        (s.winActive = false ∧ a = 0x22C) := by
  rw [busReject_word_eq_none_iff]
  constructor
  · rintro ⟨r, ha, hr⟩
    rw [eq_of_regAt ha]
    cases r <;> simp_all [rightReject, Reg.access, Reg.number, Config.regBase]
  · intro h
    simp only [List.mem_cons, List.not_mem_nil, or_false] at h
    rcases h with (rfl | rfl | rfl | rfl | rfl) | ⟨hc, rfl | rfl | rfl⟩ | ⟨hw, rfl⟩
    iterate 5 exact ⟨_, rfl, rfl⟩
    iterate 3 exact ⟨_, rfl, rightReject_cfgLocked hc⟩
    exact ⟨_, rfl, rightReject_winLocked hw⟩

/-- R76 for reads, case by case. -/
theorem busReject_read_ne_none_iff :
    busReject s false a n ≠ none ↔
      (n ≠ 1 ∧ n ≠ 4) ∨ a > 0x3FF ∨
      ((0x0D0 ≤ a ∧ a ≤ 0x0FF) ∨ (0x148 ≤ a ∧ a ≤ 0x14F) ∨ (0x170 ≤ a ∧ a ≤ 0x1FF) ∨ (0x260 ≤ a ∧ a ≤ 0x3FF)) ∨
      ((a ≤ 0x1FF ∧ n = 4) ∨ (0x200 ≤ a ∧ a ≤ 0x25F ∧ n = 1)) ∨
      (0x200 ≤ a ∧ a ≤ 0x25F ∧ a % 4 ≠ 0) ∨ a = 0x200 := by
  by_cases hn : n = 1 ∨ n = 4
  · rcases hn with rfl | rfl
    · rw [ne_eq, byteRead_accepted_iff]; omega
    · rw [ne_eq, wordRead_accepted_iff]; omega
  · have hrej : busReject s false a n ≠ none := fun h => hn (busReject_size h)
    exact iff_of_true hrej (.inl (not_or.1 hn))

/-- R76 for writes, case by case. -/
theorem busReject_write_ne_none_iff :
    busReject s true a n ≠ none ↔
      (n ≠ 1 ∧ n ≠ 4) ∨ a > 0x3FF ∨
      ((0x0D0 ≤ a ∧ a ≤ 0x0FF) ∨ (0x148 ≤ a ∧ a ≤ 0x14F) ∨ (0x170 ≤ a ∧ a ≤ 0x1FF) ∨ (0x260 ≤ a ∧ a ≤ 0x3FF)) ∨
      ((a ≤ 0x1FF ∧ n = 4) ∨ (0x200 ≤ a ∧ a ≤ 0x25F ∧ n = 1)) ∨
      (0x200 ≤ a ∧ a ≤ 0x25F ∧ a % 4 ≠ 0) ∨
      ((0x080 ≤ a ∧ a ≤ 0x0CF) ∨ (0x140 ≤ a ∧ a ≤ 0x147) ∨ (0x150 ≤ a ∧ a ≤ 0x15F) ∨
        a ∈ [0x204, 0x208, 0x20C] ∨ (0x230 ≤ a ∧ a ≤ 0x25F)) ∨
      (s.cfgOk = true ∧ a ∈ [0x210, 0x214, 0x218]) ∨
      (s.winActive = true ∧ (a = 0x22C ∨ (0x160 ≤ a ∧ a ≤ 0x16F))) := by
  by_cases hn : n = 1 ∨ n = 4
  · rcases hn with rfl | rfl
    · rw [ne_eq, byteWrite_accepted_iff]
      cases s.winActive <;> simp <;> omega
    · rw [ne_eq, wordWrite_accepted_iff]
      cases s.winActive <;> cases s.cfgOk <;> simp <;> omega
  · have hrej : busReject s true a n ≠ none := fun h => hn (busReject_size h)
    exact iff_of_true hrej (.inl (not_or.1 hn))

end

/-! ## What the port answers (R72, R230) -/

/-- Every command answers a next state (R276). -/
theorem exec_eq_next (i : Instr) (s : State) : ∃ t, exec i s = .next t := by
  cases i with
  | cfglock => rcases execCfglock_cases s with ⟨_, e⟩ | ⟨_, _, e⟩ | ⟨_, _, e⟩ <;> exact ⟨_, e⟩
  | clrerr | sreset => exact ⟨_, rfl⟩
  | b32dec => rcases execB32dec_cases s with ⟨_, e⟩ | ⟨_, _, e⟩ | ⟨_, _, _, e⟩ <;> exact ⟨_, e⟩
  | dtrunc => rcases execDtrunc_cases s with ⟨_, e⟩ | ⟨_, _, e⟩ | ⟨_, _, e⟩ <;> exact ⟨_, e⟩
  | modred => rcases execModred_cases s with ⟨_, e⟩ | ⟨_, _, e⟩ <;> exact ⟨_, e⟩
  | slice k => rcases execSlice_cases k s with ⟨_, e⟩ | ⟨_, _, _, e⟩ | ⟨_, _, _, _, e⟩ <;> exact ⟨_, e⟩
  | vbegin d => rcases execVbegin_cases d s with ⟨_, e⟩ | ⟨_, _, _, e⟩ | ⟨_, _, _, e⟩ <;> exact ⟨_, e⟩
  | slicew => rcases execSlicew_cases s with ⟨_, e⟩ | ⟨_, _, e⟩ | ⟨_, _, _, e⟩ <;> exact ⟨_, e⟩
  | cmp => rcases execCmp_cases s with ⟨_, e⟩ | ⟨_, _, _, e⟩ <;> exact ⟨_, e⟩
  | cmpw => rcases execCmpw_cases s with ⟨_, e⟩ | ⟨_, _, _, e⟩ | ⟨_, _, _, e⟩ <;> exact ⟨_, e⟩

/-- A command word is run to a next state, and what the port has replied stays. -/
theorem submit_eq_next (w : Word) (s : State) : ∃ t, submit w s = .next t ∧ t.replies = s.replies := by
  rcases submit_cases w s with ⟨_, e⟩ | ⟨_, _, e⟩ | ⟨_, _, _, e⟩ | ⟨_, _, _, e⟩ | ⟨_, _, i, _, e⟩
  iterate 4 exact ⟨_, e, rfl⟩
  obtain ⟨t, ht⟩ := exec_eq_next i s
  exact ⟨t, e.trans ht, (exec_keeps_host i ht).2⟩

/-- A read is answered BusError exactly when R76 rejects it. -/
theorem hostRead_eq_busError_iff (s : State) (a n : Nat) :
    s.hostRead a n = .busError ↔ busReject s false a n ≠ none := by
  unfold State.hostRead
  split
  · next h => simp [h]
  · next h =>
    by_cases hn : n = 1
    · simp [hn ▸ h, hn]
    · obtain ⟨r, hr, _⟩ := busReject_word hn h
      simp [hn, hr, h]

/-- A rejected write changes nothing (R72). -/
theorem hostWrite_of_rejected {s : State} {a n : Nat} (h : busReject s true a n ≠ none) (d : Word) :
    hostWrite a n d s = .next (s.answer .busError) := by
  obtain ⟨c, hc⟩ := Option.ne_none_iff_exists'.1 h
  simp [hostWrite, hc]

/-- An accepted byte write stores the low byte of its data (R73). -/
theorem hostWrite_byte {s : State} {a : Nat} (h : busReject s true a 1 = none) (d : Word) :
    hostWrite a 1 d s = .next ((s.writeByte a (d.setWidth 8)).answer .ok) := by
  simp [hostWrite, h]

/-- An accepted word write to a register other than CMD stores its word (R75). -/
theorem hostWrite_register {s : State} {a : Nat} {r : Reg} (ha : regAt a = some r) (hc : r ≠ .cmd)
    (hr : rightReject s true r.access = none) (d : Word) :
    hostWrite a 4 d s = .next ((s.writeReg r d).answer .ok) := by
  rw [eq_of_regAt ha]
  exact ask_wr hc hr d

/-- A register write leaves the replies alone. -/
theorem State.replies_writeReg (s : State) (r : Reg) (w : Word) : (s.writeReg r w).replies = s.replies := by
  cases r <;> rfl

/-- An accepted write is answered Ok, also when it is a command that faults (R230). -/
theorem hostWrite_of_accepted {s : State} {a n : Nat} (h : busReject s true a n = none) (d : Word) :
    ∃ t, hostWrite a n d s = .next t ∧ t.replies = s.replies ++ [.ok] := by
  rcases busReject_size h with rfl | rfl
  · exact ⟨_, hostWrite_byte h d, rfl⟩
  · obtain ⟨r, ha, hright⟩ := busReject_word_eq_none_iff.1 h
    by_cases hc : r = .cmd
    · obtain ⟨t, ht, hreplies⟩ := submit_eq_next d (s.answer .ok)
      obtain rfl := regAt_cmd (hc ▸ ha)
      exact ⟨t, (hostWrite_command d s).trans ht, hreplies⟩
    · refine ⟨_, hostWrite_register ha hc hright d, ?_⟩
      rw [State.answer_replies, State.replies_writeReg]

/-- A write answers one reply, and it is BusError exactly when R76 rejects the write. -/
theorem hostWrite_answers (a n : Nat) (d : Word) (s : State) :
    ∃ t r, hostWrite a n d s = .next t ∧ t.replies = s.replies ++ [r] ∧
      (r = .busError ↔ busReject s true a n ≠ none) := by
  by_cases h : busReject s true a n = none
  · obtain ⟨t, ht, hreplies⟩ := hostWrite_of_accepted h d
    exact ⟨t, .ok, ht, hreplies, by simp [h]⟩
  · exact ⟨_, .busError, hostWrite_of_rejected h d, rfl, by simp [h]⟩

/-- The operation taken is the first of the list. -/
theorem State.taken_of_pending {s : State} {op : HostOp} {rest : List HostOp} (h : s.pending = op :: rest) :
    s.taken = { s with pending := rest } := by
  rw [State.taken, h, List.tail_cons]

/-- A step that writes a register with the right to it stores the word (R75). -/
theorem step_register {s : State} {a : Nat} {r : Reg} {w : Word} {rest : List HostOp}
    (hp : s.pending = .write a 4 w :: rest) (ha : regAt a = some r) (hc : r ≠ .cmd)
    (hr : rightReject s true r.access = none) :
    step s = .next (({ s with pending := rest } : State).writeReg r w |>.answer .ok) := by
  rw [step_of_pending hp, perform_write, State.taken_of_pending hp]
  exact hostWrite_register (s := { s with pending := rest }) ha hc hr w

/-! ## The obligations -/

/-- Settles O16: R76 tests what the port rejects, and what it rejects is answered BusError. -/
theorem busErrorsAreExactlyTheListed : Obligations.BusErrorsAreExactlyTheListed := by
  constructor
  · intro s a n rest hp
    refine ⟨_, s.taken.hostRead a n, step_of_pending hp, rfl, ?_⟩
    exact (hostRead_eq_busError_iff s.taken a n).trans busReject_read_ne_none_iff
  · intro s a n d rest hp
    obtain ⟨t, r, ht, hreplies, hr⟩ := hostWrite_answers a n d s.taken
    exact ⟨t, r, (step_of_pending hp).trans ht, hreplies, hr.trans busReject_write_ne_none_iff⟩

/-- Settles O17: a read changes nothing anyway, and an accepted write is answered Ok. -/
theorem busErrorChangesNothing : Obligations.BusErrorChangesNothing := by
  intro s t op rest hp hop hstep hreplies
  rw [step_of_pending hp] at hstep
  suffices t = s.taken.answer .busError by rw [this, State.taken_of_pending hp, State.answer]
  cases op with
  | read a n =>
    cases hstep
    rw [List.singleton_inj.1 (List.append_cancel_left hreplies)]
  | write a n d =>
    rw [perform_write] at hstep
    by_cases hb : busReject s.taken true a n = none
    · obtain ⟨t', ht, hok⟩ := hostWrite_of_accepted hb d
      cases ht.symm.trans hstep
      cases List.append_cancel_left (hok.symm.trans hreplies)
    · cases (hostWrite_of_rejected hb d).symm.trans hstep
      rfl
  | reset => exact absurd rfl hop

/-- Settles O18: a read is answered, and that is all. -/
theorem readsHaveNoSideEffect : Obligations.ReadsHaveNoSideEffect := by
  intro s a n rest hp
  refine ⟨s.taken.hostRead a n, ?_⟩
  rw [step_of_pending hp, perform_read, State.taken_of_pending hp, State.answer]

/-- Settles O19, register by register. -/
theorem registerWritesStoreTheWord : Obligations.RegisterWritesStoreTheWord := by
  intro s a w rest hp
  refine ⟨?_, ?_, ?_, ?_, ?_, ?_, ?_, ?_⟩
  · rintro rfl hc; exact step_register hp (r := .cfgDigits) rfl nofun (rightReject_cfgLocked hc)
  · rintro rfl hc; exact step_register hp (r := .cfgPeriod) rfl nofun (rightReject_cfgLocked hc)
  · rintro rfl hc; exact step_register hp (r := .cfgAlg) rfl nofun (rightReject_cfgLocked hc)
  · rintro rfl; exact step_register hp (r := .timeLo) rfl nofun rfl
  · rintro rfl; exact step_register hp (r := .timeHi) rfl nofun rfl
  · rintro rfl; exact step_register hp (r := .textLen) rfl nofun rfl
  · rintro rfl; exact step_register hp (r := .digestLen) rfl nofun rfl
  · rintro rfl hw; exact step_register hp (r := .candLen) rfl nofun (rightReject_winLocked hw)

/-- Settles O20: the write is accepted, and a memory write is read back at its own address only. -/
theorem bufferWritesStoreTheByte : Obligations.BufferWritesStoreTheByte := by
  intro s a d rest hp hplace
  have haccepted : busReject s.taken true a 1 = none := byteWrite_accepted_iff.2 hplace
  refine ⟨_, (step_of_pending hp).trans (hostWrite_byte haccepted d), ?_, Memory.read_write_self .., fun b hb =>
    Memory.read_write_ne _ _ hb⟩
  rw [State.taken_of_pending hp]
  rfl

end Sys2Proof.Machine
end

section
/-! PROOFS. Command words (R101 to R113): decoding and encoding are inverse, the words that decode are those listed, a
word of the list raises no IllegalCommand, and what a step makes of a word. -/

namespace Sys2Proof

/-! ## What decodes -/

/-- R101: a command that a word decodes to stands in the opcode map at the fields of the word. -/
theorem opcodeRow_of_decodeWord {w : Word} {i : Instr} (h : decodeWord w = .ok i) :
    ∃ f, opcodeRow (opField w) (sext16 (immField w)) = some (f, i) := by
  unfold decodeWord at h
  split at h
  · cases h
  · split at h
    · cases h
    · next hrow =>
      split at h <;> cases h
      exact ⟨_, hrow⟩
    · next hrow =>
      cases h
      exact ⟨_, hrow⟩

/-- R103: a word decodes to no command out of range. -/
theorem wellFormed_of_decodeWord {w : Word} {i : Instr} (h : decodeWord w = .ok i) : i.WellFormed := by
  obtain ⟨f, hrow⟩ := opcodeRow_of_decodeWord h
  obtain ⟨_, ⟨_, _, hwf⟩ | ⟨_, rfl | rfl⟩⟩ := opcodeRow_cases hrow
  · exact hwf
  · exact decide_eq_true (sext16_range _)
  · exact decide_eq_true (sext16_range _)

/-- The list of R106. -/
def Listed (w : Word) : Prop :=
  w ∈ [0x00000001, 0x00000002, 0x00000003, 0x00000010, 0x00000020, 0x00000021, 0x00000032, 0x00000040, 0x00000041] ∨
    ∃ iiii : BitVec 16, w = 0x00#8 ++ iiii ++ 0x30#8 ∨ w = 0x00#8 ++ iiii ++ 0x31#8

/-- R106: the word of every command is listed. -/
theorem listed_encode (i : Instr) : Listed (encode i) := by
  cases i with
  | slice k => exact .inr ⟨_, .inl rfl⟩
  | vbegin d => exact .inr ⟨_, .inr rfl⟩
  | cfglock | clrerr | sreset | b32dec | dtrunc | modred | slicew | cmp | cmpw => exact .inl (by decide)

/-- R103: SLICE takes every immediate field. -/
theorem decodeWord_slice (m : BitVec 16) : decodeWord (0x00#8 ++ m ++ 0x30#8) = .ok (.slice (sext16 m)) := by
  simp [decodeWord, rsvField_append, opField_append, immField_append, opcodeRow]

/-- R103: VBEGIN takes every immediate field. -/
theorem decodeWord_vbegin (m : BitVec 16) : decodeWord (0x00#8 ++ m ++ 0x31#8) = .ok (.vbegin (sext16 m)) := by
  simp [decodeWord, rsvField_append, opField_append, immField_append, opcodeRow]

/-- R106: the words that decode are the listed ones. -/
theorem decodes_iff_listed {w : Word} : (∃ i, decodeWord w = .ok i) ↔ Listed w := by
  constructor
  · rintro ⟨i, hd⟩
    exact Machine.encode_of_decodeWord hd ▸ listed_encode i
  · rintro (h | ⟨m, rfl | rfl⟩)
    · simp only [List.mem_cons, List.not_mem_nil, or_false] at h
      rcases h with rfl | rfl | rfl | rfl | rfl | rfl | rfl | rfl | rfl <;> exact ⟨_, rfl⟩
    · exact ⟨_, decodeWord_slice m⟩
    · exact ⟨_, decodeWord_vbegin m⟩

/-- What the host's table lookup finds is what the word decodes to. -/
theorem decodeWord_of_decodeTableWord {nbits n : Nat} {i : Instr} (h : decodeTableWord nbits n = some i) :
    n < 2 ^ nbits ∧ decodeWord (BitVec.ofNat 32 n) = .ok i := by
  unfold decodeTableWord at h
  split at h
  · next hn =>
    split at h
    · next hd => cases h; exact ⟨hn.2, hd⟩
    · cases h
  · cases h

end Sys2Proof

namespace Sys2Proof.Machine

/-! ## The faults of each command -/

/-- R231, the column "raised by", command by command. -/
def raisedBy (i : Instr) : List FaultKind :=
  match i with
  | .cfglock => [.sequence, .invalidConfiguration]
  | .clrerr | .sreset => []
  | .b32dec => [.length, .invalidSecret]
  | .dtrunc => [.sequence, .length]
  | .slice _ | .slicew => [.sequence, .counterRange]
  | .vbegin _ => [.sequence, .invalidWindow]
  | .modred | .cmp | .cmpw => [.sequence]

/-- IllegalCommand is raised by words, not by commands (R235). -/
theorem illegalCommand_notMem_raisedBy (i : Instr) : FaultKind.illegalCommand ∉ raisedBy i := by
  cases i <;> simp [raisedBy]

/-- R231: a command that sets FAULT records a code of its row. -/
theorem exec_raises {i : Instr} {s t : State} (h : exec i s = .next t) (h0 : s.fault = false) (h1 : t.fault = true) :
    ∃ k, t.errCode = some k ∧ k ∈ raisedBy i := by
  cases i with
  | cfglock =>
    rcases execCfglock_cases s with ⟨_, e⟩ | ⟨_, _, e⟩ | ⟨_, _, e⟩ <;> cases e.symm.trans h
    · exact ⟨.sequence, rfl, by simp [raisedBy]⟩
    · exact ⟨.invalidConfiguration, rfl, by simp [raisedBy]⟩
    · cases h0.symm.trans h1
  | clrerr | sreset => cases h; cases h1
  | b32dec =>
    rcases execB32dec_cases s with ⟨_, e⟩ | ⟨_, _, e⟩ | ⟨_, _, _, e⟩ <;> cases e.symm.trans h
    · exact ⟨.length, rfl, by simp [raisedBy]⟩
    · exact ⟨.invalidSecret, rfl, by simp [raisedBy]⟩
    · cases h0.symm.trans h1
  | dtrunc =>
    rcases execDtrunc_cases s with ⟨_, e⟩ | ⟨_, _, e⟩ | ⟨_, _, e⟩ <;> cases e.symm.trans h
    · exact ⟨.sequence, rfl, by simp [raisedBy]⟩
    · exact ⟨.length, rfl, by simp [raisedBy]⟩
    · cases h0.symm.trans h1
  | modred =>
    rcases execModred_cases s with ⟨_, e⟩ | ⟨_, _, e⟩ <;> cases e.symm.trans h
    · exact ⟨.sequence, rfl, by simp [raisedBy]⟩
    · cases h0.symm.trans h1
  | slice k =>
    rcases execSlice_cases k s with ⟨_, e⟩ | ⟨_, _, _, e⟩ | ⟨_, _, _, _, e⟩ <;> cases e.symm.trans h
    · exact ⟨.sequence, rfl, by simp [raisedBy]⟩
    · exact ⟨.counterRange, rfl, by simp [raisedBy]⟩
    · cases h0.symm.trans h1
  | vbegin d =>
    rcases execVbegin_cases d s with ⟨_, e⟩ | ⟨_, _, _, e⟩ | ⟨_, _, _, e⟩ <;> cases e.symm.trans h
    · exact ⟨.sequence, rfl, by simp [raisedBy]⟩
    · exact ⟨.invalidWindow, rfl, by simp [raisedBy]⟩
    · cases h0.symm.trans h1
  | slicew =>
    rcases execSlicew_cases s with ⟨_, e⟩ | ⟨_, _, e⟩ | ⟨_, _, _, e⟩ <;> cases e.symm.trans h
    · exact ⟨.sequence, rfl, by simp [raisedBy]⟩
    · exact ⟨.counterRange, rfl, by simp [raisedBy]⟩
    · cases h0.symm.trans h1
  | cmp =>
    rcases execCmp_cases s with ⟨_, e⟩ | ⟨_, _, _, e⟩ <;> cases e.symm.trans h
    · exact ⟨.sequence, rfl, by simp [raisedBy]⟩
    · cases h0.symm.trans h1
  | cmpw =>
    rcases execCmpw_cases s with ⟨_, e⟩ | ⟨_, _, _, e⟩ | ⟨_, _, _, e⟩ <;> cases e.symm.trans h
    · exact ⟨.sequence, rfl, by simp [raisedBy]⟩
    · cases h0.symm.trans h1
    · cases h0.symm.trans h1

/-! ## A word written to CMD with FAULT = 0 (R101) -/

/-- R101 step 5: a word that decodes runs its command. -/
theorem submit_of_decodes {w : Word} {i : Instr} {s : State} (hf : s.fault = false) (hd : decodeWord w = .ok i) :
    submit w s = exec i s := by
  obtain rfl := encode_of_decodeWord hd
  exact submit_encode hf hd

/-- R101 steps 3 and 4, R235: a word that is no command raises IllegalCommand. -/
theorem submit_of_illegal {w : Word} {e : DecodeError} {s : State} (hf : s.fault = false)
    (hd : decodeWord w = .error e) : submit w s = .next (s.faulted .illegalCommand w) := by
  have h3 : w ≠ 0x00000003 := by rintro rfl; cases hd
  simp only [submit, if_neg h3, hf, hd, Bool.false_eq_true, if_false, raise_eq]

/-- R106, R235: the words that raise IllegalCommand are those that decode to no command. -/
theorem submit_raises_illegalCommand_iff {w : Word} {s : State} (hf : s.fault = false) :
    (∃ t, submit w s = .next t ∧ t.fault = true ∧ t.errCode = some .illegalCommand) ↔ ¬ ∃ i, decodeWord w = .ok i := by
  cases hd : decodeWord w with
  | error e => exact iff_of_true ⟨_, submit_of_illegal hf hd, rfl, rfl⟩ nofun
  | ok i =>
    refine iff_of_false ?_ (not_not_intro ⟨i, rfl⟩)
    rintro ⟨t, ht, hfault, hcode⟩
    obtain ⟨k, hk, hmem⟩ := exec_raises ((submit_of_decodes hf hd).symm.trans ht) hf hfault
    obtain rfl := Option.some.inj (hcode.symm.trans hk)
    exact illegalCommand_notMem_raisedBy i hmem

/-! ## The obligations -/

/-- Settles O3: the fields of the encoded word are the command's own. -/
theorem decodeOfEncode : Obligations.DecodeOfEncode := fun _ => decodeWord_encode

/-- Settles O4: each field of the word is fixed by the command it decodes to. -/
theorem encodeOfDecode : Obligations.EncodeOfDecode := fun _ _ h =>
  ⟨wellFormed_of_decodeWord h, encode_of_decodeWord h⟩

/-- Settles O5: no command raises IllegalCommand, and the words that decode are the listed ones. -/
theorem illegalWordsAreExactlyTheUnlisted : Obligations.IllegalWordsAreExactlyTheUnlisted := by
  intro s w rest hp hf
  rw [step_command hp]
  refine (submit_raises_illegalCommand_iff ?_).trans (not_congr decodes_iff_listed)
  exact hf

/-- Settles O6: the words by evaluation, the fault of `VBEGIN -1` by what VBEGIN can do. -/
theorem encodingExamples : Obligations.EncodingExamples := by
  refine ⟨rfl, rfl, rfl, rfl, rfl, rfl, rfl, rfl, rfl, rfl, fun s hc ht => ?_⟩
  rcases execVbegin_cases (-1) s with ⟨h, _⟩ | ⟨_, _, _, e⟩ | ⟨_, _, h, _⟩
  · simp [hc, ht] at h
  · exact ⟨_, e, rfl, rfl⟩
  · omega

/-- Settles O7: the command's operation is taken and answered, then its word runs the command. -/
theorem stepRunsTheDecodedCommand : Obligations.StepRunsTheDecodedCommand := by
  constructor
  · intro s w i rest hp hf hd
    exact (step_command hp).trans (submit_of_decodes hf hd)
  · intro s n i hf hn
    obtain ⟨hlt, hd⟩ := decodeWord_of_decodeTableWord hn
    have hp : (s.withFetchWord 32 n).pending = commandOp (BitVec.ofNat 32 n) :: s.pending := by
      rw [State.withFetchWord, Nat.mod_eq_of_lt hlt]
    exact (step_command hp).trans (submit_of_decodes hf hd)

end Sys2Proof.Machine
end

section
/-! PROOFS. The control commands (40_control.md): CFGLOCK freezes exactly the legal configurations, CLRERR clears the
recorded fault, SRESET and the reset input put the whole block back to reset. -/

namespace Sys2Proof.Machine

section
variable {s : State} {w : Word}

/-! ## The three commands -/

/-- R131, R232: what CFGLOCK refuses. -/
theorem State.cfgLegal_eq_false_iff :
    s.cfgLegal = false ↔
      s.cfgDigits = 0 ∨ s.cfgDigits.toNat > 10 ∨ s.cfgPeriod = 0 ∨ s.cfgAlg.toNat > 2 := by
  rw [← Bool.not_eq_true, State.cfgLegal_iff]
  bv_omega

/-- R135: CLRERR clears the recorded fault, whatever the state. -/
theorem exec_clrerr (s : State) : exec .clrerr s = .next s.clearFault := rfl

/-- R138: SRESET resets the block, whatever the state. -/
theorem exec_sreset (s : State) : exec .sreset s = .next s.resetBlock := rfl

/-- R25, R26: with FAULT = 0 no fault is recorded. -/
theorem State.Inv.unrecorded (h : s.Inv) (hf : s.fault = false) : s.errCode = none ∧ s.errCmd = 0 := by
  simpa [State.faultInv, hf] using h.fault

/-- R242: where no fault is recorded there is nothing to clear. -/
theorem State.clearFault_eq_self (hf : s.fault = false) (hcode : s.errCode = none) (hcmd : s.errCmd = 0) :
    s.clearFault = s := by
  rw [State.clearFault, ← hf, ← hcode, ← hcmd]

/-! ## The words of the commands (R101) -/

/-- R101 step 1: the word of SRESET resets the block, also while FAULT = 1. -/
theorem submit_sreset (s : State) : submit 0x00000003 s = .next s.resetBlock := by
  rw [submit, if_pos rfl, exec_sreset]

/-- R241: while FAULT = 1 a word other than those of SRESET and CLRERR is ignored. -/
theorem submit_of_fault (hf : s.fault = true) (h3 : w ≠ 0x00000003) (h2 : w ≠ 0x00000002) :
    submit w s = .next s := by
  rw [submit, if_neg h3, if_pos hf, if_neg h2]

end

/-! ## The obligations -/

/-- Settles O30: the three outcomes of CFGLOCK, the legal configurations told by their bounds. -/
theorem cfglockValidatesAndFreezes : Obligations.CfglockValidatesAndFreezes := by
  intro s
  rcases execCfglock_cases s with ⟨hc, e⟩ | ⟨hc, hl, e⟩ | ⟨hc, hl, e⟩
  · exact ⟨fun _ => e, fun h => absurd (hc.symm.trans h) nofun, fun h => absurd (hc.symm.trans h) nofun⟩
  · refine ⟨fun h => absurd (hc.symm.trans h) nofun, fun _ _ => e, fun _ _ _ _ _ => ?_⟩
    have := State.cfgLegal_eq_false_iff.1 hl
    bv_omega
  · refine ⟨fun h => absurd (hc.symm.trans h) nofun, fun _ hbad => ?_, fun _ _ _ _ _ => e⟩
    exact absurd (hl.symm.trans (State.cfgLegal_eq_false_iff.2 hbad)) nofun

/-- Settles O2: the command, its word at the port and the reset input all end in `State.resetBlock`. -/
theorem resetRestoresEveryElement : Obligations.ResetRestoresEveryElement := by
  refine ⟨exec_sreset, fun s rest hp => ?_, fun s rest hp => ?_, fun w hd => ?_⟩
  · rw [step_command hp, submit_sreset]
    rfl
  · rw [step_of_pending hp, perform_reset, State.taken_of_pending hp]
    rfl
  · rw [← encode_of_decodeWord hd, encode_sreset]

/-- Settles O31: the invariant leaves CLRERR nothing to clear with FAULT = 0, and 0x00000102 decodes to no command. -/
theorem clrerrClearsTheRecordedFault : Obligations.ClrerrClearsTheRecordedFault := by
  refine ⟨exec_clrerr, fun s hinv hf => ?_, fun s rest hp => ⟨fun hf => ?_, fun hf => ?_⟩, fun w hd => ?_⟩
  · obtain ⟨hcode, hcmd⟩ := hinv.unrecorded hf
    rw [exec_clrerr, State.clearFault_eq_self hf hcode hcmd]
  · exact (step_command hp).trans (submit_of_fault hf (by decide) (by decide))
  · have hd : decodeWord 0x00000102 = .error .nonzeroImmediate := rfl
    exact ⟨_, (step_command hp).trans (submit_of_illegal hf hd), rfl, rfl⟩
  · rw [← encode_of_decodeWord hd, encode_clrerr]

end Sys2Proof.Machine
end

section
/-! PROOFS. The Base32 decoder (41_base32.md): the text B32DEC decodes, the characters it refuses, the bits it packs,
and that it undoes the encoder of R160. -/

namespace Sys2Proof.Machine

/-! ## The alphabet (R152) -/

/-- R152: the value of a character of the alphabet is its index. -/
theorem b32val_b32char {v : Nat} (h : v < 32) : b32val (b32char v) = some v := by
  have hall : ∀ u < 32, b32val (b32char u) = some u := by decide
  exact hall v h

/-- R152: a character with a value is the character of the alphabet with that index. -/
theorem b32char_of_b32val {c : Byte} {v : Nat} (h : b32val c = some v) : v < 32 ∧ c = b32char v := by
  unfold b32val at h
  split at h
  · next hr =>
    obtain rfl := Option.some.inj h
    refine ⟨by omega, BitVec.eq_of_toNat_eq ?_⟩
    rw [b32char, if_pos (by omega), BitVec.toNat_ofNat]
    omega
  · split at h
    · next hr =>
      obtain rfl := Option.some.inj h
      refine ⟨by omega, BitVec.eq_of_toNat_eq ?_⟩
      rw [b32char, if_neg (by omega), BitVec.toNat_ofNat]
      omega
    · cases h

/-- R152: a byte that is no character of the alphabet has no value. -/
theorem b32val_eq_none {c : Byte} (h : ∀ v, v < 32 → c ≠ b32char v) : b32val c = none :=
  Option.eq_none_iff_forall_ne_some.2 fun v hv =>
    h v (b32char_of_b32val hv).1 (b32char_of_b32val hv).2

/-- R152: `=` is outside the alphabet. -/
theorem b32char_ne_pad {v : Nat} (h : v < 32) : b32char v ≠ 0x3D := by
  intro e
  have hv := b32val_b32char h
  rw [e] at hv
  cases hv

/-! ## The text B32DEC decodes (R151, R153) -/

/-- The stripped length is where the trailing `=` begin. -/
theorem strippedLen_eq {c : Nat → Byte} {m n : Nat} (hle : m ≤ n) (hpad : ∀ j, m ≤ j → j < n → c j = 0x3D)
    (hlast : m = 0 ∨ c (m - 1) ≠ 0x3D) : strippedLen c n = m := by
  induction n with
  | zero => exact (Nat.le_zero.1 hle).symm
  | succ n ih =>
    rcases Nat.lt_or_eq_of_le hle with hlt | rfl
    · rw [strippedLen, if_pos (hpad n (by omega) (by omega))]
      exact ih (by omega) fun j h1 h2 => hpad j h1 (by omega)
    · rw [strippedLen, if_neg]
      exact hlast.resolve_left (Nat.succ_ne_zero n)

/-- The text B32DEC decodes is the characters before the trailing `=`. -/
theorem State.strippedText_eq {s : State} {m : Nat} (hle : m ≤ s.textLen.toNat)
    (hpad : ∀ j, m ≤ j → j < s.textLen.toNat → s.buf.read j = 0x3D)
    (hlast : m = 0 ∨ s.buf.read (m - 1) ≠ 0x3D) : s.strippedText = (List.range m).map s.buf.read := by
  have hbyte : s.textByte = s.buf.read := funext fun j => by rw [State.textByte, Config.textBase, Nat.zero_add]
  rw [State.strippedText, hbyte, strippedLen_eq hle hpad hlast]

/-! ## The texts that decode to nothing (R155) -/

/-- Fewer than two characters give no whole byte. -/
theorem b32Decode_of_short {text : List Byte} (h : text.length < 2) : b32Decode text = none := by
  have hbits := foldl_b32Step_bits text b32Start
  have hout : (text.foldl b32Step b32Start).out = [] := by
    refine List.length_eq_zero_iff.1 ?_
    simp only [b32Start, List.length_nil] at hbits ⊢
    omega
  simp [b32Decode, hout]

@[simp] theorem b32Push_bad (st : B32Loop) (v : Nat) : (b32Push st v).bad = st.bad := by
  unfold b32Push
  simp only
  split <;> rfl

/-- A bad character is noted, and stays noted. -/
theorem b32Step_bad (st : B32Loop) (c : Byte) : (b32Step st c).bad = (st.bad || (b32val c).isNone) := by
  unfold b32Step
  split <;> simp [*]

theorem foldl_b32Step_bad (text : List Byte) (st : B32Loop) :
    (text.foldl b32Step st).bad = (st.bad || text.any fun c => (b32val c).isNone) := by
  induction text generalizing st with
  | nil => simp
  | cons c text ih => rw [List.foldl_cons, ih, b32Step_bad, List.any_cons, Bool.or_assoc]

/-- One character outside the alphabet is enough. -/
theorem b32Decode_of_bad {text : List Byte} {c : Byte} (hmem : c ∈ text) (hc : b32val c = none) :
    b32Decode text = none := by
  have hbad : (text.foldl b32Step b32Start).bad = true := by
    rw [foldl_b32Step_bad, Bool.or_eq_true, List.any_eq_true]
    exact .inr ⟨c, hmem, by rw [hc]; rfl⟩
  simp [b32Decode, hbad]

/-! ## The bits the loop packs (R151, R152)

The values of a text read as one string of bits, five to a value. The loop holds the bits read so far: the first of
them, eight to a byte, in `out`, and the `nbits` last ones in `acc`. -/

/-- Bit `k` of the values `v 0, v 1, ...` joined, each five bits, most significant bit first. -/
def fiveBit (v : Nat → Nat) (k : Nat) : Bool := (v (k / 5)).testBit (4 - k % 5)

/-- The loop variables after `n` characters whose values read as the bits `f`. -/
structure B32Loop.Holds (f : Nat → Bool) (n : Nat) (st : B32Loop) : Prop where
  good : st.bad = false
  few : st.nbits < 8
  count : 8 * st.out.length + st.nbits = 5 * n
  acc : ∀ i, st.acc.testBit i = (decide (i < st.nbits) && f (5 * n - 1 - i))
  out : ∀ j b, (h : j < st.out.length) → b < 8 → st.out[j].getMsbD b = f (8 * j + b)

theorem B32Loop.holds_start (f : Nat → Bool) : b32Start.Holds f 0 where
  good := rfl
  few := by decide
  count := rfl
  acc i := by simp [b32Start]
  out j b h := absurd h (Nat.not_lt_zero j)

section
variable {v : Nat → Nat} {n : Nat} {st : B32Loop}

/-- The accumulator with the five bits of the next value joined on. -/
theorem B32Loop.Holds.testBit_join (h : st.Holds (fiveBit v) n) (hv : v n < 32) (i : Nat) :
    ((st.acc <<< 5) ||| v n).testBit i = (decide (i < st.nbits + 5) && fiveBit v (5 * (n + 1) - 1 - i)) := by
  have hcount := h.count
  rw [Nat.testBit_or, Nat.testBit_shiftLeft]
  by_cases hi : i < 5
  · have hdiv : (5 * (n + 1) - 1 - i) / 5 = n := by omega
    have hmod : 4 - (5 * (n + 1) - 1 - i) % 5 = i := by omega
    simp [fiveBit, hdiv, hmod, show ¬ 5 ≤ i by omega, show i < st.nbits + 5 by omega]
  · have htop : (v n).testBit i = false :=
      Nat.testBit_lt_two_pow (Nat.lt_of_lt_of_le hv (Nat.pow_le_pow_right (n := 2) (by decide) (Nat.not_lt.1 hi)))
    rw [h.acc, htop, show 5 * n - 1 - (i - 5) = 5 * (n + 1) - 1 - i by omega]
    simp [show 5 ≤ i by omega, show i - 5 < st.nbits ↔ i < st.nbits + 5 by omega]

/-- R151: the byte cut off the top of an accumulator is the next eight bits. -/
theorem getMsbD_cut {f : Nat → Bool} {a k m b : Nat} (ha : ∀ i, a.testBit i = (decide (i < k) && f (m - 1 - i)))
    (hk : 8 ≤ k) (hkm : k ≤ m) (hb : b < 8) :
    (BitVec.ofNat 8 ((a >>> (k - 8)) &&& 0xFF)).getMsbD b = f (m - k + b) := by
  have hmask : (0xFF : Nat).testBit (8 - 1 - b) = decide (8 - 1 - b < 8) := Nat.testBit_two_pow_sub_one 8 _
  have hin : k - 8 + (8 - 1 - b) < k := by omega
  rw [BitVec.getMsbD_eq_getLsbD, BitVec.getLsbD_ofNat, Nat.testBit_and, Nat.testBit_shiftRight, ha, hmask,
    show m - 1 - (k - 8 + (8 - 1 - b)) = m - k + b by omega]
  simp [hb, hin, show 8 - 1 - b < 8 by omega]

/-- R151: one more value, and a byte put out when eight bits are held. -/
theorem B32Loop.Holds.push (h : st.Holds (fiveBit v) n) (hv : v n < 32) :
    (b32Push st (v n)).Holds (fiveBit v) (n + 1) := by
  have hacc := h.testBit_join hv
  obtain ⟨hgood, hfew, hcount, -, hout⟩ := h
  unfold b32Push
  simp only
  split
  · next hk =>
    refine ⟨hgood, ?_, ?_, fun i => ?_, fun j b hj hb => ?_⟩
    · show st.nbits + 5 - 8 < 8
      omega
    · simp only [List.length_append, List.length_singleton]
      omega
    · rw [Nat.testBit_and, hacc, Nat.one_shiftLeft, Nat.testBit_two_pow_sub_one]
      by_cases hi : i < st.nbits + 5 - 8
      · rw [decide_eq_true hi, decide_eq_true (show i < st.nbits + 5 by omega), Bool.and_true]
      · rw [decide_eq_false hi, Bool.and_false, Bool.false_and]
    · simp only [List.length_append, List.length_singleton] at hj
      rcases Nat.lt_or_eq_of_le (Nat.le_of_lt_succ hj) with hold | rfl
      · simpa [List.getElem_append_left hold] using hout j b hold hb
      · simp only [List.getElem_append_right (Nat.le_refl _), Nat.sub_self, List.getElem_cons_zero]
        rw [getMsbD_cut hacc hk (by omega) hb]
        congr 1
        omega
  · next hk => exact ⟨hgood, by simp only; omega, by simp only; omega, hacc, hout⟩

end

/-- R151: the loop over characters of the alphabet holds the bits of their values. -/
theorem foldl_b32Step_holds {v : Nat → Nat} {m : Nat} (hv : ∀ j, j < m → v j < 32) :
    (((List.range m).map fun j => b32char (v j)).foldl b32Step b32Start).Holds (fiveBit v) m := by
  induction m with
  | zero => exact B32Loop.holds_start _
  | succ m ih =>
    have hm := hv m (by omega)
    rw [List.range_succ, List.map_append, List.foldl_append]
    simp only [List.map_cons, List.map_nil, List.foldl_cons, List.foldl_nil, b32Step, b32val_b32char hm]
    exact (ih fun j hj => hv j (by omega)).push hm

/-- R152: the decoded bytes, bit by bit. -/
theorem b32Decode_packs {v : Nat → Nat} {m : Nat} (h2 : 2 ≤ m) (hv : ∀ j, j < m → v j < 32) :
    ∃ out, b32Decode ((List.range m).map fun j => b32char (v j)) = some out ∧ out.length = 5 * m / 8 ∧
      ∀ j b, (h : j < out.length) → b < 8 → out[j].getMsbD b = fiveBit v (8 * j + b) := by
  obtain ⟨hgood, hfew, hcount, -, hout⟩ := foldl_b32Step_holds hv
  refine ⟨_, ?_, by omega, hout⟩
  rw [b32Decode, if_neg]
  simp only [hgood, Bool.false_or, List.isEmpty_iff]
  intro hnil
  rw [hnil, List.length_nil] at hcount
  omega

/-! ## B32DEC -/

section
variable {s : State} {out : List Byte}

/-- R151: the decoded text goes to KEY. -/
theorem exec_b32dec_of_some (hl : s.textLen.toNat ≤ 128) (hd : b32Decode s.strippedText = some out) :
    exec .b32dec s = .next (s.keyCleared.withKey out) := by
  rcases execB32dec_cases s with ⟨h, _⟩ | ⟨_, h, _⟩ | ⟨_, _, h, e⟩
  · omega
  · cases hd.symm.trans h
  · cases hd.symm.trans h; exact e

/-- R155: a text that decodes to nothing is an invalid secret. -/
theorem exec_b32dec_of_none (hl : s.textLen.toNat ≤ 128) (hd : b32Decode s.strippedText = none) :
    exec .b32dec s = .next (s.keyCleared.faulted .invalidSecret 0x00000010) := by
  rcases execB32dec_cases s with ⟨h, _⟩ | ⟨_, _, e⟩ | ⟨_, _, h, _⟩
  · omega
  · exact e
  · cases hd.symm.trans h

/-- R156: a text longer than TEXT is refused. -/
theorem exec_b32dec_of_long (hl : 128 < s.textLen.toNat) :
    exec .b32dec s = .next (s.keyCleared.faulted .length 0x00000010) := by
  rcases execB32dec_cases s with ⟨_, e⟩ | ⟨h, _⟩ | ⟨_, h, _⟩
  · exact e
  · omega
  · omega

/-- R151: KEY begins with the decoded bytes. -/
theorem State.read_withKey_of_lt {j : Nat} (h : j < out.length) :
    (s.withKey out).buf.read (0x080 + j) = out[j] := by
  have hz : j < (zeroFill Config.keyMax out).length := by rw [length_zeroFill]; omega
  exact (Memory.read_writeBytes_of_lt _ _ _ _ hz).trans (List.getElem_append_left h)

/-- R151: the rest of KEY is zero. -/
theorem State.read_withKey_of_ge {j : Nat} (h : out.length ≤ j) (hj : j < 80) :
    (s.withKey out).buf.read (0x080 + j) = 0x00 := by
  have hz : j < (zeroFill Config.keyMax out).length := by rw [length_zeroFill, Config.keyMax]; omega
  refine (Memory.read_writeBytes_of_lt _ _ _ _ hz).trans ?_
  simp [zeroFill, List.getElem_append_right h]

/-- R151: no byte outside KEY is written. -/
theorem State.read_withKey_outside {a : Nat} (hout : out.length ≤ 80) (h : a < 0x080 ∨ 0x0D0 ≤ a) :
    (s.withKey out).buf.read a = s.buf.read a := by
  refine Memory.read_writeBytes_outside _ _ _ _ ?_
  rw [length_zeroFill, Config.keyMax, Config.keyBase]
  omega

/-- R151, R152: a loaded text with at least two characters, all of the alphabet, decodes to the bits of their values. -/
theorem exec_b32dec_packs {m : Nat} {v : Nat → Nat} (hl : s.textLen.toNat ≤ 128) (hle : m ≤ s.textLen.toNat)
    (h2 : 2 ≤ m) (hpad : ∀ j, m ≤ j → j < s.textLen.toNat → s.buf.read j = 0x3D)
    (htext : ∀ j, j < m → v j < 32 ∧ s.buf.read j = b32char (v j)) :
    ∃ out, exec .b32dec s = .next (s.keyCleared.withKey out) ∧ out.length = 5 * m / 8 ∧
      ∀ j b, (h : j < out.length) → b < 8 → out[j].getMsbD b = fiveBit v (8 * j + b) := by
  have hlast : s.buf.read (m - 1) ≠ 0x3D := by
    obtain ⟨hv, hc⟩ := htext (m - 1) (by omega)
    rw [hc]
    exact b32char_ne_pad hv
  have hstrip : s.strippedText = (List.range m).map fun j => b32char (v j) := by
    rw [State.strippedText_eq hle hpad (.inr hlast)]
    exact List.map_congr_left fun j hj => (htext j (List.mem_range.1 hj)).2
  obtain ⟨out, hd, hlen, hbits⟩ := b32Decode_packs h2 fun j hj => (htext j hj).1
  exact ⟨out, exec_b32dec_of_some hl (hstrip ▸ hd), hlen, hbits⟩

end

/-! ## The encoder (R160) -/

@[simp] theorem length_byteBits (b : Byte) : (byteBits b).length = 8 := by simp [byteBits]

@[simp] theorem length_flatMap_byteBits (bs : List Byte) : (bs.flatMap byteBits).length = 8 * bs.length := by
  induction bs with
  | nil => rfl
  | cons b bs ih => rw [List.flatMap_cons, List.length_append, length_byteBits, ih, List.length_cons]; omega

/-- Bit `b` of byte `j` is bit `8j + b` of the string. -/
theorem getD_flatMap_byteBits (bs : List Byte) {j b : Nat} (hj : j < bs.length) (hb : b < 8) :
    (bs.flatMap byteBits).getD (8 * j + b) false = bs[j].getMsbD b := by
  induction bs generalizing j with
  | nil => cases hj
  | cons c bs ih =>
    rw [List.flatMap_cons]
    cases j with
    | zero =>
      rw [List.getD_append _ _ _ _ (by rw [length_byteBits]; omega)]
      simp [byteBits, hb]
    | succ j =>
      rw [List.getD_append_right _ _ _ _ (by rw [length_byteBits]; omega), length_byteBits,
        show 8 * (j + 1) + b - 8 = 8 * j + b by omega]
      exact ih (by simpa using hj)

/-- Group `j` of R160: bits `5j` to `5j + 4`, zeros from the end of the string on. -/
def fiveBitGroup (bits : List Bool) (j : Nat) : List Bool := (List.range 5).map fun i => bits.getD (5 * j + i) false

/-- The groups of R160 are one for each five bits begun, in order. -/
theorem fiveBitGroups_eq (bits : List Bool) :
    fiveBitGroups bits = (List.range ((bits.length + 4) / 5)).map (fiveBitGroup bits) := by
  induction bits using fiveBitGroups.induct with
  | case1 => rfl
  | case2 b0 b1 b2 b3 b4 rest ih =>
    have hlen : ((b0 :: b1 :: b2 :: b3 :: b4 :: rest).length + 4) / 5 = (rest.length + 4) / 5 + 1 := by
      simp only [List.length_cons]
      omega
    rw [fiveBitGroups, ih, hlen, List.range_succ_eq_map, List.map_cons, List.map_map]
    rfl
  | case3 short hne hlong =>
    match short, hne, hlong with
    | [_], _, _ | [_, _], _, _ | [_, _, _], _, _ | [_, _, _, _], _, _ =>
      simp [fiveBitGroups, fiveBitGroup, List.range_succ]
    | [], hne, _ => exact absurd rfl hne
    | b0 :: b1 :: b2 :: b3 :: b4 :: rest, _, hlong => exact absurd rfl (hlong b0 b1 b2 b3 b4 rest)

/-- Five bits are those of their value, the first one most significant. -/
theorem testBit_bitsVal_five (f : Nat → Bool) {i : Nat} (hi : i < 5) :
    (bitsVal ((List.range 5).map f)).testBit (4 - i) = f i := by
  have hall : ∀ b0 b1 b2 b3 b4 : Bool, ∀ i < 5,
      (bitsVal [b0, b1, b2, b3, b4]).testBit (4 - i) = [b0, b1, b2, b3, b4].getD i false := by decide
  have hget : ((List.range 5).map f).getD i false = f i := by simp [hi]
  exact (hall _ _ _ _ _ i hi).trans hget

/-- The bits of a group are those of its value. -/
theorem testBit_bitsVal_fiveBitGroup (bits : List Bool) (j : Nat) {i : Nat} (hi : i < 5) :
    (bitsVal (fiveBitGroup bits j)).testBit (4 - i) = bits.getD (5 * j + i) false :=
  testBit_bitsVal_five _ hi

theorem bitsVal_fiveBitGroup_lt (bits : List Bool) (j : Nat) : bitsVal (fiveBitGroup bits j) < 32 := by
  have hall : ∀ b0 b1 b2 b3 b4 : Bool, bitsVal [b0, b1, b2, b3, b4] < 32 := by decide
  exact hall _ _ _ _ _

/-- The values of the groups, read five bits each, are the string. -/
theorem fiveBit_bitsVal (bits : List Bool) (k : Nat) :
    fiveBit (fun j => bitsVal (fiveBitGroup bits j)) k = bits.getD k false := by
  rw [fiveBit, testBit_bitsVal_fiveBitGroup _ _ (Nat.mod_lt k (by decide)), Nat.div_add_mod]

/-- R160: character `j` encodes the value of group `j`. -/
theorem b32Encode_eq (bs : List Byte) :
    b32Encode bs = (List.range ((8 * bs.length + 4) / 5)).map fun j =>
      b32char (bitsVal (fiveBitGroup (bs.flatMap byteBits) j)) := by
  rw [b32Encode, fiveBitGroups_eq, length_flatMap_byteBits, List.map_map]
  rfl

/-- R160: one character for each five bits begun. -/
@[simp] theorem length_b32Encode (bs : List Byte) : (b32Encode bs).length = (8 * bs.length + 4) / 5 := by
  simp [b32Encode_eq]

/-! ## The obligations -/

/-- Settles O32: the loop holds the bits of the values, and KEY takes what it has put out. -/
theorem b32decPacksFiveBitValues : Obligations.B32decPacksFiveBitValues := by
  intro s m v hl hle h2 hpad htext
  obtain ⟨out, he, hlen, hbits⟩ := exec_b32dec_packs hl hle h2 hpad htext
  rw [← hlen]
  refine ⟨_, he, rfl, fun j b hj hb => ?_, fun j hj => State.read_withKey_of_ge hj,
    fun a => State.read_withKey_outside (by omega)⟩
  rw [State.read_withKey_of_lt hj]
  exact hbits j b hj hb

/-- Settles O33: a long text is not looked at, and a short one or one with a bad character decodes to nothing. -/
theorem b32decFaults : Obligations.B32decFaults := by
  intro s
  refine ⟨exec_b32dec_of_long, fun m hl hle hpad hlast hbad => exec_b32dec_of_none hl ?_⟩
  rw [State.strippedText_eq hle hpad hlast]
  rcases hbad with hm | ⟨j, hj, hc⟩
  · exact b32Decode_of_short (by simpa using hm)
  · exact b32Decode_of_bad (List.mem_map_of_mem (List.mem_range.2 hj)) (b32val_eq_none hc)

/-- Settles O34: the text's values read as the bits of `b`, so the bytes packed from them are `b`. -/
theorem base32RoundTrip : Obligations.Base32RoundTrip := by
  intro s b h1 h80
  have hlen := length_b32Encode b
  refine ⟨hlen, by omega, fun hf htl htext => ?_⟩
  have hlt : s.textLen.toNat = (b32Encode b).length := by rw [htl, BitVec.toNat_ofNat]; omega
  obtain ⟨out, he, hol, hbits⟩ := exec_b32dec_packs (s := s) (m := (b32Encode b).length)
    (v := fun j => bitsVal (fiveBitGroup (b.flatMap byteBits) j)) (by omega) (by omega) (by omega)
    (fun j _ _ => by omega)
    fun j hj => ⟨bitsVal_fiveBitGroup_lt _ _, by rw [htext j hj]; simp [b32Encode_eq]⟩
  have hout : out = b := by
    refine List.ext_getElem (by omega) fun j hj hjb => BitVec.eq_of_getMsbD_eq fun i hi => ?_
    rw [hbits j i hj hi, fiveBit_bitsVal, getD_flatMap_byteBits b hjb hi]
  subst hout
  refine ⟨_, he, hf, rfl, ?_, State.keyBytes_withKey _ h80⟩
  rw [State.withKey_keyLen, BitVec.toNat_ofNat]
  omega

end Sys2Proof.Machine
end

section
/-! PROOFS. Truncation (42_hotp_truncation.md): the offset and the word DTRUNC reads off a digest, the decimal
characters MODRED writes, and that the two together read nothing but the algorithm, the digit count and the digest. -/

namespace Sys2Proof.Machine

/-! ## The truncated value (R171) -/

/-- R171: the offset is the low nibble of the last digest byte. -/
theorem toNat_truncOffset (d : Nat → Byte) (len : Nat) : (truncOffset d len).toNat = (d (len - 1)).toNat % 16 := by
  rw [truncOffset, BitVec.toNat_and]
  exact Nat.and_two_pow_sub_one_eq_mod _ 4

/-- R40: OFFSET has room for every offset. -/
theorem toNat_setWidth_truncOffset (d : Nat → Byte) (len : Nat) :
    ((truncOffset d len).setWidth 4).toNat = (truncOffset d len).toNat := by
  have := toNat_truncOffset d len
  rw [BitVec.toNat_setWidth]
  omega

/-- The offset is read off the last digest byte alone. -/
theorem truncOffset_congr {d e : Nat → Byte} {len : Nat} (h : d (len - 1) = e (len - 1)) :
    truncOffset d len = truncOffset e len := by
  rw [truncOffset, truncOffset, h]

/-- R9: the first byte of a big-endian word is the most significant one. -/
theorem toNat_be32 (b0 b1 b2 b3 : Byte) :
    (be32 b0 b1 b2 b3).toNat = b0.toNat * 2 ^ 24 + b1.toNat * 2 ^ 16 + b2.toNat * 2 ^ 8 + b3.toNat := by
  rw [be32]
  simp only [BitVec.toNat_append]
  rw [← Nat.shiftLeft_add_eq_or_of_lt b3.isLt, ← Nat.shiftLeft_add_eq_or_of_lt b2.isLt,
    ← Nat.shiftLeft_add_eq_or_of_lt b1.isLt]
  simp only [Nat.shiftLeft_eq]
  omega

/-- R171: the sign bit is dropped. -/
theorem toNat_truncValue (d : Nat → Byte) (len : Nat) :
    (truncValue d len).toNat = (truncWord d len).toNat % 2 ^ 31 := by
  have hmask : (truncWord d len).toNat &&& (2 ^ 31 - 1) = (truncWord d len).toNat % 2 ^ 31 :=
    Nat.and_two_pow_sub_one_eq_mod _ 31
  rw [truncValue, BitVec.toNat_setWidth, BitVec.toNat_and]
  exact (congrArg (· % 2 ^ 31) hmask).trans (Nat.mod_mod _ _)

/-- R178: each algorithm has its digest length. -/
theorem dlen_of_cases {a : Word} {n : Nat} (h : (a = 0 ∧ n = 20) ∨ (a = 1 ∧ n = 32) ∨ (a = 2 ∧ n = 64)) :
    dlen a = some n := by
  rcases h with ⟨rfl, rfl⟩ | ⟨rfl, rfl⟩ | ⟨rfl, rfl⟩ <;> rfl

/-! ## The faults of DTRUNC and MODRED -/

section
variable {s : State}

/-- R171: DTRUNC wants a frozen configuration. -/
theorem execDtrunc_of_unfrozen (hc : s.cfgOk = false) :
    exec .dtrunc s = .next (s.valueCleared.faulted .sequence 0x00000020) := by
  rcases execDtrunc_cases s with ⟨_, e⟩ | ⟨h, _⟩ | ⟨h, _⟩
  · exact e
  · exact absurd (hc.symm.trans h) nofun
  · exact absurd (hc.symm.trans h) nofun

/-- R171, R178: DTRUNC wants a digest of the algorithm's length. -/
theorem execDtrunc_of_wrong_length (hc : s.cfgOk = true) (hd : dlen s.cfgAlg ≠ some s.digestLen.toNat) :
    exec .dtrunc s = .next (s.valueCleared.faulted .length 0x00000020) := by
  rcases execDtrunc_cases s with ⟨h, _⟩ | ⟨_, _, e⟩ | ⟨_, h, _⟩
  · exact absurd (hc.symm.trans h) nofun
  · exact e
  · exact absurd h hd

/-- R176: MODRED wants a frozen configuration and a value. -/
theorem execModred_of_no_value (h : s.cfgOk = false ∨ s.valueValid = false) :
    exec .modred s = .next (s.codeCleared.faulted .sequence 0x00000021) := by
  rcases execModred_cases s with ⟨_, e⟩ | ⟨hc, hv, _⟩
  · exact e
  · simp [hc, hv] at h

end

/-! ## The decimal characters (R176) -/

/-- R176: character `j` is the digit of weight `10^(digits - 1 - j)`. -/
theorem toNat_codeChar {digits j : Nat} (m : Nat) (h : j < digits) :
    (codeChar digits m j).toNat = 0x30 + m / 10 ^ (digits - 1 - j) % 10 := by
  rw [codeChar, if_pos h, BitVec.toNat_ofNat]
  omega

/-- R176: zeros follow the characters. -/
theorem codeChar_of_digits_le {digits j : Nat} (m : Nat) (h : digits ≤ j) : codeChar digits m j = 0x00 := by
  rw [codeChar, if_neg (by omega)]

/-- The first `k` characters read as the number without its last `digits - k` digits. -/
theorem foldl_codeChar {digits m k : Nat} (hm : m < 10 ^ digits) (hk : k ≤ digits) :
    (List.range k).foldl (fun n j => 10 * n + ((codeChar digits m j).toNat - 0x30)) 0 = m / 10 ^ (digits - k) := by
  induction k with
  | zero => exact (Nat.div_eq_of_lt hm).symm
  | succ k ih =>
    have hpow : digits - k = digits - (k + 1) + 1 := by omega
    have hweight : digits - 1 - k = digits - (k + 1) := by omega
    rw [List.range_succ, List.foldl_append, ih (by omega), List.foldl_cons, List.foldl_nil, toNat_codeChar m (by omega),
      hpow, Nat.pow_succ, ← Nat.div_div_eq_div_mul, hweight]
    omega

section
variable (s : State) (d : Word) (m : Nat)

/-- R176: CODE holds the characters. -/
theorem State.read_withCode {j : Nat} (h : j < 16) : (s.withCode d m).buf.read (0x150 + j) = codeChar d.toNat m j := by
  refine (Memory.read_writeBytes_of_lt _ _ _ _ (by simpa using h)).trans ?_
  simp [codeText]

/-- R176: no byte outside CODE is written. -/
theorem State.read_withCode_outside {a : Nat} (h : a < 0x150 ∨ 0x160 ≤ a) :
    (s.withCode d m).buf.read a = s.buf.read a :=
  Memory.read_writeBytes_outside _ _ _ _ (by rw [length_codeText, Config.codeBase]; omega)

/-- R42, R176: CODEVAL has room for every VALUE mod a power of ten. -/
theorem State.toNat_withCode_codeVal {n : Nat} (v : BitVec 31) :
    (s.withCode d (v.toNat % n)).codeVal.toNat = v.toNat % n := by
  have := Nat.mod_le v.toNat n
  rw [State.withCode_codeVal, BitVec.toNat_ofNat]
  omega

end

/-! ## What DTRUNC then MODRED reads (R177) -/

/-- The states show the same OFFSET, VALUE, CODEVAL, CODE_LEN and CODE. -/
structure SameCode (s t : State) : Prop where
  offset : t.offset = s.offset
  value : t.value = s.value
  codeVal : t.codeVal = s.codeVal
  codeLen : t.codeLen = s.codeLen
  code : ∀ j, j < 16 → t.codeByte j = s.codeByte j

/-- R71: CODE lies after DIGEST, so `HOTP` leaves the digest alone. -/
theorem State.digestByte_withHotp (s : State) {j : Nat} (h : j < 64) : s.withHotp.digestByte j = s.digestByte j :=
  State.read_withCode_outside _ _ _ (by rw [Config.digestBase]; omega)

/-- R177: `HOTP` reads the digit count and the digest alone. -/
theorem State.withHotp_sameCode {s u : State} (hd : u.cfgDigits = s.cfgDigits) (hl : u.digestLen = s.digestLen)
    (h20 : 20 ≤ s.digestLen.toNat) (hb : ∀ j, j < s.digestLen.toNat → u.digestByte j = s.digestByte j) :
    SameCode s.withHotp u.withHotp := by
  have ho : truncOffset u.digestByte u.digestLen.toNat = truncOffset s.digestByte s.digestLen.toNat := by
    rw [hl]
    exact truncOffset_congr (hb _ (by omega))
  have hv : truncValue u.digestByte u.digestLen.toNat = truncValue s.digestByte s.digestLen.toNat := by
    rw [hl]
    exact truncValue_congr h20 hb
  refine ⟨congrArg (BitVec.setWidth 4) ho, hv, ?_, hd, fun j hj => ?_⟩
  · simp only [State.withHotp, State.withCode_codeVal, hd, hv]
  · rw [State.codeByte_withHotp _ hj, State.codeByte_withHotp _ hj, hd, hv]

/-! ## The obligations -/

/-- Settles O35: the three outcomes of DTRUNC, and the numbers its offset and its value are. -/
theorem dtruncTruncatesTheDigest : Obligations.DtruncTruncatesTheDigest := by
  intro s len halg
  have hd := dlen_of_cases halg
  refine ⟨execDtrunc_of_unfrozen, fun hc hne => ?_, fun hc hlen => ?_⟩
  · exact execDtrunc_of_wrong_length hc fun h => hne (Option.some.inj (h.symm.trans hd))
  · subst hlen
    refine ⟨_, execDtrunc_of_digest hc hd, rfl, ?_, ?_⟩
    · have hlast : 0x100 + s.digestLen.toNat - 1 = Config.digestBase + (s.digestLen.toNat - 1) := by
        rw [Config.digestBase]
        omega
      rw [hlast]
      exact (toNat_setWidth_truncOffset _ _).trans (toNat_truncOffset _ _)
    · rw [State.withValue_value, State.withValue_offset, toNat_setWidth_truncOffset, toNat_truncValue, truncWord,
        toNat_be32]
      rfl

/-- Settles O36: the outcomes of MODRED, and the characters of CODE read back as CODEVAL. -/
theorem modredRendersTheCode : Obligations.ModredRendersTheCode := by
  intro s
  refine ⟨execModred_of_no_value, fun hc hv _ h10 => ?_⟩
  have hread : ∀ {m j : Nat}, j < s.cfgDigits.toNat →
      (s.codeCleared.withCode s.cfgDigits m).buf.read (0x150 + j) = codeChar s.cfgDigits.toNat m j :=
    fun hj => State.read_withCode _ _ _ (by omega)
  refine ⟨_, execModred_of_value hc hv, rfl, State.toNat_withCode_codeVal _ _ _, fun j hj => ?_, ?_,
    fun j hj h16 => ?_, fun a => State.read_withCode_outside _ _ _⟩
  · rw [hread hj, toNat_codeChar _ hj]
    omega
  · rw [State.toNat_withCode_codeVal]
    calc _ = (List.range s.cfgDigits.toNat).foldl (fun n j => 10 * n +
            ((codeChar s.cfgDigits.toNat (s.value.toNat % 10 ^ s.cfgDigits.toNat) j).toNat - 0x30)) 0 :=
          List.foldl_ext _ _ _ fun n j hj => by rw [hread (List.mem_range.1 hj)]
      _ = s.value.toNat % 10 ^ s.cfgDigits.toNat := by
          rw [foldl_codeChar (Nat.mod_lt _ (by positivity)) (Nat.le_refl _), Nat.sub_self, Nat.pow_zero, Nat.div_one]
  · rw [State.read_withCode _ _ _ h16, codeChar_of_digits_le _ hj]

/-- Settles O37: the second state agrees with the first on what `HOTP` reads, and so does the state after `HOTP`. -/
theorem hotpIsPure : Obligations.HotpIsPure := by
  intro s u len hd hcs hcu hls hlu halg hdig hbytes
  subst hls
  have hlen : u.digestLen = s.digestLen := BitVec.eq_of_toNat_eq hlu
  have hdu : dlen u.cfgAlg = some u.digestLen.toNat := by rw [halg, hlen, hd]
  have h20 : 20 ≤ s.digestLen.toNat ∧ s.digestLen.toNat ≤ 64 := by have := dlen_cases hd; omega
  have hagain : SameCode s.withHotp s.withHotp.withHotp :=
    State.withHotp_sameCode rfl rfl h20.1 fun j hj => s.digestByte_withHotp (by omega)
  have hother : SameCode s.withHotp u.withHotp := State.withHotp_sameCode hdig hlen h20.1 hbytes
  exact ⟨_, _, _, exec_hotp hcs hd, exec_hotp (s := s.withHotp) hcs hd, exec_hotp hcu hdu,
    hagain.offset, hagain.value, hagain.codeVal, hagain.codeLen,
    hother.offset, hother.value, hother.codeVal, hother.codeLen, fun j hj => ⟨hagain.code j hj, hother.code j hj⟩⟩

end Sys2Proof.Machine
end

section
/-! PROOFS. The slices of time (43_totp_window.md): SLICE and SLICEW compute a counter or fault, VBEGIN opens a window
or faults. -/

namespace Sys2Proof.Machine

/-! ## The halves of a 64-bit quantity (R74 (c)) -/

theorem toNat_append_halves (hi lo : Word) : (hi ++ lo : Dword).toNat = hi.toNat * 2 ^ 32 + lo.toNat := by
  rw [BitVec.toNat_append, ← Nat.shiftLeft_add_eq_or_of_lt lo.isLt, Nat.shiftLeft_eq]

theorem toNat_halves (v : Dword) : (hiHalf v).toNat * 2 ^ 32 + (loHalf v).toNat = v.toNat := by
  rw [← toNat_append_halves, hiHalf_append_loHalf]

section
variable {s : State}

/-- R34: TIME_VALID is TMASK = 0b11. -/
theorem State.timeValid_iff : s.timeValid = true ↔ s.tmask = 0b11 := beq_iff_eq

theorem State.timeValid_eq_false_iff : s.timeValid = false ↔ s.tmask ≠ 0b11 := beq_eq_false_iff_ne

/-- R191, R195: the current slice, from the registers. -/
theorem State.slice_eq (h : s.cfgPeriod ≠ 0) :
    s.slice = (s.timeHi.toNat * 2 ^ 32 + s.timeLo.toNat) / s.cfgPeriod.toNat := by
  rw [State.slice, quotient_of_ne_zero _ h, State.time, toNat_append_halves]

/-! ## A stored counter (R191, R198) -/

variable {c : Int}

/-- COUNTER holds a counter in range exactly. -/
theorem State.toNat_withCounter_counter (s : State) (h0 : 0 ≤ c) (h1 : c < 2 ^ 64) :
    (((s.withCounter (BitVec.ofInt 64 c)).counterHi.toNat * 2 ^ 32 +
      (s.withCounter (BitVec.ofInt 64 c)).counterLo.toNat : Nat) : Int) = c := by
  rw [State.withCounter_counterHi, State.withCounter_counterLo, toNat_halves, toNat_ofInt_counter h0 h1]

/-- MSG holds it big-endian (R9). -/
theorem State.toNat_read_withCounter (s : State) (h0 : 0 ≤ c) (h1 : c < 2 ^ 64) {j : Nat} (hj : j < 8) :
    ((s.withCounter (BitVec.ofInt 64 c)).buf.read (0x140 + j)).toNat = c.toNat / 2 ^ (8 * (7 - j)) % 256 := by
  have hc : (BitVec.ofInt 64 c).toNat = c.toNat := by have := toNat_ofInt_counter h0 h1; omega
  have hread : (s.withCounter (BitVec.ofInt 64 c)).buf.read (0x140 + j) =
      (BitVec.ofInt 64 c >>> (8 * (7 - j))).setWidth 8 :=
    (Memory.read_writeBytes_of_lt _ _ _ _ (by simpa using hj)).trans (getElem_be64 _ _ _)
  rw [hread, BitVec.toNat_setWidth, BitVec.toNat_ushiftRight, Nat.shiftRight_eq_div_pow, hc]

/-- No byte outside MSG is written. -/
theorem State.read_withCounter_outside (s : State) (c : Dword) {a : Nat} (h : a < 0x140 ∨ 0x148 ≤ a) :
    (s.withCounter c).buf.read a = s.buf.read a :=
  Memory.read_writeBytes_outside _ _ _ _ (by rw [length_be64, Config.msgBase]; omega)

/-! ## The outcomes of SLICE, VBEGIN and SLICEW -/

/-- SLICE and VBEGIN want a frozen configuration and a valid time (R191, R195). -/
theorem State.not_ready_iff :
    (s.cfgOk = false ∨ s.timeValid = false) ↔ (s.cfgOk = false ∨ s.tmask ≠ 0b11) :=
  or_congr_right State.timeValid_eq_false_iff

theorem execSlice_of_not_ready (k : Int) (h : s.cfgOk = false ∨ s.tmask ≠ 0b11) :
    exec (.slice k) s = .next (s.msgCleared.faulted .sequence (encode (.slice k))) :=
  if_pos (State.not_ready_iff.2 h)

theorem execVbegin_of_not_ready (d : Int) (h : s.cfgOk = false ∨ s.tmask ≠ 0b11) :
    exec (.vbegin d) s = .next (s.windowDropped.faulted .sequence (encode (.vbegin d))) :=
  if_pos (State.not_ready_iff.2 h)

/-- SLICE of a counter out of range (R192). -/
theorem execSlice_outOfRange {k : Int} (hc : s.cfgOk = true) (ht : s.timeValid = true)
    (h : (s.slice : Int) + k < 0 ∨ 2 ^ 64 ≤ (s.slice : Int) + k) :
    exec (.slice k) s = .next (s.msgCleared.faulted .counterRange (encode (.slice k))) := by
  rcases execSlice_cases k s with ⟨h' | h', _⟩ | ⟨_, _, _, e⟩ | ⟨_, _, h0, h1, _⟩
  · exact absurd (hc.symm.trans h') nofun
  · exact absurd (ht.symm.trans h') nofun
  · exact e
  · omega

/-- SLICE of a counter in range (R191). -/
theorem execSlice_inRange {k : Int} (hc : s.cfgOk = true) (ht : s.timeValid = true)
    (h0 : 0 ≤ (s.slice : Int) + k) (h1 : (s.slice : Int) + k < 2 ^ 64) :
    exec (.slice k) s = .next (s.msgCleared.withCounter (BitVec.ofInt 64 ((s.slice : Int) + k))) := by
  rcases execSlice_cases k s with ⟨h | h, _⟩ | ⟨_, _, h, _⟩ | ⟨_, _, _, _, e⟩
  · exact absurd (hc.symm.trans h) nofun
  · exact absurd (ht.symm.trans h) nofun
  · omega
  · exact e

/-- VBEGIN of a negative discrepancy (R195, R239). -/
theorem execVbegin_of_negative {d : Int} (hc : s.cfgOk = true) (ht : s.timeValid = true) (hd : d < 0) :
    exec (.vbegin d) s = .next (s.windowDropped.faulted .invalidWindow (encode (.vbegin d))) := by
  rcases execVbegin_cases d s with ⟨h | h, _⟩ | ⟨_, _, _, e⟩ | ⟨_, _, h, _⟩
  · exact absurd (hc.symm.trans h) nofun
  · exact absurd (ht.symm.trans h) nofun
  · exact e
  · omega

/-- SLICEW outside a window (R198). -/
theorem execSlicew_of_no_window (hw : s.winActive = false) :
    exec .slicew s = .next (s.msgCleared.faulted .sequence 0x00000032) := by
  rcases execSlicew_cases s with ⟨_, e⟩ | ⟨h, _⟩ | ⟨h, _⟩
  · exact e
  · exact absurd (hw.symm.trans h) nofun
  · exact absurd (hw.symm.trans h) nofun

end

/-! ## The window registers after VBEGIN (R195) -/

section
variable (s : State) (base : Dword) {d : Int}

/-- WIN_D holds every discrepancy VBEGIN accepts. -/
theorem State.toNat_windowOpened_winD (h0 : 0 ≤ d) (h1 : d ≤ 32767) :
    ((s.windowOpened d base).winD.toNat : Int) = d := by
  rw [State.windowOpened_winD, BitVec.toNat_ofInt]
  omega

/-- The window starts at its first offset. -/
theorem State.toInt_windowOpened_winI (h0 : 0 ≤ d) (h1 : d ≤ 32767) : (s.windowOpened d base).winI.toInt = -d := by
  rw [State.windowOpened_winI]
  exact BitVec.toInt_ofInt_eq_self (by omega) (by omega) (by omega)

/-- WIN_BASE holds every slice. -/
theorem State.winBase_windowOpened : (s.windowOpened d base).winBase = base := hiHalf_append_loHalf base

end

/-! ## The obligations -/

/-- Settles O39: the outcomes of SLICE, and what a stored counter reads as. -/
theorem sliceComputesTheCounter : Obligations.SliceComputesTheCounter := by
  intro s k _
  refine ⟨execSlice_of_not_ready k, fun hc ht hp c hcounter => ?_⟩
  have ht := State.timeValid_iff.2 ht
  rw [← State.slice_eq hp] at hcounter
  subst hcounter
  refine ⟨execSlice_outOfRange hc ht, fun h0 h1 =>
    ⟨_, execSlice_inRange hc ht h0 h1, rfl, ?_, fun j => ?_, fun a => ?_⟩⟩
  · exact State.toNat_withCounter_counter _ h0 h1
  · exact State.toNat_read_withCounter _ h0 h1
  · exact State.read_withCounter_outside s.msgCleared _

/-- Settles O40: the outcomes of VBEGIN, and what its registers hold. -/
theorem vbeginOpensTheWindow : Obligations.VbeginOpensTheWindow := by
  intro s d hwf
  obtain ⟨_, hmax⟩ : imm16Range d := of_decide_eq_true hwf
  refine ⟨execVbegin_of_not_ready d, fun hc ht => execVbegin_of_negative hc (State.timeValid_iff.2 ht),
    fun hc ht hp hd => ⟨_, execVbegin_opens hc (State.timeValid_iff.2 ht) hd, rfl, ?_, ?_, ?_⟩⟩
  · exact State.toNat_windowOpened_winD _ _ hd hmax
  · exact State.toInt_windowOpened_winI _ _ hd hmax
  · rw [← State.slice_eq hp, ← toNat_append_halves]
    have hlt : s.slice < 2 ^ 64 := quotient_lt s.time hp
    have hbase := State.winBase_windowOpened s.windowDropped (BitVec.ofNat 64 s.slice) (d := d)
    exact (congrArg BitVec.toNat hbase).trans (by rw [BitVec.toNat_ofNat, Nat.mod_eq_of_lt hlt])

/-- Settles O41: the outcomes of SLICEW, and what a stored counter reads as. -/
theorem slicewComputesTheCounter : Obligations.SlicewComputesTheCounter := by
  intro s
  refine ⟨execSlicew_of_no_window, fun hw c hcounter => ?_⟩
  rw [← toNat_append_halves] at hcounter
  subst hcounter
  refine ⟨fun hout => execSlicew_outOfRange hw ?_, fun h0 h1 =>
    ⟨_, execSlicew_inRange hw (counterInRange_iff.2 ⟨h0, h1⟩), rfl, ?_, fun j => ?_, fun a => ?_⟩⟩
  · rw [← Bool.not_eq_true, counterInRange_iff]
    exact fun hin => hout.elim (fun h => Int.not_lt.2 hin.1 h) (fun h => Int.not_lt.2 h hin.2)
  · exact State.toNat_withCounter_counter _ h0 h1
  · exact State.toNat_read_withCounter _ h0 h1
  · exact State.read_withCounter_outside s.msgCleared _

end Sys2Proof.Machine
end

section
/-! PROOFS. Every step keeps the invariant: its parts, what each named update makes of them, and a step by
its effect. -/

namespace Sys2Proof.Machine

/-! ## The parts of the invariant -/

section
variable {s : State}

theorem State.bufOk_iff :
    s.bufOk = true ↔ s.buf.wf = true ∧ ∀ c ∈ s.buf, (regionOf c.1).isBuf = true := by
  rw [State.bufOk, Bool.and_eq_true, List.all_eq_true]

theorem State.faultInv_iff :
    s.faultInv = true ↔
      (s.fault = true →
          s.errCode.isSome = true ∧ s.winActive = false ∧ s.resultValid = false ∧ s.matchAcc = false) ∧
        (s.fault = false → s.errCode.isNone = true ∧ s.errCmd = 0) := by
  cases hf : s.fault <;> simp [State.faultInv, hf, and_assoc]

/-- With FAULT = 0 it is enough that no fault is recorded. -/
theorem State.faultInv_of_unrecorded (hf : s.fault = false) (h : s.errCode = none ∧ s.errCmd = 0) :
    s.faultInv = true := by
  simp [State.faultInv, hf, h]

theorem State.keyInv_iff :
    s.keyInv = true ↔
      (s.keyValid = true → (1 ≤ s.keyLen.toNat ∧ s.keyLen.toNat ≤ 80) ∧
        ∀ j, s.keyLen.toNat ≤ j → j < 80 → s.buf.read (0x080 + j) = 0x00) := by
  cases hv : s.keyValid with
  | false => simp [State.keyInv, hv]
  | true =>
    simp only [State.keyInv, hv, Bool.not_true, Bool.false_or, Bool.and_eq_true, decide_eq_true_eq, List.all_eq_true,
      List.mem_range, Bool.or_eq_true, beq_iff_eq, or_iff_not_imp_left, not_lt, forall_const]
    exact and_congr_right' ⟨fun h j hj h80 => h j h80 hj, fun h j h80 hj => h j hj h80⟩

theorem State.msgInv_iff : s.msgInv = true ↔ s.msgBytes = be64 s.counter := beq_iff_eq

theorem State.codeInv_iff :
    s.codeInv = true ↔
      (s.valueValid = true → s.cfgOk = true) ∧
        (s.codeValid = true → s.valueValid = true ∧ s.codeLen = s.cfgDigits ∧
          s.codeVal = BitVec.ofNat 32 (s.value.toNat % 10 ^ s.cfgDigits.toNat) ∧
          s.buf.readBytes Config.codeBase Config.codeBuf =
            codeText s.cfgDigits.toNat (s.value.toNat % 10 ^ s.cfgDigits.toNat)) := by
  cases hv : s.valueValid <;> cases hc : s.codeValid <;> simp [State.codeInv, hv, hc, and_assoc]

theorem State.windowInv_iff :
    s.windowInv = true ↔
      (s.winD.toNat ≤ 32767 ∧ -(s.winD.toNat : Int) ≤ s.winI.toInt ∧ s.winI.toInt ≤ s.winD.toNat) ∧
        (s.winActive = true → s.cfgOk = true ∧ s.timeValid = true ∧ s.resultValid = false) ∧
        (s.resultValid = true → s.cfgOk = true) ∧
        (s.matchAcc = true → s.winActive = true ∨ s.resultValid = true) := by
  cases hw : s.winActive <;> cases hr : s.resultValid <;> cases hm : s.matchAcc <;>
    simp [State.windowInv, hw, hr, hm, and_assoc]

/-! ## What a write beside it leaves of each part -/

variable {a : Nat} {bs : List Byte}

theorem State.bufOk_writeBytes (h : s.bufOk = true)
    (hin : ∀ b, a ≤ b → b < a + bs.length → (regionOf b).isBuf = true) :
    ({ s with buf := s.buf.writeBytes a bs } : State).bufOk = true := by
  obtain ⟨hwf, hplaces⟩ := State.bufOk_iff.1 h
  refine State.bufOk_iff.2 ⟨Memory.wf_writeBytes _ _ _ hwf, fun c hc => ?_⟩
  rcases Memory.mem_writeBytes _ _ _ _ hc with ⟨h0, h1⟩ | hold
  · exact hin _ h0 h1
  · exact hplaces _ hold

theorem State.keyInv_writeBytes (h : s.keyInv = true) (hout : a + bs.length ≤ 0x080 ∨ 0x0D0 ≤ a) :
    ({ s with buf := s.buf.writeBytes a bs } : State).keyInv = true := by
  refine State.keyInv_iff.2 fun hv => ?_
  obtain ⟨hlen, hzero⟩ := State.keyInv_iff.1 h hv
  refine ⟨hlen, fun j hj h80 => ?_⟩
  exact (Memory.read_writeBytes_outside _ _ _ _ (by omega)).trans (hzero j hj h80)

theorem State.msgInv_writeBytes (h : s.msgInv = true) (hout : a + bs.length ≤ 0x140 ∨ 0x148 ≤ a) :
    ({ s with buf := s.buf.writeBytes a bs } : State).msgInv = true :=
  State.msgInv_iff.2 ((Memory.readBytes_writeBytes_disjoint _ hout.symm).trans (State.msgInv_iff.1 h))

theorem State.codeInv_writeBytes (h : s.codeInv = true) (hout : a + bs.length ≤ 0x150 ∨ 0x160 ≤ a) :
    ({ s with buf := s.buf.writeBytes a bs } : State).codeInv = true := by
  obtain ⟨hvalue, hcode⟩ := State.codeInv_iff.1 h
  refine State.codeInv_iff.2 ⟨hvalue, fun hc => ?_⟩
  obtain ⟨hv, hlen, hval, htext⟩ := hcode hc
  exact ⟨hv, hlen, hval, (Memory.readBytes_writeBytes_disjoint _ hout.symm).trans htext⟩

end

/-- KEY is filled up with zeros (R151). -/
theorem length_zeroFill_key {out : List Byte} (h : out.length ≤ 80) : (zeroFill Config.keyMax out).length = 80 := by
  rw [length_zeroFill, Config.keyMax, Nat.max_eq_right h]

/-- R155: a text that decodes has a whole byte. -/
theorem ne_nil_of_b32Decode {text out : List Byte} (h : b32Decode text = some out) : out ≠ [] := by
  simp only [b32Decode] at h
  split at h
  · cases h
  · next hgood =>
    cases h
    rw [Bool.or_eq_true, not_or, List.isEmpty_iff] at hgood
    exact hgood.2

/-! ## The window position (R45, R199) -/

section
variable {s : State}

/-- WIN_D is small, so WIN_I = WIN_D may be told of the integers. -/
theorem State.winI_eq_winD_iff (h : s.windowInv = true) : s.winI = s.winD ↔ s.winI.toInt = s.winD.toNat := by
  obtain ⟨⟨hd, _, _⟩, _⟩ := State.windowInv_iff.1 h
  rw [← BitVec.toInt_eq_toNat_of_lt (x := s.winD) (by omega), BitVec.toInt_inj]

/-- The move to the next offset adds 1 to the integer. -/
theorem State.toInt_windowMoved_winI (h : s.windowInv = true) : s.windowMoved.winI.toInt = s.winI.toInt + 1 := by
  obtain ⟨⟨hd, hlo, hhi⟩, _⟩ := State.windowInv_iff.1 h
  rw [State.windowMoved_winI, BitVec.toInt_add, show (1 : Word).toInt = 1 from rfl, Int.bmod_eq_of_le] <;> omega

end

/-! ## The named updates -/

namespace State.Inv

/-- Reset gives the invariant (R60). -/
theorem resetBlock (s : State) : s.resetBlock.Inv :=
  have h := resetMeetsTheInvariant
  ⟨h.buf, h.cfg, h.fault, h.key, h.msg, h.code, h.window⟩

section
variable {s : State} (h : s.Inv)
include h

theorem taken : s.taken.Inv := ⟨h.buf, h.cfg, h.fault, h.key, h.msg, h.code, h.window⟩

theorem answer (r : Reply) : (s.answer r).Inv := ⟨h.buf, h.cfg, h.fault, h.key, h.msg, h.code, h.window⟩

theorem accepted : s.accepted.Inv := h.taken.answer .ok

/-- A fault leaves no window and no result (R240). -/
theorem faulted (k : FaultKind) (w : Word) : (s.faulted k w).Inv where
  buf := h.buf
  cfg := h.cfg
  fault := rfl
  key := h.key
  msg := h.msg
  code := h.code
  window := State.windowInv_iff.2 ⟨(State.windowInv_iff.1 h.window).1, nofun, nofun, nofun⟩

/-- The return from a fault restores nothing, and there is nothing to restore (R242). -/
theorem clearFault : s.clearFault.Inv := ⟨h.buf, h.cfg, rfl, h.key, h.msg, h.code, h.window⟩

theorem keyCleared : s.keyCleared.Inv := ⟨h.buf, h.cfg, h.fault, rfl, h.msg, h.code, h.window⟩

theorem msgCleared : s.msgCleared.Inv := ⟨h.buf, h.cfg, h.fault, h.key, h.msg, h.code, h.window⟩

theorem valueCleared : s.valueCleared.Inv := ⟨h.buf, h.cfg, h.fault, h.key, h.msg, rfl, h.window⟩

theorem codeCleared : s.codeCleared.Inv :=
  ⟨h.buf, h.cfg, h.fault, h.key, h.msg, State.codeInv_iff.2 ⟨(State.codeInv_iff.1 h.code).1, nofun⟩, h.window⟩

theorem windowDropped : s.windowDropped.Inv where
  buf := h.buf
  cfg := h.cfg
  fault := by
    obtain ⟨hset, hclear⟩ := State.faultInv_iff.1 h.fault
    exact State.faultInv_iff.2 ⟨fun hf => ⟨(hset hf).1, rfl, rfl, rfl⟩, hclear⟩
  key := h.key
  msg := h.msg
  code := h.code
  window := State.windowInv_iff.2 ⟨(State.windowInv_iff.1 h.window).1, nofun, nofun, nofun⟩

theorem resultDropped : s.resultDropped.Inv where
  buf := h.buf
  cfg := h.cfg
  fault := by
    obtain ⟨hset, hclear⟩ := State.faultInv_iff.1 h.fault
    exact State.faultInv_iff.2 ⟨fun hf => ⟨(hset hf).1, (hset hf).2.1, rfl, rfl⟩, hclear⟩
  key := h.key
  msg := h.msg
  code := h.code
  window := by
    obtain ⟨hpos, hopen, _, _⟩ := State.windowInv_iff.1 h.window
    exact State.windowInv_iff.2 ⟨hpos, fun hw => ⟨(hopen hw).1, (hopen hw).2.1, rfl⟩, nofun, nofun⟩

theorem afterFirstLine (i : Instr) : (s.afterFirstLine i).Inv := by
  cases i with
  | b32dec => exact h.keyCleared
  | dtrunc => exact h.valueCleared
  | modred => exact h.codeCleared
  | slice | slicew => exact h.msgCleared
  | vbegin => exact h.windowDropped
  | cmp => exact h.resultDropped
  | cfglock | clrerr | sreset | cmpw => exact h

/-- A legal configuration is frozen (R131). -/
theorem frozen (hl : s.cfgLegal = true) : s.frozen.Inv where
  buf := h.buf
  cfg := hl
  fault := h.fault
  key := h.key
  msg := h.msg
  code := State.codeInv_iff.2 ⟨fun _ => rfl, (State.codeInv_iff.1 h.code).2⟩
  window := by
    obtain ⟨hpos, hopen, _, hmatch⟩ := State.windowInv_iff.1 h.window
    exact State.windowInv_iff.2 ⟨hpos, fun hw => ⟨rfl, (hopen hw).2⟩, fun _ => rfl, hmatch⟩

/-- A key of 1 to 80 bytes is stored, zeros after it (R151). -/
theorem withKey {out : List Byte} (h0 : out ≠ []) (h1 : out.length ≤ 80) : (s.withKey out).Inv where
  buf := State.bufOk_writeBytes h.buf fun b hlo hhi => by
    rw [length_zeroFill_key h1] at hhi
    rw [regionOf_of_range (g := .key) hlo (Nat.le_of_lt_succ hhi)]
    rfl
  cfg := h.cfg
  fault := h.fault
  key := by
    have hlen : (s.withKey out).keyLen.toNat = out.length := by
      rw [State.withKey_keyLen, BitVec.toNat_ofNat, Nat.mod_eq_of_lt (by omega)]
    have hpos : 1 ≤ out.length := List.length_pos_iff.2 h0
    rw [State.keyInv_iff, hlen]
    exact fun _ => ⟨⟨hpos, h1⟩, fun j => State.read_withKey_of_ge⟩
  msg := State.msgInv_writeBytes h.msg (.inl (by rw [length_zeroFill_key h1]; decide))
  code := State.codeInv_writeBytes h.code (.inl (by rw [length_zeroFill_key h1]; decide))
  window := h.window

/-- A value is stored: any code is of an earlier value (R171). -/
theorem withValue (hc : s.cfgOk = true) (hcode : s.codeValid = false) (o : BitVec 4) (v : BitVec 31) :
    (s.withValue o v).Inv where
  buf := h.buf
  cfg := h.cfg
  fault := h.fault
  key := h.key
  msg := h.msg
  code := State.codeInv_iff.2 ⟨fun _ => hc, fun hcv => absurd (hcode.symm.trans hcv) nofun⟩
  window := h.window

/-- The code stored is the rendering of the value (R176). -/
theorem withCode (hc : s.cfgOk = true) (hv : s.valueValid = true) :
    (s.withCode s.cfgDigits (s.value.toNat % 10 ^ s.cfgDigits.toNat)).Inv where
  buf := State.bufOk_writeBytes h.buf fun b hlo hhi => by
    rw [length_codeText] at hhi
    rw [regionOf_of_range (g := .code) hlo (Nat.le_of_lt_succ hhi)]
    rfl
  cfg := h.cfg
  fault := h.fault
  key := State.keyInv_writeBytes h.key (.inr (by decide))
  msg := State.msgInv_writeBytes h.msg (.inr (by decide))
  code := State.codeInv_iff.2 ⟨fun _ => hc, fun _ => ⟨hv, rfl, rfl, by
    have htext := Memory.readBytes_writeBytes_self s.buf Config.codeBase
      (codeText s.cfgDigits.toNat (s.value.toNat % 10 ^ s.cfgDigits.toNat))
    rwa [length_codeText] at htext⟩⟩
  window := h.window

/-- COUNTER and MSG are stored together (R39). -/
theorem withCounter (c : Dword) : (s.withCounter c).Inv where
  buf := State.bufOk_writeBytes h.buf fun b hlo hhi => by
    rw [length_be64] at hhi
    rw [regionOf_of_range (g := .msg) hlo (Nat.le_of_lt_succ hhi)]
    rfl
  cfg := h.cfg
  fault := h.fault
  key := State.keyInv_writeBytes h.key (.inr (by decide))
  msg := State.msgInv_iff.2 ((s.msgBytes_withCounter c).trans (congrArg be64 (s.withCounter_counter c).symm))
  code := State.codeInv_writeBytes h.code (.inl (by rw [length_be64]; decide))
  window := h.window

/-- A window opens around a slice, with no result (R195). -/
theorem windowOpened (hf : s.fault = false) (hc : s.cfgOk = true) (ht : s.timeValid = true) (hr : s.resultValid = false)
    {d : Int} (h0 : 0 ≤ d) (h1 : d ≤ 32767) (base : Dword) : (s.windowOpened d base).Inv where
  buf := h.buf
  cfg := h.cfg
  fault := State.faultInv_of_unrecorded hf (h.unrecorded hf)
  key := h.key
  msg := h.msg
  code := h.code
  window := by
    have hd := s.toNat_windowOpened_winD base h0 h1
    have hi := s.toInt_windowOpened_winI base h0 h1
    refine State.windowInv_iff.2 ⟨by omega, fun _ => ⟨hc, ht, hr⟩, fun _ => hc, fun _ => .inl rfl⟩

/-- CMP publishes its result outside a window (R211). -/
theorem withResult (hf : s.fault = false) (hc : s.cfgOk = true) (hw : s.winActive = false) (eq : Bool) :
    (s.withResult eq).Inv where
  buf := h.buf
  cfg := h.cfg
  fault := State.faultInv_of_unrecorded hf (h.unrecorded hf)
  key := h.key
  msg := h.msg
  code := h.code
  window := State.windowInv_iff.2 ⟨(State.windowInv_iff.1 h.window).1, fun hw' => absurd (hw.symm.trans hw') nofun,
    fun _ => hc, fun _ => .inr rfl⟩

/-- While a window is open there is no fault (R240). -/
theorem fault_of_winActive (hw : s.winActive = true) : s.fault = false :=
  eq_false_of_ne_true fun hf => absurd (hw.symm.trans ((State.faultInv_iff.1 h.fault).1 hf).2.1) nofun

/-- A comparison in a window is ORed into MATCH and consumes the code (R215). -/
theorem accumulated (hw : s.winActive = true) (eq : Bool) : (s.accumulated eq).Inv where
  buf := h.buf
  cfg := h.cfg
  fault := State.faultInv_of_unrecorded (h.fault_of_winActive hw) (h.unrecorded (h.fault_of_winActive hw))
  key := h.key
  msg := h.msg
  code := State.codeInv_iff.2 ⟨nofun, nofun⟩
  window := by
    obtain ⟨hpos, hopen, hres, _⟩ := State.windowInv_iff.1 h.window
    exact State.windowInv_iff.2 ⟨hpos, hopen, hres, fun _ => .inl hw⟩

/-- The last comparison makes the result final (R215). -/
theorem windowClosed (hw : s.winActive = true) : s.windowClosed.Inv where
  buf := h.buf
  cfg := h.cfg
  fault := State.faultInv_of_unrecorded (h.fault_of_winActive hw) (h.unrecorded (h.fault_of_winActive hw))
  key := h.key
  msg := h.msg
  code := h.code
  window := by
    obtain ⟨hpos, hopen, _, _⟩ := State.windowInv_iff.1 h.window
    exact State.windowInv_iff.2 ⟨hpos, nofun, fun _ => (hopen hw).1, fun _ => .inr rfl⟩

/-- An earlier comparison leaves an offset to move to (R215). -/
theorem windowMoved (hi : s.winI ≠ s.winD) : s.windowMoved.Inv where
  buf := h.buf
  cfg := h.cfg
  fault := h.fault
  key := h.key
  msg := h.msg
  code := h.code
  window := by
    obtain ⟨⟨hd, hlo, hhi⟩, hrest⟩ := State.windowInv_iff.1 h.window
    have hne := mt (State.winI_eq_winD_iff h.window).2 hi
    have hmoved := State.toInt_windowMoved_winI h.window
    exact State.windowInv_iff.2 ⟨by rw [hmoved, State.windowMoved_winD]; omega, hrest⟩

/-- The host writes no byte of KEY, MSG or CODE (R71). -/
theorem writeByte {a : Nat} (ha : busReject s true a 1 = none) (b : Byte) : (s.writeByte a b).Inv := by
  have hplace := byteWrite_accepted_iff.1 ha
  exact {
    buf := State.bufOk_writeBytes (bs := [b]) h.buf fun c hlo hhi => by
      obtain rfl : c = a := Nat.le_antisymm (Nat.le_of_lt_succ hhi) hlo
      exact (busReject_byte ha).1
    cfg := h.cfg
    fault := h.fault
    key := State.keyInv_writeBytes (bs := [b]) h.key (by simp only [List.length_singleton]; omega)
    msg := State.msgInv_writeBytes (bs := [b]) h.msg (by simp only [List.length_singleton]; omega)
    code := State.codeInv_writeBytes (bs := [b]) h.code (by simp only [List.length_singleton]; omega)
    window := h.window }

/-- The configuration is written while it is not frozen, when no value and no code are valid (R76, R171). -/
theorem writeConfig (hc : s.cfgOk = false) (digits period alg : Word) :
    ({ s with cfgDigits := digits, cfgPeriod := period, cfgAlg := alg } : State).Inv where
  buf := h.buf
  cfg := by simp [State.cfgInv, hc]
  fault := h.fault
  key := h.key
  msg := h.msg
  code := by
    obtain ⟨hvalue, hcode⟩ := State.codeInv_iff.1 h.code
    exact State.codeInv_iff.2 ⟨hvalue, fun hcv => absurd (hc.symm.trans (hvalue (hcode hcv).1)) nofun⟩
  window := h.window

/-- TIME_VALID is kept by a write of TIME (R34). -/
theorem writeTime (lo hi : Word) {m : BitVec 2} (hm : m &&& s.tmask = s.tmask) :
    ({ s with timeLo := lo, timeHi := hi, tmask := m } : State).Inv where
  buf := h.buf
  cfg := h.cfg
  fault := h.fault
  key := h.key
  msg := h.msg
  code := h.code
  window := by
    obtain ⟨hpos, hopen, hrest⟩ := State.windowInv_iff.1 h.window
    refine State.windowInv_iff.2 ⟨hpos, fun hw => ?_, hrest⟩
    obtain ⟨hc, ht, hr⟩ := hopen hw
    exact ⟨hc, State.timeValid_of_tmask hm ht, hr⟩

/-- An accepted register write (R76). -/
theorem writeReg {r : Reg} (hr : rightReject s true r.access = none) (w : Word) : (s.writeReg r w).Inv := by
  have hcfg : r.access = .cfgLocked → s.cfgOk = false := fun hacc =>
    eq_false_of_ne_true fun hc => ne_cfgLocked_of_accepted hc hr hacc
  cases r with
  | cfgDigits => exact h.writeConfig (hcfg rfl) w s.cfgPeriod s.cfgAlg
  | cfgPeriod => exact h.writeConfig (hcfg rfl) s.cfgDigits w s.cfgAlg
  | cfgAlg => exact h.writeConfig (hcfg rfl) s.cfgDigits s.cfgPeriod w
  | timeLo => exact h.writeTime w s.timeHi (s.tmask_writeReg .timeLo w)
  | timeHi => exact h.writeTime s.timeLo w (s.tmask_writeReg .timeHi w)
  | _ => exact ⟨h.buf, h.cfg, h.fault, h.key, h.msg, h.code, h.window⟩

/-! ## A command and a step -/

/-- A command that completes keeps the invariant. -/
theorem completes {i : Instr} {t : State} (hf : s.fault = false) (hwf : i.WellFormed) (hdone : Completes s i t) :
    t.Inv := by
  cases hdone with
  | cfglock _ hl => exact h.frozen hl
  | clrerr => exact h.clearFault
  | sreset => exact resetBlock s
  | b32dec hl hd =>
    exact h.keyCleared.withKey (ne_nil_of_b32Decode hd) (length_b32Decode_strippedText_le hl hd)
  | dtrunc hc => exact h.valueCleared.withValue hc rfl _ _
  | modred hc hv => exact h.codeCleared.withCode hc hv
  | slice | slicew => exact h.msgCleared.withCounter _
  | vbegin hc ht hd =>
    obtain ⟨_, hmax⟩ : imm16Range _ := of_decide_eq_true hwf
    exact h.windowDropped.windowOpened hf hc ht rfl hd hmax _
  | cmp hc _ hw => exact h.resultDropped.withResult hf hc hw _
  | cmpwCloses hw => exact (h.accumulated hw _).windowClosed hw
  | cmpwMoves hw _ hi => exact (h.accumulated hw _).windowMoved hi

/-- So does every effect of a step. -/
theorem stepEffect {t : State} (heffect : StepEffect s t) : t.Inv := by
  cases heffect with
  | idle => exact h
  | answered r => exact h.taken.answer r
  | reset u => exact resetBlock u
  | byte _ hbuf hr => exact (h.taken.writeByte (busReject_byte_eq_none_iff.2 ⟨hbuf, hr⟩) _).answer .ok
  | register _ _ _ hr => exact (h.taken.writeReg hr _).answer .ok
  | returns => exact h.accepted.clearFault
  | illegal => exact h.accepted.faulted _ _
  | @faults i k => exact (h.accepted.afterFirstLine i).faulted k _
  | completes hissue _ hdone =>
    obtain ⟨hf, _, _, _, hdecode⟩ := hissue
    exact h.accepted.completes hf (wellFormed_of_decodeWord hdecode) hdone

end

end State.Inv

/-! ## The obligation -/

/-- Settles O47, effect by effect. -/
theorem stepKeepsTheInvariant : Obligations.StepKeepsTheInvariant := fun _ _ h hstep => h.stepEffect (step_effect hstep)

end Sys2Proof.Machine
end

section
/-! PROOFS. `verifyCode` of R5 by the rounds of R200: a round by the meanings of its commands, then the rounds of a
window by induction on their number. -/

namespace Sys2Proof.Machine

section
variable {v : Verification} {i : Int} {m : Bool} {s : State}

/-! ## One round (R200) -/

/-- A slice command, the external HMAC and `HOTP`, as commands of a round. -/
theorem State.KeyReady.andThen_codedAt {alg digits : Word} {key : List Byte} (h : s.KeyReady alg digits key) (c : Dword)
    (f : State → Result) :
    (andThen (execDtrunc ((s.msgCleared.withCounter c).withDigest (hmac s.cfgAlg s.keyBytes (be64 c)))) fun u =>
      andThen (execModred u) f) = f (s.codedAt c) := by
  have hhotp := exec_hotp (s := (s.msgCleared.withCounter c).withDigest (hmac s.cfgAlg s.keyBytes (be64 c))) h.frozen
    (h.dlen_hmac _)
  exact (andThen_assoc _ _ _).symm.trans (congrArg (andThen · f) hhotp)

/-- A round whose counter is in range compares the candidate with the code of the counter. -/
theorem State.Verifying.windowRound_eq (h : s.Verifying v i m) (hc : counterInRange (v.base + i) = true) :
    windowRound s = .next (s.roundDone v (v.base + i)) := by
  rw [← h.base, ← h.offset] at hc ⊢
  have hslicew := execSlicew_inRange h.active hc
  generalize hcounter : BitVec.ofInt 64 ((s.winBase.toNat : Int) + s.winI.toInt) = c at hslicew
  have hcmpw := execCmpw_advances (s := s.codedAt c) h.active rfl
  rw [h.ready.codeEqCand_codedAt h.cand] at hcmpw
  have hhotp := h.ready.andThen_codedAt c execCmpw
  rw [← h.ready.keyBytes_withCounter c, ← s.msgCleared.msgBytes_withCounter c] at hhotp
  rw [State.roundDone, hcounter, Verification.accepts, hcounter]
  exact (congrArg (andThen · _) hslicew).trans (hhotp.trans hcmpw)

/-- The state after the last round of the window of `v`: the result is final, and is the OR of `m` and of the
comparisons from the offset `i` on (R199). -/
structure State.Verified (v : Verification) (i : Int) (m : Bool) (t : State) : Prop where
  clean : t.fault = false
  closed : t.winActive = false
  final : t.resultValid = true
  last : t.winI = t.winD
  verdict : t.matchAcc = true ↔ m = true ∨ ∃ j : Int, i ≤ j ∧ j ≤ v.d ∧ v.accepts (v.base + j) = true

/-- The round of the last offset closes the window there (R215). -/
theorem State.Verifying.roundDone_verified (h : s.Verifying v i m) (hi : i = v.d) :
    (s.roundDone v (v.base + i)).Verified v i m := by
  obtain ⟨hclean, hfinal, hmatch⟩ := h.roundDone_last hi (v.base + i)
  have hlast : s.winI = s.winD := BitVec.toInt_inj.1 (by rw [h.offset, h.last, hi])
  have e : s.roundDone v (v.base + i) =
      ((s.codedAt (BitVec.ofInt 64 (v.base + i))).accumulated (v.accepts (v.base + i))).windowClosed := if_pos hlast
  refine ⟨hclean, by rw [e]; rfl, hfinal, by rw [e]; exact hlast, ?_⟩
  rw [hmatch, Bool.or_eq_true]
  refine or_congr_right ⟨fun hacc => ⟨i, le_rfl, hi.le, hacc⟩, fun ⟨j, hlo, hhi, hacc⟩ => ?_⟩
  obtain rfl : j = i := by omega
  exact hacc

/-! ## The rounds of a window -/

/-- The comparison of the first round and those of the others. -/
theorem State.Verified.of_next {t : State} (hi : i ≤ v.d)
    (h : t.Verified v (i + 1) (m || v.accepts (v.base + i))) : t.Verified v i m := by
  refine { h with verdict := h.verdict.trans ?_ }
  rw [Bool.or_eq_true, or_assoc]
  refine or_congr_right ⟨?_, fun ⟨j, hlo, hhi, hacc⟩ => ?_⟩
  · rintro (hacc | ⟨j, hlo, hhi, hacc⟩)
    · exact ⟨i, le_rfl, hi, hacc⟩
    · exact ⟨j, by omega, hhi, hacc⟩
  · rcases hlo.eq_or_lt with rfl | hlt
    · exact .inl hacc
    · exact .inr ⟨j, hlt, hhi, hacc⟩

/-- The rounds left in a window evaluate every offset left (R199, R200). -/
theorem State.Verifying.windowRounds_verified (n : Nat) (h : s.Verifying v i m) (hn : i + n = v.d + 1)
    (hin : ∀ j, i ≤ j → j ≤ v.d → counterInRange (v.base + j) = true) :
    ∃ t, windowRounds n s = .next t ∧ t.Verified v i m := by
  induction n generalizing i m s with
  | zero => have := h.high; omega
  | succ n ih =>
    have hround := h.windowRound_eq (hin i le_rfl h.high)
    rw [windowRounds, hround, andThen_next]
    by_cases hi : i = v.d
    · obtain rfl : n = 0 := by omega
      exact ⟨_, rfl, h.roundDone_verified hi⟩
    · have hnext := h.roundDone_next (lt_of_le_of_ne h.high hi) (v.base + i)
      obtain ⟨t, ht, hverified⟩ := ih hnext (by omega) fun j hlo => hin j (by omega)
      exact ⟨t, ht, hverified.of_next h.high⟩

end

/-! ## The window before its rounds -/

/-- VBEGIN of a block with a valid key and a loaded candidate opens the window at its first offset (R195). -/
theorem State.verifying_windowOpened {s : State} {d : Nat} {cand : List Byte}
    (hready : s.KeyReady s.cfgAlg s.cfgDigits s.keyBytes) (hcand : s.HoldsCand cand) (hd : d ≤ 32767) :
    (s.windowDropped.windowOpened d (BitVec.ofNat 64 s.slice)).Verifying
      ⟨s.cfgAlg, s.cfgDigits, s.keyBytes, cand, d, s.slice⟩ (-d) false where
  ready := { hready with }
  cand := { hcand with }
  active := rfl
  base := by
    have hlt : s.slice < 2 ^ 64 := quotient_lt s.time (State.cfgPeriod_ne_zero hready.legal)
    rw [State.winBase_windowOpened, BitVec.toNat_ofNat, Nat.mod_eq_of_lt hlt]
  last := BitVec.toInt_ofInt_eq_self (by omega) (by omega) (by omega)
  offset := State.toInt_windowOpened_winI _ _ (by omega) (by omega)
  acc := rfl
  small := hd
  low := le_rfl
  high := by omega

/-- The invariant makes a valid key ready (R38, R131). -/
theorem State.Inv.keyReady {s : State} (h : s.Inv) (hf : s.fault = false) (hc : s.cfgOk = true)
    (hk : s.keyValid = true) : s.KeyReady s.cfgAlg s.cfgDigits s.keyBytes where
  clean := hf
  frozen := hc
  legal := h.cfgLegal hc
  alg := rfl
  digits := rfl
  keyValid := hk
  keyLen := (State.keyInv_iff.1 h.key hk).1.2
  keyBytes := rfl

/-! ## The obligation -/

/-- Settles O50: the window opens at its first offset, and its rounds evaluate every one. -/
theorem windowRoundsComputeVerifyCode : Obligations.WindowRoundsComputeVerifyCode := by
  intro s d cand hinv hf hc ht hk hd hlow hhigh hlen hbytes
  have hopened := State.verifying_windowOpened (hinv.keyReady hf hc hk) ⟨hlen, hbytes⟩ hd
  have hin : ∀ j : Int, -(d : Int) ≤ j → j ≤ d → counterInRange (s.slice + j) = true := fun j h0 h1 =>
    counterInRange_iff.2 ⟨by omega, by omega⟩
  obtain ⟨t, hrun, hverified⟩ := hopened.windowRounds_verified (2 * d + 1) (by push_cast; omega) hin
  refine ⟨t, ?_, hverified.clean, hverified.closed, hverified.final, hverified.last, ?_⟩
  · rw [execVbegin_opens hc ht (Int.natCast_nonneg d), andThen_next, hrun]
  · rw [hverified.verdict]
    simp [Verification.accepts]

end Sys2Proof.Machine
end

section
/-! PROOFS. A window counts its comparisons (R199): the operations of a run and the comparison results among them, what
a step in an open window does, the step that makes the result final. -/

namespace Sys2Proof.Machine

/-! ## Steps and runs -/

section
variable {s t : State}

/-- Every step answers a next state (R276). -/
theorem step_eq_next (s : State) : ∃ t, step s = .next t := by
  cases hp : s.pending with
  | nil => exact ⟨s, step_of_empty hp⟩
  | cons op rest =>
    rw [step_of_pending hp]
    cases op with
    | read | reset => exact ⟨_, rfl⟩
    | write a n d =>
      obtain ⟨t, _, ht, _⟩ := hostWrite_answers a n d s.taken
      exact ⟨t, ht⟩

/-- A run begins with a step. -/
theorem exists_step_of_run_succ {n : Nat} (h : Host.Core.run Sys2Proof.core (n + 1) s = .next t) :
    ∃ u, step s = .next u ∧ Host.Core.run Sys2Proof.core n u = .next t := by
  obtain ⟨u, hu⟩ := step_eq_next s
  exact ⟨u, hu, (run_succ_of_step hu n).symm.trans h⟩

/-- A run keeps the invariant. -/
theorem State.Inv.run {n : Nat} (h : s.Inv) (hrun : Host.Core.run Sys2Proof.core n s = .next t) : t.Inv := by
  induction n generalizing s with
  | zero => cases hrun; exact h
  | succ n ih =>
    obtain ⟨u, hu, hrun⟩ := exists_step_of_run_succ hrun
    exact ih (stepKeepsTheInvariant s u h hu) hrun

/-- A register write leaves the operations to come alone. -/
theorem State.pending_writeReg (s : State) (r : Reg) (w : Word) : (s.writeReg r w).pending = s.pending := by
  cases r <;> rfl

/-- A step takes one operation, if there is one. -/
theorem StepEffect.pending_eq (h : StepEffect s t) : t.pending = s.pending.tail := by
  cases h with
  | idle hp => rw [hp, List.tail_nil]
  | answered | byte | returns | illegal => rfl
  | reset u _ hu => rcases hu with rfl | rfl <;> rfl
  | register => exact State.pending_writeReg ..
  | @faults i => cases i <;> rfl
  | completes _ _ hdone => cases hdone <;> rfl

/-- A step that issues a command runs it in the state that has accepted its word (R101). -/
theorem step_of_issues {i : Instr} (h : s.issues i) : step s = exec i s.accepted := by
  obtain ⟨hf, w, rest, hp, hd⟩ := h
  rw [step_of_pending hp, commandOp, perform_write, hostWrite_command]
  exact submit_of_decodes (s := s.accepted) hf hd

/-! ## The comparisons among the operations -/

/-- The next operation issues the word of CMPW. -/
def State.nextIsCmpw (s : State) : Bool := (s.pending.head?.map HostOp.isCmpw).getD false

/-- The result of the comparison the next operation makes, if it makes one. -/
def State.nextResult (s : State) : List Bool := if s.nextIsCmpw then [s.codeEqCand] else []

theorem State.nextIsCmpw_iff : s.nextIsCmpw = true ↔ ∃ rest, s.pending = commandOp (encode .cmpw) :: rest := by
  cases hp : s.pending <;> simp [State.nextIsCmpw, hp, HostOp.isCmpw]

/-- Without a fault the word of CMPW executes (R24, R101). -/
theorem State.issues_cmpw_iff (hf : s.fault = false) : s.issues .cmpw ↔ s.nextIsCmpw = true := by
  rw [State.nextIsCmpw_iff]
  constructor
  · rintro ⟨_, w, rest, hp, hd⟩
    exact ⟨rest, by rw [hp, encode_of_decodeWord hd]⟩
  · rintro ⟨rest, hp⟩
    exact ⟨hf, _, rest, hp, decodeWord_encode rfl⟩

theorem cmpwResults_succ (h : step s = .next t) (n : Nat) :
    cmpwResults (n + 1) s = s.nextResult ++ cmpwResults n t := by
  have hunfold : cmpwResults (n + 1) s =
      if s.nextIsCmpw then s.codeEqCand :: cmpwResults n t else cmpwResults n t := by
    simp only [cmpwResults, h]
    rfl
  rw [hunfold, State.nextResult]
  split <;> rfl

/-- The same from the other end of a run. -/
theorem cmpwResults_succ_last {n : Nat} (h : Host.Core.run Sys2Proof.core n s = .next t) :
    cmpwResults (n + 1) s = cmpwResults n s ++ t.nextResult := by
  induction n generalizing s with
  | zero =>
    cases h
    obtain ⟨u, hu⟩ := step_eq_next t
    rw [cmpwResults_succ hu]
    exact List.append_nil _
  | succ n ih =>
    obtain ⟨u, hu, hrun⟩ := exists_step_of_run_succ h
    rw [cmpwResults_succ hu, ih hrun, ← List.append_assoc, ← cmpwResults_succ hu]

/-- There is one result for each CMPW. -/
theorem length_cmpwResults (n : Nat) (s : State) :
    (cmpwResults n s).length = (s.pending.take n).countP HostOp.isCmpw := by
  induction n generalizing s with
  | zero => rfl
  | succ n ih =>
    obtain ⟨u, hu⟩ := step_eq_next s
    rw [cmpwResults_succ hu, List.length_append, ih, (step_effect hu).pending_eq, State.nextResult, State.nextIsCmpw]
    cases s.pending with
    | nil => simp
    | cons op rest =>
      rw [List.take_succ_cons, List.countP_cons, Nat.add_comm]
      cases hop : op.isCmpw <;> simp [hop]

/-! ## What opens a window or resets the block -/

/-- A VBEGIN restarts the window. -/
theorem restarts_of_issues_vbegin {d : Int} (h : s.issues (.vbegin d)) :
    ∃ op ∈ s.pending.head?, op.restarts = true := by
  obtain ⟨_, w, rest, hp, hd⟩ := h
  obtain rfl := encode_of_decodeWord hd
  exact ⟨_, by rw [hp]; rfl, by simp [commandOp, HostOp.restarts, Instr.op]⟩

/-- A command other than SRESET is not a reset. -/
theorem State.issues.not_resets {i : Instr} (h : s.issues i) (hi : i ≠ .sreset) : ¬ s.resets := by
  obtain ⟨_, w, rest, hp, hd⟩ := h
  rintro ⟨rest', hreset | hword⟩
  · cases hp.symm.trans hreset
  · cases hp.symm.trans hword
    exact hi (Except.ok.inj (hd.symm.trans rfl))

/-- What holds of the first operations holds of the first one and of the others. -/
theorem forall_take_succ {n : Nat} {l : List HostOp} {p : HostOp → Prop} (h : ∀ op ∈ l.take (n + 1), p op) :
    (∀ op ∈ l.head?, p op) ∧ ∀ op ∈ l.tail.take n, p op := by
  cases l with
  | nil => exact ⟨nofun, by simp⟩
  | cons a l => simpa using h

/-- Without a VBEGIN no window opens. -/
theorem winActive_of_run {n : Nat} (hclosed : s.winActive = false)
    (hops : ∀ op ∈ s.pending.take n, op.restarts = false)
    (hrun : Host.Core.run Sys2Proof.core n s = .next t) : t.winActive = false := by
  induction n generalizing s with
  | zero => cases hrun; exact hclosed
  | succ n ih =>
    obtain ⟨u, hu, hrun⟩ := exists_step_of_run_succ hrun
    obtain ⟨hhead, htail⟩ := forall_take_succ hops
    rw [← (step_effect hu).pending_eq] at htail
    refine ih (eq_false_of_ne_true fun hopen => ?_) htail hrun
    obtain ⟨i, hi, hf, _⟩ | ⟨⟨⟩, _⟩ | ⟨⟨⟩, _⟩ := (step_effect hu).sets_flag (f := .winActive) hclosed hopen
    cases i <;> cases hf
    obtain ⟨op, hop, hrestarts⟩ := restarts_of_issues_vbegin hi
    exact absurd ((hhead op hop).symm.trans hrestarts) nofun

/-! ## A step in an open window -/

/-- What stands between two states of one window, when the comparisons made between them gave `results` (R199). -/
structure WindowRan (s : State) (results : List Bool) (t : State) : Prop where
  winD : t.winD = s.winD
  winBase : t.winBase = s.winBase
  winI : t.winI.toInt = s.winI.toInt + (results.length : Int)
  matchAcc : t.matchAcc = (s.matchAcc || results.any id)

/-- The results of consecutive runs are joined. -/
theorem WindowRan.append {u : State} {r r' : List Bool} (h : WindowRan s r u) (h' : WindowRan u r' t) :
    WindowRan s (r ++ r') t where
  winD := h'.winD.trans h.winD
  winBase := h'.winBase.trans h.winBase
  winI := by rw [h'.winI, h.winI, List.length_append]; push_cast; omega
  matchAcc := by rw [h'.matchAcc, h.matchAcc, List.any_append, Bool.or_assoc]

/-- Where the window and MATCH stand still there was no comparison. -/
theorem WindowRan.of_same (hd : t.winD = s.winD) (hb : t.winBase = s.winBase) (hi : t.winI = s.winI)
    (hm : t.matchAcc = s.matchAcc) : WindowRan s [] t :=
  ⟨hd, hb, by simp [hi], by simp [hm]⟩

/-- The host writes no register of the window (R21). -/
theorem WindowRan.writeReg (s : State) (r : Reg) (w : Word) : WindowRan s [] (s.writeReg r w) := by
  cases r <;> exact .of_same rfl rfl rfl rfl

/-- In an open window only CMPW, VBEGIN and SRESET complete with another window or MATCH. -/
theorem Completes.windowRan {i : Instr} (h : Completes s i t) (hw : s.winActive = true) (hc : i ≠ .cmpw)
    (hv : ∀ d, i ≠ .vbegin d) (hr : i ≠ .sreset) : WindowRan s [] t := by
  cases h with
  | cfglock | clrerr | b32dec | dtrunc | modred | slice | slicew => exact .of_same rfl rfl rfl rfl
  | sreset => exact absurd rfl hr
  | vbegin => exact absurd rfl (hv _)
  | cmp _ _ hclosed => exact absurd (hw.symm.trans hclosed) nofun
  | cmpwCloses | cmpwMoves => exact absurd rfl hc

/-- The answer to a command word changes neither MATCH nor what the comparator reads. -/
@[simp] theorem State.accepted_matchAcc (s : State) : s.accepted.matchAcc = s.matchAcc := rfl
@[simp] theorem State.accepted_codeEqCand (s : State) : s.accepted.codeEqCand = s.codeEqCand := rfl

/-- A CMPW that leaves the window open has compared and moved (R215). -/
theorem State.Inv.windowRan_cmpw (h : s.Inv) (hissue : s.issues .cmpw) (hstep : step s = .next t)
    (hopen : t.winActive = true) : WindowRan s [s.codeEqCand] t := by
  have hexec := (step_of_issues hissue).symm.trans hstep
  rcases execCmpw_cases s.accepted with ⟨_, e⟩ | ⟨_, _, _, e⟩ | ⟨_, _, _, e⟩ <;> cases e.symm.trans hexec
  · cases hopen
  · cases hopen
  · have hmoved := State.toInt_windowMoved_winI (h.accepted.accumulated hopen s.codeEqCand).window
    exact ⟨rfl, rfl, hmoved, by simp⟩

/-- A step that leaves the window open and does not restart it counts the comparison it makes, if it makes one. -/
theorem State.Inv.windowRan_step (h : s.Inv) (hw : s.winActive = true)
    (hop : ∀ op ∈ s.pending.head?, op.restarts = false) (hstep : step s = .next t) (hopen : t.winActive = true) :
    WindowRan s s.nextResult t := by
  have hf := h.fault_of_winActive hw
  cases hn : s.nextIsCmpw with
  | true =>
    rw [State.nextResult, if_pos hn]
    exact h.windowRan_cmpw ((State.issues_cmpw_iff hf).2 hn) hstep hopen
  | false =>
    rw [State.nextResult, if_neg (by rw [hn]; decide)]
    cases step_effect hstep with
    | idle | answered | byte => exact .of_same rfl rfl rfl rfl
    | @register _ d r => exact { WindowRan.writeReg s.taken r d with }
    | reset | illegal | faults => cases hopen
    | returns hfault => exact absurd (hf.symm.trans hfault) nofun
    | @completes i _ hissue hi hdone =>
      refine { hdone.windowRan hw ?_ ?_ hi with }
      · rintro rfl
        exact absurd (((State.issues_cmpw_iff hf).1 hissue).symm.trans hn) nofun
      · rintro d rfl
        obtain ⟨op, hmem, hrestarts⟩ := restarts_of_issues_vbegin hissue
        exact absurd ((hop op hmem).symm.trans hrestarts) nofun

/-- So does a run. -/
theorem State.Inv.windowRan_run {n : Nat} (h : s.Inv) (hw : s.winActive = true)
    (hops : ∀ op ∈ s.pending.take n, op.restarts = false)
    (hrun : Host.Core.run Sys2Proof.core n s = .next t) (hopen : t.winActive = true) :
    WindowRan s (cmpwResults n s) t := by
  induction n generalizing s with
  | zero => cases hrun; exact .of_same rfl rfl rfl rfl
  | succ n ih =>
    obtain ⟨u, hu, hrun⟩ := exists_step_of_run_succ hrun
    obtain ⟨hhead, htail⟩ := forall_take_succ hops
    rw [← (step_effect hu).pending_eq] at htail
    have hwu : u.winActive = true := eq_true_of_ne_false fun hclosed =>
      absurd (hopen.symm.trans (winActive_of_run hclosed htail hrun)) nofun
    rw [cmpwResults_succ hu]
    exact (h.windowRan_step hw hhead hu hwu).append (ih (stepKeepsTheInvariant s u h hu) hwu htail hrun)

/-! ## The step that makes the result final -/

/-- No result is final while the window is open (R199). -/
theorem State.Inv.resultValid_of_winActive (h : s.Inv) (hw : s.winActive = true) : s.resultValid = false :=
  ((State.windowInv_iff.1 h.window).2.1 hw).2.2

/-- A step from an open window that makes the result final is the CMPW of a valid code at the last offset (R215). -/
theorem State.Inv.closes_of_final (h : s.Inv) (hw : s.winActive = true) (hstep : step s = .next t)
    (hfinal : t.resultValid = true) :
    s.issues .cmpw ∧ s.winI = s.winD ∧ t = (s.accepted.accumulated s.codeEqCand).windowClosed := by
  have hr := h.resultValid_of_winActive hw
  obtain ⟨i, hissue, hf, hdone⟩ | ⟨⟨⟩, _⟩ | ⟨⟨⟩, _⟩ := (step_effect hstep).sets_flag (f := .resultValid) hr hfinal
  cases i <;> cases hf
  · cases hdone with
    | cmp _ _ hclosed => exact absurd (hw.symm.trans hclosed) nofun
  · cases hdone with
    | cmpwCloses _ _ hlast => exact ⟨hissue, hlast, rfl⟩
    | cmpwMoves => exact absurd (hr.symm.trans hfinal) nofun

/-- A step that closes the window without a fault and without a reset makes the result final. -/
theorem final_of_closed (hw : s.winActive = true) (hstep : step s = .next t) (hclosed : t.winActive = false)
    (hf : t.fault = false) (hr : ¬ s.resets) : t.resultValid = true := by
  obtain h | ⟨i, _, _, ht⟩ | ⟨i, _, hclears, hdone⟩ | ⟨_, _, ht⟩ | ⟨⟨⟩, _⟩ :=
    (step_effect hstep).clears_flag (f := .winActive) hw hclosed
  · exact absurd h hr
  · exact absurd (hf.symm.trans ht) nofun
  · cases i <;> cases hclears
    cases hdone with
    | cmpwCloses => rfl
    | cmpwMoves => exact absurd (hw.symm.trans hclosed) nofun
  · exact absurd (hf.symm.trans ht) nofun

/-- The CMPW of a valid code at the last offset makes the result final (R215). -/
theorem final_of_cmpw_last (hissue : s.issues .cmpw) (hw : s.winActive = true) (hc : s.codeValid = true)
    (hlast : s.winI = s.winD) (hstep : step s = .next t) : t.resultValid = true := by
  have hexec := (step_of_issues hissue).symm.trans hstep
  rcases execCmpw_cases s.accepted with ⟨h | h, _⟩ | ⟨_, _, _, e⟩ | ⟨_, _, h, _⟩
  · exact absurd (hw.symm.trans h) nofun
  · exact absurd (hc.symm.trans h) nofun
  · cases e.symm.trans hexec; rfl
  · exact absurd hlast h

end

/-! ## The obligation -/

/-- Settles O49: a run that stays in the window counts its comparisons, and the step after it that makes the result
final is one more of them, at the last offset. -/
theorem windowCountsEveryComparison : Obligations.WindowCountsEveryComparison := by
  intro n s t hinv hw hops hrun hopen
  have ht := hinv.run hrun
  obtain ⟨hD, hbase, hI, hmatch⟩ := hinv.windowRan_run hw hops hrun hopen
  obtain ⟨⟨_, hlo, hhi⟩, _⟩ := State.windowInv_iff.1 ht.window
  have hlen := length_cmpwResults n s
  have hr := ht.resultValid_of_winActive hopen
  refine ⟨⟨hD, hbase, hlo, hhi, by omega, fun h0 => by rw [hD]; omega, hmatch, by simp [State.result_eq, hr]⟩,
    fun u hu => ⟨⟨fun hfinal => ?_, fun ⟨hclosed, hf, hreset⟩ => final_of_closed hopen hu hclosed hf hreset⟩,
      fun hissue hc hlast => final_of_cmpw_last hissue hopen hc hlast hu, fun hfinal => ?_⟩⟩
  · obtain ⟨hissue, _, rfl⟩ := ht.closes_of_final hopen hu hfinal
    exact ⟨rfl, ht.fault_of_winActive hopen, hissue.not_resets nofun⟩
  · obtain ⟨hissue, hlast, rfl⟩ := ht.closes_of_final hopen hu hfinal
    have hnext : t.nextResult = [t.codeEqCand] :=
      if_pos ((State.issues_cmpw_iff (ht.fault_of_winActive hopen)).1 hissue)
    have hresults := cmpwResults_succ_last hrun
    rw [hnext] at hresults
    have hcount := length_cmpwResults (n + 1) s
    rw [hresults, List.length_append, List.length_singleton] at hcount
    have hend := (State.winI_eq_winD_iff ht.window).1 hlast
    rw [hD] at hend
    refine ⟨by omega, fun h0 => by omega, rfl, hlast.trans hD, ?_⟩
    rw [hresults, List.any_append, ← Bool.or_assoc, ← hmatch]
    simp

end Sys2Proof.Machine
end

section
/-! PROOFS. The comparison (44_compare.md): it is string equality, CMP publishes it, and CMPW gathers it into MATCH and
advances the window. -/

namespace Sys2Proof.Machine

section
variable {s : State}

/-! ## The valid code (R176, R213) -/

/-- A valid code stands under a frozen configuration and is the rendering of the value. -/
theorem State.Inv.code_of_codeValid (h : s.Inv) (hv : s.codeValid = true) :
    s.cfgOk = true ∧ s.codeLen = s.cfgDigits ∧
      s.buf.readBytes Config.codeBase Config.codeBuf =
        codeText s.cfgDigits.toNat (s.value.toNat % 10 ^ s.cfgDigits.toNat) := by
  obtain ⟨hvalue, hcode⟩ := State.codeInv_iff.1 h.code
  obtain ⟨hval, hlen, _, htext⟩ := hcode hv
  exact ⟨hvalue hval, hlen, htext⟩

/-- A valid code has at most 10 characters. -/
theorem State.Inv.codeLen_le (h : s.Inv) (hv : s.codeValid = true) : s.codeLen.toNat ≤ 10 := by
  obtain ⟨hc, hlen, _⟩ := h.code_of_codeValid hv
  obtain ⟨_, hdigits, _⟩ := (State.cfgLegal_iff s).1 (h.cfgLegal hc)
  rwa [hlen]

/-- CODE holds zeros after a valid code. -/
theorem State.Inv.codeByte_eq_zero (h : s.Inv) (hv : s.codeValid = true) {j : Nat} (hj : s.codeLen.toNat ≤ j)
    (h16 : j < 16) : s.codeByte j = 0x00 := by
  obtain ⟨_, hlen, htext⟩ := h.code_of_codeValid hv
  obtain ⟨_, hchar⟩ := (Memory.readBytes_eq_iff ..).1 htext
  rw [hlen] at hj
  rw [State.codeByte, hchar j (by simpa using h16)]
  simp [codeText, codeChar, hj]

/-- The candidate of any state is the CAND_LEN bytes from CAND on. -/
theorem State.holdsCand_readBytes (s : State) :
    s.HoldsCand (s.buf.readBytes Config.candBase s.candLen.toNat) where
  length := by simp
  bytes := by simp

/-! ## The outcomes of CMP (R211) -/

theorem execCmp_of_not_ready (h : s.cfgOk = false ∨ s.codeValid = false ∨ s.winActive = true) :
    exec .cmp s = .next (s.faulted .sequence 0x00000040) := by
  rcases execCmp_cases s with ⟨_, e⟩ | ⟨hc, hv, hw, _⟩
  · exact e
  · simp [hc, hv, hw] at h

theorem execCmp_publishes (hc : s.cfgOk = true) (hv : s.codeValid = true) (hw : s.winActive = false) :
    exec .cmp s = .next (s.withResult s.codeEqCand) := by
  rcases execCmp_cases s with ⟨h, _⟩ | ⟨_, _, _, e⟩
  · simp [hc, hv, hw] at h
  · exact e

/-! ## The outcomes of CMPW (R215) -/

theorem execCmpw_of_not_ready (h : s.winActive = false ∨ s.codeValid = false) :
    exec .cmpw s = .next (s.faulted .sequence 0x00000041) := by
  rcases execCmpw_cases s with ⟨_, e⟩ | ⟨hw, hv, _⟩ | ⟨hw, hv, _⟩
  · exact e
  all_goals simp [hw, hv] at h

/-- CMPW at the last offset. -/
theorem execCmpw_closes (hw : s.winActive = true) (hv : s.codeValid = true) (hlast : s.winI = s.winD) :
    exec .cmpw s = .next (s.accumulated s.codeEqCand).windowClosed := by
  rw [execCmpw_advances hw hv]
  exact congrArg _ (if_pos hlast)

/-- CMPW at an earlier offset. -/
theorem execCmpw_moves (hw : s.winActive = true) (hv : s.codeValid = true) (hearlier : s.winI ≠ s.winD) :
    exec .cmpw s = .next (s.accumulated s.codeEqCand).windowMoved := by
  rw [execCmpw_advances hw hv]
  exact congrArg _ (if_neg hearlier)

end

/-! ## The obligations -/

/-- Settles O42: the zeros after a valid code make the 16 positions speak of the two strings only. -/
theorem eqIsStringEquality : Obligations.EqIsStringEquality := by
  intro s hinv hv
  have hle := hinv.codeLen_le hv
  rw [State.codeEqCand_eq_beq (by omega) (fun _ => hinv.codeByte_eq_zero hv) s.holdsCand_readBytes, beq_iff_eq,
    State.codeBytes, Memory.readBytes_eq_iff]
  simp only [Memory.length_readBytes, Memory.getElem_readBytes, BitVec.toNat_inj]
  refine and_congr_right fun hlen => ?_
  rw [hlen]
  exact forall₂_congr fun _ _ => eq_comm

/-- Settles O43: the two outcomes of CMP, and what the comparison it publishes says. -/
theorem cmpPublishesTheComparison : Obligations.CmpPublishesTheComparison :=
  fun s => ⟨execCmp_of_not_ready, fun hc hv hw =>
    ⟨s.codeEqCand, execCmp_publishes hc hv hw, s.codeEqCand_iff⟩⟩

/-- Settles O44: the three outcomes of CMPW, and what the comparison it gathers says. -/
theorem cmpwAccumulatesAndAdvances : Obligations.CmpwAccumulatesAndAdvances :=
  fun s => ⟨execCmpw_of_not_ready, fun hw hv =>
    ⟨s.codeEqCand, s.codeEqCand_iff, execCmpw_closes hw hv, execCmpw_moves hw hv⟩⟩

end Sys2Proof.Machine
end

section
/-! PROOFS. Exceptions (60_exceptions.md): what an illegal word and a faulted engine do, what a fault writes, which
command raises which fault, and when a command faults with Sequence. -/

namespace Sys2Proof.Machine

/-! ## Words at a faulted engine (R241) -/

/-- R241: while FAULT = 1 the word of CLRERR executes. -/
theorem submit_clrerr_of_fault {s : State} (hf : s.fault = true) : submit 0x00000002 s = exec .clrerr s := by
  rw [submit, if_neg (by decide), if_pos hf, if_pos rfl]

/-- R76, R241: the rejection of a transaction does not look at FAULT. -/
theorem busReject_fault (s : State) (b wr : Bool) (addr size : Nat) :
    busReject { s with fault := b } wr addr size = busReject s wr addr size := rfl

/-! ## What a fault writes (R240) -/

/-- The state after the first line of a word's command; an illegal word has no first line (R235, R240). -/
def State.afterFirstLineOf (w : Word) (s : State) : State :=
  match decodeWord w with
  | .ok i => s.afterFirstLine i
  | .error _ => s

section
variable {s t : State} {w : Word} {i : Instr} {f : Flag}

theorem State.afterFirstLineOf_of_decodes (hd : decodeWord w = .ok i) (s : State) :
    s.afterFirstLineOf w = s.afterFirstLine i := by
  rw [State.afterFirstLineOf, hd]

theorem State.afterFirstLineOf_of_illegal {e : DecodeError} (hd : decodeWord w = .error e) (s : State) :
    s.afterFirstLineOf w = s := by
  rw [State.afterFirstLineOf, hd]

/-- A command that sets FAULT has not completed. -/
theorem exec_faults (h : exec i s = .next t) (h0 : s.fault = false) (h1 : t.fault = true) :
    ∃ k, t = (s.afterFirstLine i).faulted k (encode i) := by
  rcases exec_completes_or_faults h with hdone | hfault
  · exact absurd ((hdone.fault_eq h0).symm.trans h1) nofun
  · exact hfault

/-- A word that sets FAULT leaves the faulted state after its first line and records itself. -/
theorem submit_faults (h : submit w s = .next t) (h0 : s.fault = false) (h1 : t.fault = true) :
    ∃ k, t = (s.afterFirstLineOf w).faulted k w := by
  cases hd : decodeWord w with
  | error e =>
    cases (submit_of_illegal h0 hd).symm.trans h
    exact ⟨.illegalCommand, by rw [State.afterFirstLineOf_of_illegal hd]⟩
  | ok i =>
    obtain ⟨k, rfl⟩ := exec_faults ((submit_of_decodes h0 hd).symm.trans h) h0 h1
    exact ⟨k, by rw [State.afterFirstLineOf_of_decodes hd, encode_of_decodeWord hd]⟩

/-- What a first line clears is clear after it. -/
theorem State.flag_afterFirstLine_of_clears (h : firstLineClears i f = true) : (s.afterFirstLine i).flag f = false := by
  cases i <;> cases f <;> first | rfl | cases h

/-- A flag is set after the first line of a word exactly when it was set before and the word is not one of a command
that clears it. -/
theorem State.flag_afterFirstLineOf_iff (s : State) (w : Word) (f : Flag) :
    (s.afterFirstLineOf w).flag f = true ↔
      s.flag f = true ∧ ∀ i, firstLineClears i f = true → decodeWord w ≠ .ok i := by
  cases hd : decodeWord w with
  | error e => simp [State.afterFirstLineOf_of_illegal hd]
  | ok i =>
    rw [State.afterFirstLineOf_of_decodes hd]
    constructor
    · refine fun h => ⟨State.flag_of_afterFirstLine h, fun j hj hij => ?_⟩
      cases hij
      exact absurd ((State.flag_afterFirstLine_of_clears hj).symm.trans h) nofun
    · rintro ⟨h, hkept⟩
      exact State.flag_afterFirstLine_of (eq_false_of_ne_true fun hi => hkept i hi rfl) h

/-! R240, the destination flags: the commands that clear each, and when each is set after the first line of a word. -/

theorem firstLineClears_keyValid_iff : firstLineClears i .keyValid = true ↔ i = .b32dec := by
  cases i <;> simp [firstLineClears]

theorem firstLineClears_msgValid_iff : firstLineClears i .msgValid = true ↔ i = .slicew ∨ ∃ k, i = .slice k := by
  cases i <;> simp [firstLineClears]

theorem firstLineClears_valueValid_iff : firstLineClears i .valueValid = true ↔ i = .dtrunc := by
  cases i <;> simp [firstLineClears]

theorem firstLineClears_codeValid_iff : firstLineClears i .codeValid = true ↔ i = .dtrunc ∨ i = .modred := by
  cases i <;> simp [firstLineClears]

theorem State.keyValid_afterFirstLineOf_iff (s : State) (w : Word) :
    (s.afterFirstLineOf w).keyValid = true ↔ s.keyValid = true ∧ decodeWord w ≠ .ok .b32dec :=
  (s.flag_afterFirstLineOf_iff w .keyValid).trans <| and_congr_right' (by simp [firstLineClears_keyValid_iff])

theorem State.msgValid_afterFirstLineOf_iff (s : State) (w : Word) :
    (s.afterFirstLineOf w).msgValid = true ↔
      s.msgValid = true ∧ decodeWord w ≠ .ok .slicew ∧ ∀ k, decodeWord w ≠ .ok (.slice k) :=
  (s.flag_afterFirstLineOf_iff w .msgValid).trans <|
    and_congr_right' (by simp [firstLineClears_msgValid_iff, or_imp, forall_and])

theorem State.valueValid_afterFirstLineOf_iff (s : State) (w : Word) :
    (s.afterFirstLineOf w).valueValid = true ↔ s.valueValid = true ∧ decodeWord w ≠ .ok .dtrunc :=
  (s.flag_afterFirstLineOf_iff w .valueValid).trans <| and_congr_right' (by simp [firstLineClears_valueValid_iff])

theorem State.codeValid_afterFirstLineOf_iff (s : State) (w : Word) :
    (s.afterFirstLineOf w).codeValid = true ↔
      s.codeValid = true ∧ decodeWord w ≠ .ok .dtrunc ∧ decodeWord w ≠ .ok .modred :=
  (s.flag_afterFirstLineOf_iff w .codeValid).trans <| and_congr_right' (by simp [firstLineClears_codeValid_iff])

/-- A first line followed by a fault writes the destination flags and what the fault records, and nothing else. -/
theorem State.faulted_afterFirstLineOf (s : State) (k : FaultKind) (w : Word) :
    (s.afterFirstLineOf w).faulted k w =
      { s.faulted k w with
        keyValid := (s.afterFirstLineOf w).keyValid
        msgValid := (s.afterFirstLineOf w).msgValid
        valueValid := (s.afterFirstLineOf w).valueValid
        codeValid := (s.afterFirstLineOf w).codeValid } := by
  cases hd : decodeWord w with
  | error e =>
    rw [State.afterFirstLineOf_of_illegal hd]
    rfl
  | ok i =>
    rw [State.afterFirstLineOf_of_decodes hd]
    cases i <;> rfl

/-! ## When a command faults with Sequence (R236) -/

/-- The table of R236: the state that the command needs is not there. -/
def State.lacksStateFor (i : Instr) (s : State) : Prop :=
  match i with
  | .cfglock => s.cfgOk = true
  | .slice _ | .vbegin _ => s.cfgOk = false ∨ s.timeValid = false
  | .slicew => s.winActive = false
  | .dtrunc => s.cfgOk = false
  | .modred => s.cfgOk = false ∨ s.valueValid = false
  | .cmp => s.cfgOk = false ∨ s.codeValid = false ∨ s.winActive = true
  | .cmpw => s.winActive = false ∨ s.codeValid = false
  | .b32dec | .clrerr | .sreset => False

/-- R236: the first test of a command is the one of the table. -/
theorem exec_of_lacksStateFor (h : s.lacksStateFor i) :
    exec i s = .next ((s.afterFirstLine i).faulted .sequence (encode i)) := by
  cases i with
  | b32dec | clrerr | sreset => exact h.elim
  | cfglock | dtrunc | modred | slice | vbegin | slicew | cmp | cmpw => exact if_pos h

/-- No later test of a command raises Sequence. -/
theorem lacksStateFor_of_sequence (h : exec i s = .next t) (h0 : s.fault = false) (h1 : t.fault = true)
    (hk : t.errCode = some .sequence) : s.lacksStateFor i := by
  have hraised : ∀ {k : FaultKind} {u : State} {w : Word}, exec i s = .next (u.faulted k w) → k = .sequence := by
    intro k u w e
    cases e.symm.trans h
    exact Option.some.inj hk
  have hclean : ∀ {u : State}, u.fault = s.fault → exec i s ≠ .next u := by
    rintro u hu e
    cases e.symm.trans h
    exact absurd (h0.symm.trans (hu.symm.trans h1)) nofun
  cases i with
  | clrerr | sreset => cases h; cases h1
  | cfglock =>
    rcases execCfglock_cases s with ⟨hn, _⟩ | ⟨_, _, e⟩ | ⟨_, _, e⟩
    · exact hn
    · cases hraised e
    · exact absurd e (hclean rfl)
  | b32dec =>
    rcases execB32dec_cases s with ⟨_, e⟩ | ⟨_, _, e⟩ | ⟨_, _, _, e⟩
    · cases hraised e
    · cases hraised e
    · exact absurd e (hclean rfl)
  | dtrunc =>
    rcases execDtrunc_cases s with ⟨hn, _⟩ | ⟨_, _, e⟩ | ⟨_, _, e⟩
    · exact hn
    · cases hraised e
    · exact absurd e (hclean rfl)
  | modred =>
    rcases execModred_cases s with ⟨hn, _⟩ | ⟨_, _, e⟩
    · exact hn
    · exact absurd e (hclean rfl)
  | slice k =>
    rcases execSlice_cases k s with ⟨hn, _⟩ | ⟨_, _, _, e⟩ | ⟨_, _, _, _, e⟩
    · exact hn
    · cases hraised e
    · exact absurd e (hclean rfl)
  | vbegin d =>
    rcases execVbegin_cases d s with ⟨hn, _⟩ | ⟨_, _, _, e⟩ | ⟨_, _, _, e⟩
    · exact hn
    · cases hraised e
    · exact absurd e (hclean rfl)
  | slicew =>
    rcases execSlicew_cases s with ⟨hn, _⟩ | ⟨_, _, e⟩ | ⟨_, _, _, e⟩
    · exact hn
    · cases hraised e
    · exact absurd e (hclean rfl)
  | cmp =>
    rcases execCmp_cases s with ⟨hn, _⟩ | ⟨_, _, _, e⟩
    · exact hn
    · exact absurd e (hclean rfl)
  | cmpw =>
    rcases execCmpw_cases s with ⟨hn, _⟩ | ⟨_, _, _, e⟩ | ⟨_, _, _, e⟩
    · exact hn
    · exact absurd e (hclean rfl)
    · exact absurd e (hclean rfl)

/-- R236: a command faults with Sequence exactly when the state it needs is not there. -/
theorem exec_sequence_iff (h0 : s.fault = false) :
    (∃ t, exec i s = .next t ∧ t.fault = true ∧ t.errCode = some .sequence) ↔ s.lacksStateFor i :=
  ⟨fun ⟨_, h, h1, hk⟩ => lacksStateFor_of_sequence h h0 h1 hk, fun h => ⟨_, exec_of_lacksStateFor h, rfl, rfl⟩⟩

end

/-! ## The obligations -/

/-- Settles O8: the operation is taken and answered, then the word is found illegal. -/
theorem illegalWordTakesItsFault : Obligations.IllegalWordTakesItsFault :=
  fun _ _ _ _ hp hf hd => (step_command hp).trans (submit_of_illegal hf hd)

/-- Settles O9: the operation is taken and answered, then the word is compared with the two that execute. -/
theorem faultedEngineIgnoresWords : Obligations.FaultedEngineIgnoresWords := by
  refine ⟨fun s w rest hp hf => ?_, busReject_fault⟩
  rw [step_command hp]
  refine ⟨?_, ?_, submit_of_fault hf⟩
  · rintro rfl
    exact submit_sreset _
  · rintro rfl
    exact submit_clrerr_of_fault hf

/-- Settles O11: only a word written to CMD sets FAULT, and it leaves the faulted state after its first line. -/
theorem faultEntryWritesOnlyWhatItNames : Obligations.FaultEntryWritesOnlyWhatItNames := by
  intro s t h h0 h1
  obtain ⟨_, _, _, _, _, _, _, _, hset⟩ := flagsAreSetOnlyAsListed s t h
  obtain ⟨w, rest, hp⟩ := hset h0 h1
  rw [step_command hp] at h
  obtain ⟨k, rfl⟩ := submit_faults h h0 h1
  exact ⟨w, k, rest, hp, State.faulted_afterFirstLineOf _ k w, State.keyValid_afterFirstLineOf_iff _ w,
    State.msgValid_afterFirstLineOf_iff _ w, State.valueValid_afterFirstLineOf_iff _ w,
    State.codeValid_afterFirstLineOf_iff _ w⟩

/-- Settles O12: a command that sets FAULT records its own word, and a code of its row of R231. -/
theorem faultsRaisedByEachCommand : Obligations.FaultsRaisedByEachCommand := by
  refine ⟨fun i s t h h0 h1 => ?_, rfl, rfl, rfl, rfl, rfl, rfl, rfl, fun s => ?_⟩
  · obtain ⟨k, hk, hmem⟩ := exec_raises h h0 h1
    obtain ⟨_, rfl⟩ := exec_faults h h0 h1
    exact ⟨rfl, k, hk, by cases i <;> exact hmem⟩
  · unfold State.errCodeWord
    cases s.errCode <;> rfl

/-- Settles O13: the table of the statement is that of `State.lacksStateFor`. -/
theorem sequenceFaultsExactly : Obligations.SequenceFaultsExactly := by
  intro i s h0
  rw [exec_sequence_iff h0]
  cases i <;> exact Iff.rfl

end Sys2Proof.Machine
end

section
/-! PROOFS. Reset and hazards (70_reset_and_hazards.md): no operation stops the engine, and the latency of a comparison
is one constant. -/

namespace Sys2Proof.Machine

/-! ## The latency of a comparison (R275) -/

/-- CMP takes its one constant, whatever the state. -/
@[simp] theorem latency_cmp (s : State) : latency .cmp s = Config.latCmp := rfl

/-- CMPW takes its one constant, whatever the state. -/
@[simp] theorem latency_cmpw (s : State) : latency .cmpw s = Config.latCmpw := rfl

/-! ## The obligations -/

/-- Settles O14: an idle step keeps the state, a read or a reset answers at once, and a write answers a next state
because every command does (`exec_eq_next`). -/
theorem everyStepAnswersNext : Obligations.EveryStepAnswersNext := step_eq_next

/-- Settles O45: both states give the constant of the command. -/
theorem comparatorLatencyIsConstant : Obligations.ComparatorLatencyIsConstant := fun s t =>
  ⟨(latency_cmp s).trans (latency_cmp t).symm, (latency_cmpw s).trans (latency_cmpw t).symm⟩

end Sys2Proof.Machine
end
